-- ==== Sys2Proof/Word.lean ====
section
/-! DEFINITION. The word types of the CAN frame-decode block (CFD). Registers are 32 bits wide
(10_state.md R17), payload and buffer bytes 8 bits, the values of XU 64 bits (00_scope.md R6). -/

namespace Sys2Proof

/-- One payload or buffer byte. -/
abbrev Byte := BitVec 8

/-- One host-visible register (10_state.md R17). -/
abbrev Word := BitVec 32

/-- One 64-bit value held in a `_LO`/`_HI` register pair (20_memory.md R47). -/
abbrev DWord := BitVec 64

end Sys2Proof
end

