-- ==== Sys2Proof/Config.lean ====
section
/-! DEFINITION. What an implementation fixes (00_scope.md R6), and the OPEN parameters of the spec as
constants without a body (92_eei_decisions.md, BLOCK_BASE and NAN_RESULT; 93_implementation_defined.md I4). -/

namespace Sys2Proof.Config

/-- Bytes of the register window (20_memory.md R45, R50). -/
def windowBytes : Nat := 256

/-- The word slot of `CMD`, byte offset 0xF0 (10_state.md R17, R42). -/
def cmdSlot : BitVec 6 := 0x3C

/-- Capacity of the reassembly buffer, `BUF[0..4100]` (42_isotp.md R100). -/
def bufCapacity : Nat := 4101

/-- The longest payload of a frame (00_scope.md R6). -/
def maxDlc : Nat := 8

/-- OPEN: which 256-byte page of the platform's address space holds the window (20_memory.md R50, D6).
Log entry 4. -/
opaque blockBasePage : Nat

/-- `BLOCK_BASE`, a 256-byte aligned platform address (20_memory.md R50). -/
def blockBase : Nat := windowBytes * blockBasePage

/-- FREE VALUE: the 64 bits from which the NaN pattern of the `n`-th draw is made, `NAN_RESULT`
(40_extractor.md R83, D41). Log entry 5. -/
opaque nanDraw (n : Nat) : DWord

/-- FREE VALUE: byte `i` of `BUF` after the block reset that makes draw `n`
(70_reset_and_hazards.md R139, I4). Log entry 7. -/
opaque bufDraw (n i : Nat) : Byte

end Sys2Proof.Config
end

