-- ==== Sys2Proof/Syntax.lean ====
section
/-! DEFINITION. What the host can say to CFD: the registers by name (10_state.md R17), the instructions,
one constructor per row of spec/opcode_table.json (30_encoding.md R65, R66, R73), and the bus
transactions that carry them (20_memory.md R49). -/

namespace Sys2Proof

/-- The host-visible registers, in the order of 10_state.md R17. -/
inductive Reg where
  | frameId | frameCtl | frameD0 | frameD1
  | xdesc | xmaskLo | xmaskHi | xscaleLo | xscaleHi | xoffLo | xoffHi
  | xrawLo | xrawHi | xphysLo | xphysHi
  | cdesc | cbias | cmod | cres
  | tpRspId | tpReqId | tpTimeout | tpFcpad | tpStatus | tpLen | tpTmr | tpBufptr | tpBufdata
  | fcId | fcCtl | fcD0 | fcD1
  | cmd | cmdStatus
  deriving DecidableEq, Repr

/-- What a word written to `CMD` selects: one of the seven commands, or the illegal space
(30_encoding.md R63, R66). An illegal word is kept, since an encoder must give it back. -/
inductive Command where
  | nop | xtr | csum | tpfrm | tprst | tptick | fcack
  | illegal (word : Word)
  deriving DecidableEq, Repr

/-- One constructor per row of spec/opcode_table.json. The seven commands and the illegal space are
words of format C written to `CMD`; `rd` and `wr` are the HOSTBUS rows, whose operand is the word slot
`OFF[7:2]` (30_encoding.md R73). -/
inductive Instr where
  | nop | xtr | csum | tpfrm | tprst | tptick | fcack
  | rd (slot : BitVec 6)
  | wr (slot : BitVec 6) (data : Word)
  | illegal (word : Word)
  deriving DecidableEq, Repr

/-- A host access as the bus presents it: its width in bits, the byte offset in the window and, for a
write, the data. Only 32-bit word-aligned accesses are accepted (20_memory.md R49); the others can be
written down so that their refusal can be stated. -/
inductive HostAccess where
  | read (bits : Nat) (off : BitVec 8)
  | write (bits : Nat) (off : BitVec 8) (data : Word)
  deriving DecidableEq, Repr

/-- The instruction that stands for a command written to `CMD`. -/
def Command.toInstr : Command → Instr
  | .nop => .nop
  | .xtr => .xtr
  | .csum => .csum
  | .tpfrm => .tpfrm
  | .tprst => .tprst
  | .tptick => .tptick
  | .fcack => .fcack
  | .illegal w => .illegal w

end Sys2Proof
end

