-- ==== Sys2Proof/WellFormed.lean ====
section
/-! DEFINITION. Which instructions are the canonical reading of a bus transaction. Slots are six bits
wide, so every slot is in the window and word aligned (20_memory.md R45); two checks remain. -/

namespace Sys2Proof

/-- The words of 30_encoding.md R66: `Z` not 0, or `OPC` in 0x07..0xFF. -/
def isIllegalWord (w : Word) : Bool :=
  w.extractLsb' 8 24 != 0 || decide (7 ≤ (w.extractLsb' 0 8).toNat)

/-- An `(illegal)` instruction holds a word outside the command map (R66). A write to `CMD` is written as
the command its data selects, not as `wr` (R52, R63; log entry 1). -/
def Instr.wellFormed : Instr → Bool
  | .nop => true
  | .xtr => true
  | .csum => true
  | .tpfrm => true
  | .tprst => true
  | .tptick => true
  | .fcack => true
  | .rd _ => true
  | .wr slot _ => slot != Config.cmdSlot
  | .illegal w => isIllegalWord w

/-- The check as a proposition. -/
abbrev Instr.WellFormed (i : Instr) : Prop := i.wellFormed = true

end Sys2Proof
end

