-- ==== Sys2Proof/Decode.lean ====
section
/-! DEFINITION. Decoding a command word and a bus transaction, total, rejecting by name; and the encoder,
written from the same tables (30_encoding.md R63-R66, R73; 20_memory.md R49, R52). -/

namespace Sys2Proof

/-- Why a bus transaction is no instruction of CFD (20_memory.md R49, I6). -/
inductive AccessReject where
  /-- the access is not 32 bits wide -/
  | width
  /-- the byte offset is no multiple of 4 -/
  | misaligned
  deriving DecidableEq, Repr

/-- 30_encoding.md R63: every 32-bit word selects one of the seven commands or the illegal space. -/
def decodeCommand (v : Word) : Command :=
  if v.extractLsb' 8 24 ≠ 0 then .illegal v
  else match (v.extractLsb' 0 8).toNat with
    | 0 => .nop
    | 1 => .xtr
    | 2 => .csum
    | 3 => .tpfrm
    | 4 => .tprst
    | 5 => .tptick
    | 6 => .fcack
    | _ => .illegal v

/-- The word slot of an access, if CFD accepts its width and alignment (20_memory.md R49). Where both are
wrong the width is named; R49 names no order (log entry 9). -/
def acceptSlot (bits : Nat) (off : BitVec 8) : Except AccessReject (BitVec 6) :=
  if bits ≠ 32 then .error .width
  else if off.extractLsb' 0 2 ≠ 0 then .error .misaligned
  else .ok (off.extractLsb' 2 6)

/-- The instruction a bus transaction is: a read is `RD`, a write to `CMD` the command its data selects
(20_memory.md R52), any other write `WR`. -/
def decode : HostAccess → Except AccessReject Instr
  | .read bits off =>
    match acceptSlot bits off with
    | .error r => .error r
    | .ok slot => .ok (.rd slot)
  | .write bits off data =>
    match acceptSlot bits off with
    | .error r => .error r
    | .ok slot =>
      if slot = Config.cmdSlot then .ok (decodeCommand data).toInstr else .ok (.wr slot data)

/-- The byte offset of a word slot: `OFF[7:2]` is the slot, `OFF[1:0]` is 0 (30_encoding.md R73). -/
def slotOffset (slot : BitVec 6) : BitVec 8 := slot ++ (0#2)

/-- A write of a command word to `CMD` (30_encoding.md R65). -/
def commandAccess (w : Word) : HostAccess := .write 32 (slotOffset Config.cmdSlot) w

/-- The bus transaction of an instruction: command words of 30_encoding.md R65, accesses of R73. -/
def encode : Instr → HostAccess
  | .nop => commandAccess 0x00000000
  | .xtr => commandAccess 0x00000001
  | .csum => commandAccess 0x00000002
  | .tpfrm => commandAccess 0x00000003
  | .tprst => commandAccess 0x00000004
  | .tptick => commandAccess 0x00000005
  | .fcack => commandAccess 0x00000006
  | .rd slot => .read 32 (slotOffset slot)
  | .wr slot data => .write 32 (slotOffset slot) data
  | .illegal w => commandAccess w

/-- The instruction the decoder reads from a table word: a command is exactly one 32-bit word written to
`CMD` (30_encoding.md R72). The HOSTBUS rows have no bits inside CFD (R73; log entry 1). -/
def decodeTableWord (nbits w : Nat) : Option Instr :=
  if nbits = 32 ∧ w < 2 ^ 32 then
    match decode (commandAccess (BitVec.ofNat 32 w)) with
    | .ok i => some i
    | .error _ => none
  else none

end Sys2Proof
end

