-- ==== Sys2Proof/Machine/Binary64.lean ====
section
/-! DEFINITION. IEEE 754 binary64 arithmetic of XU's multiplier-adder (40_extractor.md R82, R83;
30_encoding.md R68), exact integers first and one rounding at the end. A finite magnitude is a natural number
counted in units of 2^-1074, the smallest subnormal; every binary64 value is such a whole number.
The results are those the spec supplies from general knowledge (93_implementation_defined.md G2-G6;
log entry 11). -/

namespace Sys2Proof.Machine

/-- The value of a binary64 pattern. `fin neg mag` is `± mag * 2^-1074`; zero keeps its sign. -/
inductive F64 where
  | nan
  | inf (neg : Bool)
  | fin (neg : Bool) (mag : Nat)
  deriving DecidableEq, Repr

/-- The units of 2^-1074 in 1.0. -/
def f64One : Nat := 1 <<< 1074

/-- Magnitudes from here on are infinite: 2^1024 (30_encoding.md R68). -/
def f64Overflow : Nat := 1 <<< 2098

/-- The value a 64-bit pattern encodes (30_encoding.md R68). -/
def f64Unpack (w : DWord) : F64 :=
  let neg := w.getLsbD 63
  let e := (w.extractLsb' 52 11).toNat
  let f := (w.extractLsb' 0 52).toNat
  if e = 0x7FF then (if f = 0 then .inf neg else .nan)
  else if e = 0 then .fin neg f
  else .fin neg ((2 ^ 52 + f) <<< (e - 1))

/-- The pattern with sign `neg` and bits 62:0 `rest`. -/
def f64Bits (neg : Bool) (rest : Nat) : DWord :=
  BitVec.ofBool neg ++ BitVec.ofNat 63 rest

/-- How many low bits of a magnitude fall below a 53-bit significand. -/
def excessBits (n : Nat) : Nat := n.log2 + 1 - 53

/-- The pattern of a value; `nanPattern` stands for a NaN (40_extractor.md R83). Biased exponent and fraction
of a magnitude are one number: the exponent counts the excess bits, the significand carries into it. -/
def f64Pack (nanPattern : DWord) : F64 → DWord
  | .nan => nanPattern
  | .inf neg => f64Bits neg (0x7FF * 2 ^ 52)
  | .fin neg mag => f64Bits neg (excessBits mag * 2 ^ 52 + mag >>> excessBits mag)

/-- `n / 2^d` rounded to nearest, ties to even (40_extractor.md R82). -/
def roundNearestEven (n d : Nat) : Nat :=
  let q := n >>> d
  let r := n % 2 ^ d
  if 2 * r < 2 ^ d then q else if 2 ^ d < 2 * r then q + 1 else q + q % 2

/-- The binary64 value of `± n * 2^-(1074 + sh)`, rounded once: to a 53-bit significand, or to a whole number of
2^-1074 where that is coarser (subnormals kept), and to a signed infinity from 2^1024 on
(40_extractor.md R82, R83). -/
def f64Round (neg : Bool) (n sh : Nat) : F64 :=
  let d := max sh (excessBits n)
  let mag := roundNearestEven n d <<< (d - sh)
  if f64Overflow ≤ mag then .inf neg else .fin neg mag

/-- `cvt_f64` (40_extractor.md R82); `cvt_f64(0)` is +0.0 (R83). -/
def f64OfInt (i : Int) : F64 := f64Round (decide (i < 0)) (i.natAbs * f64One) 0

/-- `fmul` (40_extractor.md R82, R83). -/
def f64Mul : F64 → F64 → F64
  | .nan, _ => .nan
  | _, .nan => .nan
  | .inf a, .inf b => .inf (a ^^ b)
  | .inf a, .fin b m => if m = 0 then .nan else .inf (a ^^ b)
  | .fin a m, .inf b => if m = 0 then .nan else .inf (a ^^ b)
  | .fin a m, .fin b n => f64Round (a ^^ b) (m * n) 1074

/-- The signed count of a finite magnitude. -/
def signedMag (neg : Bool) (m : Nat) : Int := if neg then -(m : Int) else (m : Int)

/-- `fadd` (40_extractor.md R82, R83). An exact sum of 0 is +0.0 unless both operands are negative. -/
def f64Add : F64 → F64 → F64
  | .nan, _ => .nan
  | _, .nan => .nan
  | .inf a, .inf b => if a = b then .inf a else .nan
  | .inf a, .fin _ _ => .inf a
  | .fin _ _, .inf b => .inf b
  | .fin a m, .fin b n =>
    let sum := signedMag a m + signedMag b n
    f64Round (if sum = 0 then a && b else decide (sum < 0)) sum.natAbs 0

/-- A NaN pattern made of 64 free bits: exponent 0x7FF, a fraction that is not 0 (30_encoding.md R68). Every NaN
pattern is the image of itself, so every draw of `NAN_RESULT` is reached (40_extractor.md R83). -/
def nanPattern (bits : DWord) : DWord :=
  let frac := bits.extractLsb' 0 52
  bits.extractLsb' 63 1 ++ (0x7FF#11) ++ (if frac = 0 then 1 else frac)

end Sys2Proof.Machine
end

