-- ==== Sys2Proof/Machine/State.lean ====
section
/-! DEFINITION. The state of CFD (10_state.md R17-R43) as plain data, and its value right after reset
(70_reset_and_hazards.md R138). Only defined fields are stored: reserved bits hold nothing
(20_memory.md R53). -/

namespace Sys2Proof.Machine

/-- Why the machine stops. CFD has no trap and no hang (60_exceptions.md R131, 70_reset_and_hazards.md R148). -/
inductive Fault where
  /-- Raised by a `TPFRM` or an `RD` of `TP_BUFDATA` that would touch `BUF[4101]` or beyond, a byte that does
  not exist. 42_isotp.md R100 derives that this never happens; only states no run reaches get here. Safe.
  Log entry 8. -/
  | bufferOverrun
  deriving DecidableEq, Repr

/-- Why a host access has no step. -/
inductive Refusal where
  /-- Raised by an arm of `exec` whose instruction has no meaning yet. Safe. -/
  | notModelled (mnemonic : String)
  /-- Raised by the bus port: the access is not 32 bits wide (20_memory.md R49, I6). Safe. Log entry 9. -/
  | accessWidth
  /-- Raised by the bus port: the offset is no multiple of 4 (20_memory.md R49, I6). Safe. Log entry 9. -/
  | accessMisaligned
  /-- Raised by the bus port: block reset is asserted (70_reset_and_hazards.md R137, I7). Safe. Log entry 9. -/
  | accessDuringReset
  deriving DecidableEq, Repr

/-- The frame registers `FRAME_ID`, `FRAME_CTL`, `FRAME_D0`, `FRAME_D1` (10_state.md R18-R20). -/
structure FrameRegs where
  id : BitVec 29
  dlc : Byte
  bus : Byte
  d0 : Word
  d1 : Word
  deriving DecidableEq, Repr

/-- The descriptor registers `XDESC`, `XMASK`, `XSCALE`, `XOFF` (10_state.md R22-R25).
`little` is `XDESC.ENDIAN`: true is 1. -/
structure FieldRegs where
  start : Byte
  width : Byte
  little : Bool
  signed : Bool
  maskEn : Bool
  mask : DWord
  scale : DWord
  offset : DWord
  deriving DecidableEq, Repr

/-- The result registers `XRAW` and `XPHYS` of XU (10_state.md R26, R27). -/
structure FieldResult where
  raw : DWord
  phys : DWord
  deriving DecidableEq, Repr

/-- The spec registers `CDESC`, `CBIAS`, `CMOD` (10_state.md R28-R30). -/
structure ChecksumRegs where
  lo : Byte
  hi : Byte
  chk : Byte
  bias : Word
  modulus : Word
  deriving DecidableEq, Repr

/-- The result register `CRES` of CU (10_state.md R31). -/
structure ChecksumResult where
  expected : Byte
  actual : Byte
  ok : Bool
  deriving DecidableEq, Repr

/-- The configuration registers of TU (10_state.md R32-R34). -/
structure TpConfig where
  rspId : BitVec 29
  reqId : BitVec 29
  timeout : Word
  fcPad : Byte
  deriving DecidableEq, Repr

/-- `PHASE` (10_state.md R35; codes 0..3 in `Phase.code`). -/
inductive Phase where
  | idle | awaitCf | complete | failed
  deriving DecidableEq, Repr

/-- `ERR` (10_state.md R35; codes 0..3 in `SessionError.code`). `lengthMismatch` is reserved and never written
(42_isotp.md R112). -/
inductive SessionError where
  | none | seqMismatch | timeout | lengthMismatch
  deriving DecidableEq, Repr

/-- The session elements of TU but `BUF` (10_state.md R35). -/
structure Session where
  phase : Phase
  err : SessionError
  seq : BitVec 4
  expLen : BitVec 12
  rxLen : BitVec 13
  tmr : Word
  deriving DecidableEq, Repr

/-- The flow-control output registers and flags (10_state.md R35, R41). -/
structure FcOut where
  id : BitVec 29
  dlc : Byte
  bus : Byte
  d0 : Word
  d1 : Word
  pending : Bool
  overflow : Bool
  deriving DecidableEq, Repr

/-- `CMD_STATUS.CODE` (60_exceptions.md R123; codes 0..4 in `StatusCode.code`). Codes 5..15 are never written
and have no constructor (log entry 13). -/
inductive StatusCode where
  | ok | outOfRange | badFrame | badConfig | illegalCmd
  deriving DecidableEq, Repr

/-- `CMD_STATUS` (10_state.md R43). -/
structure CmdStatus where
  code : StatusCode
  consumed : Bool
  deriving DecidableEq, Repr

/-- `BUF` as a list of (address, byte) cells in one canonical form (`Memory.wf`). -/
abbrev Memory := List Host.Cell

/-- What the outside world does to CFD: a host access (00_scope.md R14), or an edge of the platform's block
reset input (70_reset_and_hazards.md R137). -/
inductive HostEvent where
  | access (a : HostAccess)
  | assertReset
  | releaseReset
  deriving DecidableEq, Repr

/-- Everything the spec gives CFD, and three fields of the model's own: `bus`, `lastRead` and `draws`. -/
structure State where
  /-- frame registers (10_state.md R18-R20) -/
  frame : FrameRegs
  /-- descriptor of the next `XTR` (R22-R25) -/
  field : FieldRegs
  /-- result of the last successful `XTR` (R26, R27) -/
  fieldRes : FieldResult
  /-- spec of the next `CSUM` (R28-R30) -/
  csum : ChecksumRegs
  /-- result of the last successful `CSUM` (R31) -/
  csumRes : ChecksumResult
  /-- configuration of TU (R32-R34) -/
  tpCfg : TpConfig
  /-- `TP_BUFPTR` (R39) -/
  bufPtr : BitVec 13
  /-- the session (R35) -/
  session : Session
  /-- `BUF[0..4100]` (R35, 42_isotp.md R100) -/
  buf : Memory
  /-- the generated flow-control frame (R41) -/
  fc : FcOut
  /-- `CMD_STATUS` (R43) -/
  status : CmdStatus
  /-- the platform asserts block reset (70_reset_and_hazards.md R137) -/
  inReset : Bool
  /-- MODEL: host events not yet performed, oldest first (log entry 2) -/
  bus : List HostEvent
  /-- MODEL: what the latest host read returned to the host (log entry 3) -/
  lastRead : Option Word
  /-- MODEL: how many free values have been drawn (log entry 5) -/
  draws : Nat
  deriving DecidableEq, Repr

/-- The session outside a session: IDLE with every element 0 (42_isotp.md R99, R109). -/
def Session.idleSession : Session :=
  { phase := .idle, err := .none, seq := 0, expLen := 0, rxLen := 0, tmr := 0 }

/-- The machine right after reset: the table of 70_reset_and_hazards.md R138. Block reset is released, and no
host event has arrived (log entries 2, 6, 10). -/
def State.reset : State where
  frame := { id := 0, dlc := 0, bus := 0, d0 := 0, d1 := 0 }
  field :=
    { start := 0, width := 0, little := false, signed := false, maskEn := false
      mask := 0xFFFFFFFFFFFFFFFF, scale := 0x3FF0000000000000, offset := 0 }
  fieldRes := { raw := 0, phys := 0 }
  csum := { lo := 0, hi := 0, chk := 0, bias := 0, modulus := 256 }
  csumRes := { expected := 0, actual := 0, ok := false }
  tpCfg := { rspId := 0, reqId := 0, timeout := 0, fcPad := 0 }
  bufPtr := 0
  session := Session.idleSession
  buf := []
  fc := { id := 0, dlc := 0, bus := 0, d0 := 0, d1 := 0, pending := false, overflow := false }
  status := { code := .ok, consumed := false }
  inReset := false
  bus := []
  lastRead := none
  draws := 0

/-! One named update per field; their lemmas stand in Laws/State.lean. -/

def State.withFrame (s : State) (v : FrameRegs) : State := { s with frame := v }
def State.withField (s : State) (v : FieldRegs) : State := { s with field := v }
def State.withFieldRes (s : State) (v : FieldResult) : State := { s with fieldRes := v }
def State.withCsum (s : State) (v : ChecksumRegs) : State := { s with csum := v }
def State.withCsumRes (s : State) (v : ChecksumResult) : State := { s with csumRes := v }
def State.withTpCfg (s : State) (v : TpConfig) : State := { s with tpCfg := v }
def State.withBufPtr (s : State) (v : BitVec 13) : State := { s with bufPtr := v }
def State.withSession (s : State) (v : Session) : State := { s with session := v }
def State.withBuf (s : State) (v : Memory) : State := { s with buf := v }
def State.withFc (s : State) (v : FcOut) : State := { s with fc := v }
def State.withStatus (s : State) (v : CmdStatus) : State := { s with status := v }
def State.withInReset (s : State) (v : Bool) : State := { s with inReset := v }
def State.withBus (s : State) (v : List HostEvent) : State := { s with bus := v }
def State.withLastRead (s : State) (v : Option Word) : State := { s with lastRead := v }
def State.withDraws (s : State) (v : Nat) : State := { s with draws := v }

end Sys2Proof.Machine
end

