-- ==== Sys2Proof/Machine/Operands.lean ====
section
/-! DEFINITION. How commands read their operands from the registers (30_encoding.md R67), the payload bytes
(10_state.md R20), the fields of an ISO-TP frame (30_encoding.md R69, R70), and the 32-bit views of the
registers that hold several fields (10_state.md R18-R41). -/

namespace Sys2Proof.Machine

/-- Byte lane `j` of a word: bits `8j+7:8j` (20_memory.md R47). -/
def lane (w : Word) (j : Nat) : Byte := w.extractLsb' (8 * j) 8

/-- `b0 | b1<<8 | b2<<16 | b3<<24` (30_encoding.md R75, 20_memory.md R47). -/
def lanes (b0 b1 b2 b3 : Byte) : Word := b3 ++ b2 ++ b1 ++ b0

/-- Bits 31:0 of a 64-bit value, its `_LO` register (20_memory.md R47). -/
def loHalf (v : DWord) : Word := v.extractLsb' 0 32

/-- Bits 63:32 of a 64-bit value, its `_HI` register (20_memory.md R47). -/
def hiHalf (v : DWord) : Word := v.extractLsb' 32 32

/-- `payload[k]` (10_state.md R20). -/
def payload (f : FrameRegs) (k : Nat) : Byte :=
  if k < 4 then lane f.d0 k else lane f.d1 (k - 4)

/-- `payload[a], payload[a+1], …`, `n` bytes. -/
def payloadBytes (f : FrameRegs) (a n : Nat) : List Byte :=
  (List.range n).map fun i => payload f (a + i)

/-- The PCI, `payload[0][7:4]` (30_encoding.md R69). -/
def framePci (f : FrameRegs) : BitVec 4 := (payload f 0).extractLsb' 4 4

/-- The low nibble of byte 0: the sequence number of a Consecutive Frame, the length's high nibble of a First
Frame (30_encoding.md R70). -/
def frameSn (f : FrameRegs) : BitVec 4 := (payload f 0).extractLsb' 0 4

/-- `expected_total_len = {payload[0][3:0], payload[1]}` (30_encoding.md R70). -/
def frameLength (f : FrameRegs) : BitVec 12 := frameSn f ++ payload f 1

/-- One bit of a Bool flag. -/
def flagBit (b : Bool) : BitVec 1 := BitVec.ofBool b

/-- `FRAME_ID`, `TP_RSP_ID`, `TP_REQ_ID`, `FC_ID`: bits 28:0 (10_state.md R18, R32, R41). -/
def idWord (id : BitVec 29) : Word := (0#3) ++ id

/-- `FRAME_CTL`, `FC_CTL`: DLC in bits 7:0, bus in bits 15:8 (10_state.md R19, R41). -/
def ctlWord (dlc bus : Byte) : Word := (0#16) ++ bus ++ dlc

/-- `XDESC` (10_state.md R22). -/
def xdescWord (d : FieldRegs) : Word :=
  (0#13) ++ flagBit d.maskEn ++ flagBit d.signed ++ flagBit d.little ++ d.width ++ d.start

/-- `CDESC` (10_state.md R28). -/
def cdescWord (c : ChecksumRegs) : Word := (0#8) ++ c.chk ++ c.hi ++ c.lo

/-- `TP_LEN` (10_state.md R37). -/
def lenWord (x : Session) : Word := (0#3) ++ x.rxLen ++ (0#4) ++ x.expLen

end Sys2Proof.Machine
end

