-- ==== Sys2Proof/Machine/Flags.lean ====
section
/-! DEFINITION. The status flags (10_state.md R44) and the registers that show them: `CMD_STATUS`, `CRES`,
`TP_STATUS`. No flag steers a later command, but that the FC generator reads `FC_PENDING`. -/

namespace Sys2Proof.Machine

/-- The number of a status code (60_exceptions.md R123). -/
def StatusCode.code : StatusCode → BitVec 4
  | .ok => 0
  | .outOfRange => 1
  | .badFrame => 2
  | .badConfig => 3
  | .illegalCmd => 4

/-- The number of a phase (10_state.md R35). -/
def Phase.code : Phase → BitVec 2
  | .idle => 0
  | .awaitCf => 1
  | .complete => 2
  | .failed => 3

/-- The number of a session error (10_state.md R35). -/
def SessionError.code : SessionError → BitVec 2
  | .none => 0
  | .seqMismatch => 1
  | .timeout => 2
  | .lengthMismatch => 3

/-- `TP_STATUS.RX_SHORT`: `PHASE = FAILED` and `RX_LEN < EXP_LEN` (42_isotp.md R112). -/
def rxShort (x : Session) : Bool :=
  x.phase == .failed && decide (x.rxLen.toNat < x.expLen.toNat)

/-- `CMD_STATUS` (10_state.md R43). -/
def statusWord (c : CmdStatus) : Word := (0#27) ++ flagBit c.consumed ++ c.code.code

/-- `CRES` (10_state.md R31). -/
def cresWord (r : ChecksumResult) : Word := (0#15) ++ flagBit r.ok ++ r.actual ++ r.expected

/-- `TP_STATUS` (10_state.md R36). -/
def tpStatusWord (x : Session) (fc : FcOut) : Word :=
  (0#17) ++ flagBit (rxShort x) ++ flagBit fc.overflow ++ flagBit fc.pending ++ x.seq ++
    (0#2) ++ x.err.code ++ (0#2) ++ x.phase.code

end Sys2Proof.Machine
end

