-- ==== Sys2Proof/Machine/Ops.lean ====
section
/-! DEFINITION. The operations the meanings share: `BUF` as a memory, the two ways a command ends
(00_scope.md R11), block reset (70_reset_and_hazards.md R137), and the bus port (20_memory.md R49, R50). -/

namespace Sys2Proof.Machine

/-- What a `BUF` byte that nothing has written reads as (70_reset_and_hazards.md R139: "a model may fix it to
zeros"; log entry 6). -/
def unlistedByte : Byte := 0

/-- `BUF[a]`. -/
def Memory.read : Memory → Nat → Byte
  | [], _ => unlistedByte
  | (k, v) :: m, a => if a = k then v else Memory.read m a

/-- `BUF[a] <- b`, keeping the canonical form. -/
def Memory.write : Memory → Nat → Byte → Memory
  | [], a, b => if b = unlistedByte then [] else [(a, b)]
  | (k, v) :: m, a, b =>
    if a < k then (if b = unlistedByte then (k, v) :: m else (a, b) :: (k, v) :: m)
    else if a = k then (if b = unlistedByte then m else (a, b) :: m)
    else (k, v) :: Memory.write m a b

/-- `BUF[a], BUF[a+1], … <- bytes`, or `none` if one of them does not exist (42_isotp.md R100). -/
def Memory.writeAll : Memory → Nat → List Byte → Option Memory
  | m, _, [] => some m
  | m, a, b :: bs =>
    if a < Config.bufCapacity then Memory.writeAll (Memory.write m a b) (a + 1) bs else none

/-- Addresses strictly rising from `lo` on, all in `BUF`, no cell equal to what an unlisted byte reads as. -/
def Memory.wfFrom (lo : Nat) : Memory → Bool
  | [] => true
  | (k, v) :: m =>
    decide (lo ≤ k) && decide (k < Config.bufCapacity) && (v != unlistedByte) && Memory.wfFrom (k + 1) m

/-- The canonical form of `BUF`. -/
def Memory.wf (m : Memory) : Bool := Memory.wfFrom 0 m

/-- `raise <CODE>` (00_scope.md R11): the command ends with `CODE` and `CONSUMED = 0` and changes nothing else
(60_exceptions.md R124). The one way CFD reports an error: it takes no trap (R131). -/
def raiseCode (code : StatusCode) (s : State) : State :=
  s.withStatus { code := code, consumed := false }

/-- `done(c)` (00_scope.md R11). -/
def doneWith (consumed : Bool) (s : State) : State :=
  s.withStatus { code := .ok, consumed := consumed }

/-- `BUF` after the block reset that makes draw `n`: any 4101 bytes (70_reset_and_hazards.md R137, R139). -/
@[irreducible] def drawnBuf (n : Nat) : Memory :=
  (List.range Config.bufCapacity).filterMap fun i =>
    if Config.bufDraw n i = unlistedByte then none else some (i, Config.bufDraw n i)

/-- Block reset (70_reset_and_hazards.md R137, R138): every register and internal element at its reset value,
`BUF` unspecified. What the host has queued or received is not CFD's and stays. Reset stays asserted until
the platform releases it (log entries 7, 10). -/
def blockReset (s : State) : State :=
  { State.reset with
    buf := drawnBuf s.draws
    inReset := true
    bus := s.bus
    lastRead := s.lastRead
    draws := s.draws + 1 }

/-- The bus port: the instruction of a host access, or why CFD does not accept it (20_memory.md R49;
70_reset_and_hazards.md R137: no access is accepted while reset is asserted). -/
def acceptAccess (s : State) (a : HostAccess) : Except Refusal Instr :=
  if s.inReset then .error .accessDuringReset
  else match decode a with
    | .ok i => .ok i
    | .error .width => .error .accessWidth
    | .error .misaligned => .error .accessMisaligned

/-- The byte offset in the window of a platform address, or none if the address is not CFD's
(20_memory.md R50; log entry 4). -/
def windowOffset (addr : Nat) : Option (BitVec 8) :=
  if Config.blockBase ≤ addr ∧ addr < Config.blockBase + Config.windowBytes then
    some (BitVec.ofNat 8 (addr - Config.blockBase))
  else none

/-- The platform presents a host read or write of `bits` bits at a platform address: it joins the events CFD will
perform, or passes CFD by (20_memory.md R50). `data` is the data of a write. -/
def State.presentAt (s : State) (addr bits : Nat) (data : Option Word) : State :=
  match windowOffset addr, data with
  | none, _ => s
  | some off, none => s.withBus (s.bus ++ [.access (.read bits off)])
  | some off, some v => s.withBus (s.bus ++ [.access (.write bits off v)])

end Sys2Proof.Machine
end

