-- ==== Sys2Proof/Machine/Checksum.lean ====
section
/-! DEFINITION. CU, the checksum accumulator: the stages of 41_checksum.md R89-R92 and the command `CSUM` (R93). -/

namespace Sys2Proof.Machine

/-- Spec checks of 41_checksum.md R89, in their order: the code to raise, if any. -/
def checksumCheck (f : FrameRegs) (c : ChecksumRegs) : Option StatusCode :=
  if Config.maxDlc < f.dlc.toNat then some .badFrame
  else if c.modulus = 0 ∨ c.hi.toNat < c.lo.toNat ∨ (c.lo.toNat ≤ c.chk.toNat ∧ c.chk.toNat < c.hi.toNat) then
    some .badConfig
  else if f.dlc.toNat < c.hi.toNat ∨ f.dlc.toNat ≤ c.chk.toNat then some .outOfRange
  else none

/-- Accumulator `S`, an exact integer (41_checksum.md R90). -/
def checksumSum (f : FrameRegs) (c : ChecksumRegs) : Int :=
  c.bias.toInt + f.id.toNat + f.dlc.toNat +
    (((payloadBytes f c.lo.toNat (c.hi.toNat - c.lo.toNat)).map BitVec.toNat).sum : Nat)

/-- Modulo reducer (41_checksum.md R91). `%` on Int by a positive modulus is the floor remainder. -/
def checksumExpected (f : FrameRegs) (c : ChecksumRegs) : Byte :=
  BitVec.ofInt 8 (checksumSum f c % (c.modulus.toNat : Int))

/-- `CSUM` (41_checksum.md R93); the comparator is R92. -/
def execCsum (s : State) : Host.Outcome State Fault Refusal :=
  match checksumCheck s.frame s.csum with
  | some code => .next (raiseCode code s)
  | none =>
    let e := checksumExpected s.frame s.csum
    let a := payload s.frame s.csum.chk.toNat
    .next (doneWith false (s.withCsumRes { expected := e, actual := a, ok := e == a }))

end Sys2Proof.Machine
end

