-- ==== Sys2Proof/Machine/Control.lean ====
section
/-! DEFINITION. `NOP` (43_control.md R116) and the illegal command space (30_encoding.md R66, 60_exceptions.md R127). -/

namespace Sys2Proof.Machine

/-- `NOP` (43_control.md R116). -/
def execNop (s : State) : Host.Outcome State Fault Refusal := .next (doneWith false s)

/-- An illegal command word (60_exceptions.md R127): the word itself is not kept (R123). -/
def execIllegal (_word : Word) (s : State) : Host.Outcome State Fault Refusal :=
  .next (raiseCode .illegalCmd s)

end Sys2Proof.Machine
end

