-- ==== Sys2Proof/Machine/Extractor.lean ====
section
/-! DEFINITION. XU, the bit-field extractor: the stages of 40_extractor.md R76-R83 and the command `XTR` (R84). -/

namespace Sys2Proof.Machine

/-- Range check of 40_extractor.md R76: the code to raise, if any. `START + WIDTH` does not wrap. -/
def fieldCheck (f : FrameRegs) (d : FieldRegs) : Option StatusCode :=
  if Config.maxDlc < f.dlc.toNat then some .badFrame
  else if d.width.toNat = 0 ∨ 8 * f.dlc.toNat < d.start.toNat + d.width.toNat then some .outOfRange
  else none

/-- Byte-order reverser: `src[k]` for `k < DLC` (40_extractor.md R77). -/
def srcByte (f : FrameRegs) (little : Bool) (k : Nat) : Byte :=
  if little then payload f (f.dlc.toNat - 1 - k) else payload f k

/-- `P`, the payload as one number, `src[0]` most significant (40_extractor.md R78). -/
def payloadNumber (f : FrameRegs) (little : Bool) : Nat :=
  ((List.range f.dlc.toNat).map fun k =>
    (srcByte f little k).toNat * 2 ^ (8 * (f.dlc.toNat - 1 - k))).sum

/-- Barrel shifter (40_extractor.md R78). -/
def fieldBits (f : FrameRegs) (d : FieldRegs) : Nat :=
  payloadNumber f d.little / 2 ^ (8 * f.dlc.toNat - d.start.toNat - d.width.toNat) % 2 ^ d.width.toNat

/-- AND mask, aligned to the field's least significant bit (40_extractor.md R79). -/
def maskedBits (f : FrameRegs) (d : FieldRegs) : Nat :=
  if d.maskEn then fieldBits f d &&& (d.mask.toNat % 2 ^ d.width.toNat) else fieldBits f d

/-- Sign extender (40_extractor.md R80): the top bit is bit `w-1` of the masked field. -/
def fieldValue (f : FrameRegs) (d : FieldRegs) : Int :=
  let u := maskedBits f d
  if d.signed && u.testBit (d.width.toNat - 1) then (u : Int) - 2 ^ d.width.toNat else (u : Int)

/-- `RAWW` (40_extractor.md R80). -/
def rawWord (f : FrameRegs) (d : FieldRegs) : DWord := BitVec.ofInt 64 (fieldValue f d)

/-- The multiplier-adder (40_extractor.md R81, R82): the raw word read as a signed 64-bit integer, converted,
multiplied, then added to. -/
def physValue (raw : DWord) (d : FieldRegs) : F64 :=
  f64Add (f64Mul (f64OfInt raw.toInt) (f64Unpack d.scale)) (f64Unpack d.offset)

/-- Writes `XRAW` and `XPHYS`. A NaN takes a fresh draw of `NAN_RESULT` (40_extractor.md R83; log entry 5). -/
def writeFieldResult (raw : DWord) (v : F64) (s : State) : State :=
  (s.withFieldRes { raw := raw, phys := f64Pack (nanPattern (Config.nanDraw s.draws)) v }).withDraws
    (if v = .nan then s.draws + 1 else s.draws)

/-- `XTR` (40_extractor.md R84). -/
def execXtr (s : State) : Host.Outcome State Fault Refusal :=
  match fieldCheck s.frame s.field with
  | some code => .next (raiseCode code s)
  | none =>
    let raw := rawWord s.frame s.field
    .next (doneWith false (writeFieldResult raw (physValue raw s.field) s))

end Sys2Proof.Machine
end

