-- ==== Sys2Proof/Machine/Isotp.lean ====
section
/-! DEFINITION. TU, the ISO-TP reassembler (42_isotp.md R98-R112): the frame steps, the flow-control generator,
and the commands `TPFRM`, `TPRST`, `TPTICK`, `FCACK`. -/

namespace Sys2Proof.Machine

/-- A session frame (42_isotp.md R105). -/
def isSessionFrame (f : FrameRegs) (c : TpConfig) : Bool :=
  f.id == c.rspId && decide (1 ≤ f.dlc.toNat)

/-- `GenerateFC(bus)` (42_isotp.md R107; bytes of 30_encoding.md R71). -/
def generateFc (c : TpConfig) (bus : Byte) (fc : FcOut) : FcOut :=
  { id := c.reqId
    dlc := 8
    bus := bus
    d0 := lanes 0x30 0x00 0x00 c.fcPad
    d1 := lanes c.fcPad c.fcPad c.fcPad c.fcPad
    pending := true
    overflow := fc.overflow || fc.pending }

/-- The session an accepted First Frame starts (42_isotp.md R101). -/
def firstFrameSession (f : FrameRegs) : Session :=
  { phase := .awaitCf
    err := .none
    seq := 1
    expLen := frameLength f
    rxLen := BitVec.ofNat 13 (f.dlc.toNat - 2)
    tmr := 0 }

/-- Accepts a First Frame (42_isotp.md R101). -/
def acceptFirstFrame (s : State) : Host.Outcome State Fault Refusal :=
  match s.buf.writeAll 0 (payloadBytes s.frame 2 (s.frame.dlc.toNat - 2)) with
  | none => .fault .bufferOverrun
  | some m =>
    .next (doneWith true
      (((s.withBuf m).withSession (firstFrameSession s.frame)).withFc
        (generateFc s.tpCfg s.frame.bus s.fc)))

/-- The session after a Consecutive Frame with the expected sequence number that carries `n` data bytes: complete
and truncated once `RX_LEN` reaches `EXP_LEN` (42_isotp.md R103). -/
def consecutiveSession (x : Session) (n : Nat) : Session :=
  if x.expLen.toNat ≤ x.rxLen.toNat + n then
    { x with phase := .complete, seq := x.seq + 1, rxLen := x.expLen.setWidth 13, tmr := 0 }
  else
    { x with seq := x.seq + 1, rxLen := BitVec.ofNat 13 (x.rxLen.toNat + n), tmr := 0 }

/-- Accepts a Consecutive Frame with the expected sequence number (42_isotp.md R103). -/
def acceptConsecutive (s : State) : Host.Outcome State Fault Refusal :=
  match s.buf.writeAll s.session.rxLen.toNat (payloadBytes s.frame 1 (s.frame.dlc.toNat - 1)) with
  | none => .fault .bufferOverrun
  | some m =>
    .next (doneWith true
      ((s.withBuf m).withSession (consecutiveSession s.session (s.frame.dlc.toNat - 1))))

/-- Fails the session (42_isotp.md R104, R110): nothing else of it changes. -/
def failSession (e : SessionError) (x : Session) : Session :=
  { x with phase := .failed, err := e }

/-- `TPFRM` (42_isotp.md R106). -/
def execTpfrm (s : State) : Host.Outcome State Fault Refusal :=
  if Config.maxDlc < s.frame.dlc.toNat then .next (raiseCode .badFrame s)
  else if isSessionFrame s.frame s.tpCfg = false then .next (doneWith false s)
  else match s.session.phase with
    | .idle =>
      if framePci s.frame = 1 ∧ 2 ≤ s.frame.dlc.toNat then acceptFirstFrame s
      else .next (doneWith false s)
    | .awaitCf =>
      if framePci s.frame = 2 then
        if frameSn s.frame = s.session.seq then acceptConsecutive s
        else .next (doneWith true (s.withSession (failSession .seqMismatch s.session)))
      else .next (doneWith false s)
    | .complete => .next (doneWith false s)
    | .failed => .next (doneWith false s)

/-- `TPRST` (42_isotp.md R109): the session only. -/
def execTprst (s : State) : Host.Outcome State Fault Refusal :=
  .next (doneWith false (s.withSession Session.idleSession))

/-- `TMR + 1`, saturating at 0xFFFFFFFF (42_isotp.md R110). -/
def tickTimer (t : Word) : Word := if t = 0xFFFFFFFF then t else t + 1

/-- The session after one tick (42_isotp.md R110). -/
def tickSession (timeout : Word) (x : Session) : Session :=
  match x.phase with
  | .awaitCf =>
    let y := { x with tmr := tickTimer x.tmr }
    if timeout ≠ 0 ∧ timeout.toNat ≤ y.tmr.toNat then failSession .timeout y else y
  | .idle => x
  | .complete => x
  | .failed => x

/-- `TPTICK` (42_isotp.md R110). -/
def execTptick (s : State) : Host.Outcome State Fault Refusal :=
  .next (doneWith false (s.withSession (tickSession s.tpCfg.timeout s.session)))

/-- `FCACK` (42_isotp.md R108): the two flags only; the frame is kept. -/
def execFcack (s : State) : Host.Outcome State Fault Refusal :=
  .next (doneWith false (s.withFc { s.fc with pending := false, overflow := false }))

end Sys2Proof.Machine
end

