-- ==== Sys2Proof/Machine/RegisterMap.lean ====
section
/-! DEFINITION. The register window (10_state.md R17): which register a word slot names, how the host may access
it, what a read returns and what a write stores (20_memory.md R51-R53). -/

namespace Sys2Proof.Machine

/-- The access codes of 10_state.md R17. -/
inductive AccessCode where
  | rw | ro | wo
  deriving DecidableEq, Repr

/-- The byte offset of a register (10_state.md R17). -/
def regOffset : Reg → BitVec 8
  | .frameId => 0x00
  | .frameCtl => 0x04
  | .frameD0 => 0x08
  | .frameD1 => 0x0C
  | .xdesc => 0x10
  | .xmaskLo => 0x14
  | .xmaskHi => 0x18
  | .xscaleLo => 0x1C
  | .xscaleHi => 0x20
  | .xoffLo => 0x24
  | .xoffHi => 0x28
  | .xrawLo => 0x2C
  | .xrawHi => 0x30
  | .xphysLo => 0x34
  | .xphysHi => 0x38
  | .cdesc => 0x40
  | .cbias => 0x44
  | .cmod => 0x48
  | .cres => 0x4C
  | .tpRspId => 0x60
  | .tpReqId => 0x64
  | .tpTimeout => 0x68
  | .tpFcpad => 0x6C
  | .tpStatus => 0x70
  | .tpLen => 0x74
  | .tpTmr => 0x78
  | .tpBufptr => 0x7C
  | .tpBufdata => 0x80
  | .fcId => 0x90
  | .fcCtl => 0x94
  | .fcD0 => 0x98
  | .fcD1 => 0x9C
  | .cmd => 0xF0
  | .cmdStatus => 0xF4

/-- The word slot of a register. -/
def regSlot (r : Reg) : BitVec 6 := (regOffset r).extractLsb' 2 6

/-- Every register, in the order of 10_state.md R17. -/
def allRegs : List Reg :=
  [.frameId, .frameCtl, .frameD0, .frameD1, .xdesc, .xmaskLo, .xmaskHi, .xscaleLo, .xscaleHi, .xoffLo, .xoffHi,
   .xrawLo, .xrawHi, .xphysLo, .xphysHi, .cdesc, .cbias, .cmod, .cres] ++
  [.tpRspId, .tpReqId, .tpTimeout, .tpFcpad, .tpStatus, .tpLen, .tpTmr, .tpBufptr, .tpBufdata,
   .fcId, .fcCtl, .fcD0, .fcD1, .cmd, .cmdStatus]

/-- The register a word slot names; none at a reserved offset (10_state.md R17). -/
def regAt (slot : BitVec 6) : Option Reg := allRegs.find? fun r => regSlot r == slot

/-- How the host may access a register (10_state.md R17). -/
def regAccess : Reg → AccessCode
  | .frameId | .frameCtl | .frameD0 | .frameD1 => .rw
  | .xdesc | .xmaskLo | .xmaskHi | .xscaleLo | .xscaleHi | .xoffLo | .xoffHi => .rw
  | .xrawLo | .xrawHi | .xphysLo | .xphysHi => .ro
  | .cdesc | .cbias | .cmod => .rw
  | .cres => .ro
  | .tpRspId | .tpReqId | .tpTimeout | .tpFcpad => .rw
  | .tpStatus | .tpLen | .tpTmr => .ro
  | .tpBufptr => .rw
  | .tpBufdata => .ro
  | .fcId | .fcCtl | .fcD0 | .fcD1 => .ro
  | .cmd => .wo
  | .cmdStatus => .ro

/-- Byte lane `j` of `TP_BUFDATA`: `BUF[p+j]` below `RX_LEN`, else 0x00 (10_state.md R40). -/
def bufLane (s : State) (j : Nat) : Byte :=
  if s.bufPtr.toNat + j < s.session.rxLen.toNat then s.buf.read (s.bufPtr.toNat + j) else 0

/-- Lane `j` of `TP_BUFDATA` asks for no byte beyond `BUF[4100]`. -/
def bufLaneExists (s : State) (j : Nat) : Bool :=
  decide (s.bufPtr.toNat + j < s.session.rxLen.toNat → s.bufPtr.toNat + j < Config.bufCapacity)

/-- `TP_BUFDATA` (10_state.md R40); none where a lane below `RX_LEN` is no byte of `BUF` (log entry 8). -/
def readBufData (s : State) : Option Word :=
  if bufLaneExists s 0 && bufLaneExists s 1 && bufLaneExists s 2 && bufLaneExists s 3 then
    some (lanes (bufLane s 0) (bufLane s 1) (bufLane s 2) (bufLane s 3))
  else none

/-- What a host read of a register returns, reserved fields as 0 (20_memory.md R51). -/
def readReg (r : Reg) (s : State) : Option Word :=
  match r with
  | .frameId => some (idWord s.frame.id)
  | .frameCtl => some (ctlWord s.frame.dlc s.frame.bus)
  | .frameD0 => some s.frame.d0
  | .frameD1 => some s.frame.d1
  | .xdesc => some (xdescWord s.field)
  | .xmaskLo => some (loHalf s.field.mask)
  | .xmaskHi => some (hiHalf s.field.mask)
  | .xscaleLo => some (loHalf s.field.scale)
  | .xscaleHi => some (hiHalf s.field.scale)
  | .xoffLo => some (loHalf s.field.offset)
  | .xoffHi => some (hiHalf s.field.offset)
  | .xrawLo => some (loHalf s.fieldRes.raw)
  | .xrawHi => some (hiHalf s.fieldRes.raw)
  | .xphysLo => some (loHalf s.fieldRes.phys)
  | .xphysHi => some (hiHalf s.fieldRes.phys)
  | .cdesc => some (cdescWord s.csum)
  | .cbias => some s.csum.bias
  | .cmod => some s.csum.modulus
  | .cres => some (cresWord s.csumRes)
  | .tpRspId => some (idWord s.tpCfg.rspId)
  | .tpReqId => some (idWord s.tpCfg.reqId)
  | .tpTimeout => some s.tpCfg.timeout
  | .tpFcpad => some ((0#24) ++ s.tpCfg.fcPad)
  | .tpStatus => some (tpStatusWord s.session s.fc)
  | .tpLen => some (lenWord s.session)
  | .tpTmr => some s.session.tmr
  | .tpBufptr => some ((0#19) ++ s.bufPtr)
  | .tpBufdata => readBufData s
  | .fcId => some (idWord s.fc.id)
  | .fcCtl => some (ctlWord s.fc.dlc s.fc.bus)
  | .fcD0 => some s.fc.d0
  | .fcD1 => some s.fc.d1
  | .cmd => some 0
  | .cmdStatus => some (statusWord s.status)

/-- What a host write of `v` stores (20_memory.md R52): each defined field of an RW register takes its bits of
`v`; an RO register and `CMD` store nothing. -/
def writeReg (r : Reg) (v : Word) (s : State) : State :=
  match r with
  | .frameId => s.withFrame { s.frame with id := v.extractLsb' 0 29 }
  | .frameCtl => s.withFrame { s.frame with dlc := v.extractLsb' 0 8, bus := v.extractLsb' 8 8 }
  | .frameD0 => s.withFrame { s.frame with d0 := v }
  | .frameD1 => s.withFrame { s.frame with d1 := v }
  | .xdesc =>
    s.withField
      { s.field with
        start := v.extractLsb' 0 8, width := v.extractLsb' 8 8
        little := v.getLsbD 16, signed := v.getLsbD 17, maskEn := v.getLsbD 18 }
  | .xmaskLo => s.withField { s.field with mask := hiHalf s.field.mask ++ v }
  | .xmaskHi => s.withField { s.field with mask := v ++ loHalf s.field.mask }
  | .xscaleLo => s.withField { s.field with scale := hiHalf s.field.scale ++ v }
  | .xscaleHi => s.withField { s.field with scale := v ++ loHalf s.field.scale }
  | .xoffLo => s.withField { s.field with offset := hiHalf s.field.offset ++ v }
  | .xoffHi => s.withField { s.field with offset := v ++ loHalf s.field.offset }
  | .cdesc =>
    s.withCsum
      { s.csum with lo := v.extractLsb' 0 8, hi := v.extractLsb' 8 8, chk := v.extractLsb' 16 8 }
  | .cbias => s.withCsum { s.csum with bias := v }
  | .cmod => s.withCsum { s.csum with modulus := v }
  | .tpRspId => s.withTpCfg { s.tpCfg with rspId := v.extractLsb' 0 29 }
  | .tpReqId => s.withTpCfg { s.tpCfg with reqId := v.extractLsb' 0 29 }
  | .tpTimeout => s.withTpCfg { s.tpCfg with timeout := v }
  | .tpFcpad => s.withTpCfg { s.tpCfg with fcPad := v.extractLsb' 0 8 }
  | .tpBufptr => s.withBufPtr (v.extractLsb' 0 13)
  | .xrawLo | .xrawHi | .xphysLo | .xphysHi | .cres => s
  | .tpStatus | .tpLen | .tpTmr | .tpBufdata => s
  | .fcId | .fcCtl | .fcD0 | .fcD1 => s
  | .cmd | .cmdStatus => s

end Sys2Proof.Machine
end

