-- ==== Sys2Proof/Machine/HostBus.lean ====
section
/-! DEFINITION. The host's register accesses `RD` (`MemRead`, 20_memory.md R51) and `WR` (`MemWrite`, R52). -/

namespace Sys2Proof.Machine

/-- Performs a command (30_encoding.md R63). -/
def performCommand (c : Command) (s : State) : Host.Outcome State Fault Refusal :=
  match c with
  | .nop => execNop s
  | .xtr => execXtr s
  | .csum => execCsum s
  | .tpfrm => execTpfrm s
  | .tprst => execTprst s
  | .tptick => execTptick s
  | .fcack => execFcack s
  | .illegal w => execIllegal w s

/-- `RD`: a read changes no state of CFD; the host receives the value (20_memory.md R51, log entry 3). A reserved
offset reads 0 (R53). -/
def execRd (slot : BitVec 6) (s : State) : Host.Outcome State Fault Refusal :=
  match regAt slot with
  | none => .next (s.withLastRead (some 0))
  | some r =>
    match readReg r s with
    | some v => .next (s.withLastRead (some v))
    | none => .fault .bufferOverrun

/-- `WR`: a write to `CMD` performs the command word, a write to an RW register stores its defined fields, any
other write has no effect (20_memory.md R52, R53). -/
def execWr (slot : BitVec 6) (v : Word) (s : State) : Host.Outcome State Fault Refusal :=
  if slot = Config.cmdSlot then performCommand (decodeCommand v) s
  else match regAt slot with
    | none => .next s
    | some r => .next (writeReg r v s)

end Sys2Proof.Machine
end

