-- ==== Sys2Proof/Machine/Dispatch.lean ====
section
/-! DEFINITION. One arm per constructor of Instr. -/

namespace Sys2Proof.Machine

def exec (i : Instr) (s : State) : Host.Outcome State Fault Refusal :=
  match i with
  | .nop => Sys2Proof.Machine.execNop s
  | .xtr => Sys2Proof.Machine.execXtr s
  | .csum => Sys2Proof.Machine.execCsum s
  | .tpfrm => Sys2Proof.Machine.execTpfrm s
  | .tprst => Sys2Proof.Machine.execTprst s
  | .tptick => Sys2Proof.Machine.execTptick s
  | .fcack => Sys2Proof.Machine.execFcack s
  | .rd slot => Sys2Proof.Machine.execRd slot s
  | .wr slot data => Sys2Proof.Machine.execWr slot data s
  | .illegal word => Sys2Proof.Machine.execIllegal word s

end Sys2Proof.Machine
end

