-- ==== Sys2Proof/Machine/Step.lean ====
section
/-! DEFINITION. One step of CFD: it performs the oldest host event (00_scope.md R12, R14; 20_memory.md R56). -/

namespace Sys2Proof.Machine

/-- With no host event CFD does nothing (00_scope.md R14: no agent of its own). A reset edge is the platform's
(70_reset_and_hazards.md R137); an access the port accepts runs its instruction. Log entries 2, 9, 10. -/
def step (s : State) : Host.Outcome State Fault Refusal :=
  match s.bus with
  | [] => .next s
  | .assertReset :: rest => .next (blockReset (s.withBus rest))
  | .releaseReset :: rest => .next ((s.withBus rest).withInReset false)
  | .access a :: rest =>
    match acceptAccess s a with
    | .error r => .refused r
    | .ok i => exec i (s.withBus rest)

/-- `s` with the host's next access a write of the word `w` to `CMD`, reset released: a command is exactly one
32-bit word (30_encoding.md R72), so `nbits` says nothing. Log entry 2. -/
def State.withFetchWord (s : State) (_nbits w : Nat) : State :=
  (s.withInReset false).withBus (.access (commandAccess (BitVec.ofNat 32 w)) :: s.bus)

end Sys2Proof.Machine
end

