-- ==== Sys2Proof/Machine/HostProgram.lean ====
section
/-! DEFINITION. The lines of a host program (30_encoding.md R74) and the exact expansions of the
pseudo-instructions (R75) into host accesses. The text form of a line is not modelled, its meaning is. -/

namespace Sys2Proof.Machine

/-- One line of a host program (30_encoding.md R74, R75). A payload byte that `frame` does not list is written
as 0 (R75). Log entry 18. -/
inductive HostLine where
  | wr (r : Reg) (v : Word)
  | rd (r : Reg)
  /-- `RD <reg> = <value>`: a test check, no bus access of its own -/
  | rdExpect (r : Reg) (v : Word)
  | nop | xtr | csum | tpfrm | tprst | tptick | fcack
  | frame (id : Word) (bus dlc : Byte) (bytes : List Byte)
  | desc (start width : Byte) (endian signed : Bool)
  | descm (start width : Byte) (endian signed : Bool) (mask : DWord)
  | scale (scale offset : DWord)
  | spec (lo hi chk : Byte) (bias : Int) (modulus : Word)
  | tpcfg (rsp req timeout pad : Word)
  | rdbuf (p : Word)
  deriving DecidableEq, Repr

/-- `WR <reg>, <value>` (30_encoding.md R74). -/
def lineWrite (r : Reg) (v : Word) : HostAccess := .write 32 (regOffset r) v

/-- `RD <reg>` (30_encoding.md R74). -/
def lineRead (r : Reg) : HostAccess := .read 32 (regOffset r)

/-- `start | width<<8 | endian<<16 | signed<<17 | mask_en<<18` (30_encoding.md R75). -/
def descWord (start width : Byte) (endian signed maskEn : Bool) : Word :=
  (0#13) ++ flagBit maskEn ++ flagBit signed ++ flagBit endian ++ width ++ start

/-- The accesses a line expands to, in order (30_encoding.md R74, R75). -/
def HostLine.expand : HostLine → List HostAccess
  | .wr r v => [lineWrite r v]
  | .rd r => [lineRead r]
  | .rdExpect r _ => [lineRead r]
  | .nop => [lineWrite .cmd 0x00000000]
  | .xtr => [lineWrite .cmd 0x00000001]
  | .csum => [lineWrite .cmd 0x00000002]
  | .tpfrm => [lineWrite .cmd 0x00000003]
  | .tprst => [lineWrite .cmd 0x00000004]
  | .tptick => [lineWrite .cmd 0x00000005]
  | .fcack => [lineWrite .cmd 0x00000006]
  | .frame arbId bus dlc b =>
    [lineWrite .frameId arbId,
     lineWrite .frameCtl (ctlWord dlc bus),
     lineWrite .frameD0 (lanes (b.getD 0 0) (b.getD 1 0) (b.getD 2 0) (b.getD 3 0)),
     lineWrite .frameD1 (lanes (b.getD 4 0) (b.getD 5 0) (b.getD 6 0) (b.getD 7 0))]
  | .desc start width endian signed => [lineWrite .xdesc (descWord start width endian signed false)]
  | .descm start width endian signed mask =>
    [lineWrite .xmaskLo (loHalf mask), lineWrite .xmaskHi (hiHalf mask),
     lineWrite .xdesc (descWord start width endian signed true)]
  | .scale sc off =>
    [lineWrite .xscaleLo (loHalf sc), lineWrite .xscaleHi (hiHalf sc),
     lineWrite .xoffLo (loHalf off), lineWrite .xoffHi (hiHalf off)]
  | .spec lo hi chk bias modulus =>
    [lineWrite .cdesc ((0#8) ++ chk ++ hi ++ lo), lineWrite .cbias (BitVec.ofInt 32 bias),
     lineWrite .cmod modulus]
  | .tpcfg rsp req timeout pad =>
    [lineWrite .tpRspId rsp, lineWrite .tpReqId req, lineWrite .tpTimeout timeout, lineWrite .tpFcpad pad]
  | .rdbuf p => [lineWrite .tpBufptr p, lineRead .tpBufdata]

/-- The host issues a line: its accesses join the events CFD will perform. -/
def State.issue (s : State) (l : HostLine) : State :=
  s.withBus (s.bus ++ l.expand.map HostEvent.access)

/-- Whether the check of a line holds after its accesses were performed (30_encoding.md R74). -/
def HostLine.holds (l : HostLine) (s : State) : Bool :=
  match l with
  | .rdExpect _ v => s.lastRead == some v
  | _ => true

end Sys2Proof.Machine
end

