-- ==== Sys2Proof/Safety.lean ====
section
/-! DEFINITION. What counts as a sound state and a safe run of CFD: the session invariants of 42_isotp.md R99 and
R100, the buffer's canonical form, and when two states look the same to the host. -/

namespace Sys2Proof.Machine

/-- The state an outcome goes on in, if it does. -/
def nextOf (o : Host.Outcome State Fault Refusal) : Option State :=
  match o with
  | .next s => some s
  | .fault _ => none
  | .refused _ => none

/-- One line of the table of 42_isotp.md R99. The TMR entry of COMPLETE is the value the completing Consecutive
Frame left, 0 (R103). "Before any CF" is `SEQ = 1`, kept by the failure (R104, R110). -/
def SessionInv (x : Session) : Prop :=
  match x.phase with
  | .idle => x = Session.idleSession
  | .awaitCf =>
    x.err = .none ∧ (x.rxLen.toNat < x.expLen.toNat ∨ (x.rxLen.toNat ≤ 6 ∧ x.seq = 1))
  | .complete => x.err = .none ∧ x.rxLen.toNat = x.expLen.toNat ∧ x.tmr = 0
  | .failed =>
    (x.err = .seqMismatch ∨ x.err = .timeout) ∧
      (x.rxLen.toNat < x.expLen.toNat ∨ (x.rxLen.toNat ≤ 6 ∧ x.seq = 1))

/-- What every state between two host events satisfies. -/
structure SoundState (s : State) : Prop where
  /-- 42_isotp.md R99 -/
  session : SessionInv s.session
  /-- canonical form, and no byte beyond `BUF[4100]` (42_isotp.md R100) -/
  buf : s.buf.wf = true
  /-- `FC_OVF` says that a pending frame was overwritten (10_state.md R35) -/
  fcOverflow : s.fc.overflow = true → s.fc.pending = true
  /-- a session that left IDLE has its flow-control frame in the FC registers (42_isotp.md R107, R113) -/
  fcFrame : s.session.phase ≠ .idle → s.fc.dlc = 8 ∧ s.fc.d0.extractLsb' 0 24 = 0x000030
  /-- `CONSUMED = 1` only with `CODE = OK` (00_scope.md R11) -/
  consumed : s.status.consumed = true → s.status.code = .ok
  /-- `CRES.OK = 1` only if `EXPECTED = ACTUAL` (10_state.md R31) -/
  checksumOk : s.csumRes.ok = true → s.csumRes.expected = s.csumRes.actual

/-- Two states that differ only in `BUF` bytes at or beyond `RX_LEN`, which are never visible
(10_state.md R40, 70_reset_and_hazards.md R139). -/
structure SameView (s t : State) : Prop where
  rest : t = { s with buf := t.buf }
  visible : ∀ a, a < s.session.rxLen.toNat → t.buf.read a = s.buf.read a
  left : s.buf.wf = true
  right : t.buf.wf = true

/-- Two outcomes the host cannot tell apart. -/
def SameOutcome (o p : Host.Outcome State Fault Refusal) : Prop :=
  match o, p with
  | .next s, .next t => SameView s t
  | .fault f, .fault g => f = g
  | .refused f, .refused g => f = g
  | _, _ => False

end Sys2Proof.Machine
end

