-- ==== Sys2Proof/Certificates/Slice0/Obligations.lean ====
section
/-! DEFINITION. The statements for the provers. `Sys2Proof.Spec` holds what they need of the spec in words of its
own: payload bits (00_scope.md R8), the columns of the register map (10_state.md R17), NaN and representable
values (30_encoding.md R68), and the delivery of frames to TU. -/

namespace Sys2Proof.Spec

open Sys2Proof Sys2Proof.Machine

/-- The status a command leaves that was performed and is no consumed `TPFRM`. -/
def okStatus : CmdStatus := { code := .ok, consumed := false }

/-- The status a refused command leaves (60_exceptions.md R124). -/
def refusedStatus (c : StatusCode) : CmdStatus := { code := c, consumed := false }

/-- Whether an instruction is a command written to `CMD`. -/
def isCommand : Instr → Bool
  | .rd _ => false
  | .wr _ _ => false
  | .nop => true
  | .xtr => true
  | .csum => true
  | .tpfrm => true
  | .tprst => true
  | .tptick => true
  | .fcack => true
  | .illegal _ => true

/-- The "reset" column of 10_state.md R17. -/
def resetColumn : Reg → Word
  | .xmaskLo => 0xFFFFFFFF
  | .xmaskHi => 0xFFFFFFFF
  | .xscaleHi => 0x3FF00000
  | .cmod => 0x00000100
  | _ => 0

/-- The "offset" and "access" columns of 10_state.md R17. -/
def mapRow : Reg → BitVec 8 × AccessCode
  | .frameId => (0x00, .rw)
  | .frameCtl => (0x04, .rw)
  | .frameD0 => (0x08, .rw)
  | .frameD1 => (0x0C, .rw)
  | .xdesc => (0x10, .rw)
  | .xmaskLo => (0x14, .rw)
  | .xmaskHi => (0x18, .rw)
  | .xscaleLo => (0x1C, .rw)
  | .xscaleHi => (0x20, .rw)
  | .xoffLo => (0x24, .rw)
  | .xoffHi => (0x28, .rw)
  | .xrawLo => (0x2C, .ro)
  | .xrawHi => (0x30, .ro)
  | .xphysLo => (0x34, .ro)
  | .xphysHi => (0x38, .ro)
  | .cdesc => (0x40, .rw)
  | .cbias => (0x44, .rw)
  | .cmod => (0x48, .rw)
  | .cres => (0x4C, .ro)
  | .tpRspId => (0x60, .rw)
  | .tpReqId => (0x64, .rw)
  | .tpTimeout => (0x68, .rw)
  | .tpFcpad => (0x6C, .rw)
  | .tpStatus => (0x70, .ro)
  | .tpLen => (0x74, .ro)
  | .tpTmr => (0x78, .ro)
  | .tpBufptr => (0x7C, .rw)
  | .tpBufdata => (0x80, .ro)
  | .fcId => (0x90, .ro)
  | .fcCtl => (0x94, .ro)
  | .fcD0 => (0x98, .ro)
  | .fcD1 => (0x9C, .ro)
  | .cmd => (0xF0, .wo)
  | .cmdStatus => (0xF4, .ro)

/-- `b0 | b1<<8 | b2<<16 | b3<<24` (30_encoding.md R75). -/
def fourBytes (b0 b1 b2 b3 : Byte) : Word :=
  b0.setWidth 32 ||| b1.setWidth 32 <<< 8 ||| b2.setWidth 32 <<< 16 ||| b3.setWidth 32 <<< 24

/-- `start | width<<8 | endian<<16 | signed<<17` (30_encoding.md R75). -/
def fieldWord (start width : Byte) (endian signed : Bool) : Word :=
  start.setWidth 32 ||| width.setWidth 32 <<< 8 ||| (if endian then 1 <<< 16 else 0) |||
    (if signed then 1 <<< 17 else 0)

/-- The "expansion" columns of 30_encoding.md R74 and R75, at the offsets of 10_state.md R17. -/
def expansion : HostLine → List HostAccess
  | .wr r v => [.write 32 (mapRow r).1 v]
  | .rd r => [.read 32 (mapRow r).1]
  | .rdExpect r _ => [.read 32 (mapRow r).1]
  | .nop => [.write 32 0xF0 0x00000000]
  | .xtr => [.write 32 0xF0 0x00000001]
  | .csum => [.write 32 0xF0 0x00000002]
  | .tpfrm => [.write 32 0xF0 0x00000003]
  | .tprst => [.write 32 0xF0 0x00000004]
  | .tptick => [.write 32 0xF0 0x00000005]
  | .fcack => [.write 32 0xF0 0x00000006]
  | .frame arbId busNo dlc b =>
    [.write 32 0x00 arbId, .write 32 0x04 (dlc.setWidth 32 ||| busNo.setWidth 32 <<< 8),
     .write 32 0x08 (fourBytes (b.getD 0 0) (b.getD 1 0) (b.getD 2 0) (b.getD 3 0)),
     .write 32 0x0C (fourBytes (b.getD 4 0) (b.getD 5 0) (b.getD 6 0) (b.getD 7 0))]
  | .desc start width endian signed => [.write 32 0x10 (fieldWord start width endian signed)]
  | .descm start width endian signed mask =>
    [.write 32 0x14 (mask.extractLsb' 0 32), .write 32 0x18 (mask.extractLsb' 32 32),
     .write 32 0x10 (fieldWord start width endian signed ||| 1 <<< 18)]
  | .scale sc off =>
    [.write 32 0x1C (sc.extractLsb' 0 32), .write 32 0x20 (sc.extractLsb' 32 32),
     .write 32 0x24 (off.extractLsb' 0 32), .write 32 0x28 (off.extractLsb' 32 32)]
  | .spec lo hi chk bias modulus =>
    [.write 32 0x40 (lo.setWidth 32 ||| hi.setWidth 32 <<< 8 ||| chk.setWidth 32 <<< 16),
     .write 32 0x44 (BitVec.ofInt 32 bias), .write 32 0x48 modulus]
  | .tpcfg rsp req timeout pad =>
    [.write 32 0x60 rsp, .write 32 0x64 req, .write 32 0x68 timeout, .write 32 0x6C pad]
  | .rdbuf p => [.write 32 0x7C p, .read 32 0x80]

/-- What the value `v` of each register says of the state, field by field, reserved bits 0 (10_state.md R18-R43;
20_memory.md R47). -/
def Shows (s : State) (v : Word) : Reg → Prop
  | .frameId => v.extractLsb' 0 29 = s.frame.id ∧ v.extractLsb' 29 3 = 0
  | .frameCtl =>
    v.extractLsb' 0 8 = s.frame.dlc ∧ v.extractLsb' 8 8 = s.frame.bus ∧ v.extractLsb' 16 16 = 0
  | .frameD0 => ∀ k, k < 4 → v.extractLsb' (8 * k) 8 = payload s.frame k
  | .frameD1 => ∀ k, k < 4 → v.extractLsb' (8 * k) 8 = payload s.frame (4 + k)
  | .xdesc =>
    v.extractLsb' 0 8 = s.field.start ∧ v.extractLsb' 8 8 = s.field.width ∧ v.getLsbD 16 = s.field.little ∧
      v.getLsbD 17 = s.field.signed ∧ v.getLsbD 18 = s.field.maskEn ∧ v.extractLsb' 19 13 = 0
  | .xmaskLo => v = s.field.mask.extractLsb' 0 32
  | .xmaskHi => v = s.field.mask.extractLsb' 32 32
  | .xscaleLo => v = s.field.scale.extractLsb' 0 32
  | .xscaleHi => v = s.field.scale.extractLsb' 32 32
  | .xoffLo => v = s.field.offset.extractLsb' 0 32
  | .xoffHi => v = s.field.offset.extractLsb' 32 32
  | .xrawLo => v = s.fieldRes.raw.extractLsb' 0 32
  | .xrawHi => v = s.fieldRes.raw.extractLsb' 32 32
  | .xphysLo => v = s.fieldRes.phys.extractLsb' 0 32
  | .xphysHi => v = s.fieldRes.phys.extractLsb' 32 32
  | .cdesc =>
    v.extractLsb' 0 8 = s.csum.lo ∧ v.extractLsb' 8 8 = s.csum.hi ∧ v.extractLsb' 16 8 = s.csum.chk ∧
      v.extractLsb' 24 8 = 0
  | .cbias => v = s.csum.bias
  | .cmod => v = s.csum.modulus
  | .cres =>
    v.extractLsb' 0 8 = s.csumRes.expected ∧ v.extractLsb' 8 8 = s.csumRes.actual ∧
      v.getLsbD 16 = s.csumRes.ok ∧ v.extractLsb' 17 15 = 0
  | .tpRspId => v.extractLsb' 0 29 = s.tpCfg.rspId ∧ v.extractLsb' 29 3 = 0
  | .tpReqId => v.extractLsb' 0 29 = s.tpCfg.reqId ∧ v.extractLsb' 29 3 = 0
  | .tpTimeout => v = s.tpCfg.timeout
  | .tpFcpad => v.extractLsb' 0 8 = s.tpCfg.fcPad ∧ v.extractLsb' 8 24 = 0
  | .tpStatus =>
    v.extractLsb' 0 2 = s.session.phase.code ∧ v.extractLsb' 2 2 = 0 ∧
      v.extractLsb' 4 2 = s.session.err.code ∧ v.extractLsb' 6 2 = 0 ∧
      v.extractLsb' 8 4 = s.session.seq ∧ v.getLsbD 12 = s.fc.pending ∧ v.getLsbD 13 = s.fc.overflow ∧
      (v.getLsbD 14 = true ↔
        s.session.phase = .failed ∧ s.session.rxLen.toNat < s.session.expLen.toNat) ∧
      v.extractLsb' 15 17 = 0
  | .tpLen =>
    v.extractLsb' 0 12 = s.session.expLen ∧ v.extractLsb' 12 4 = 0 ∧
      v.extractLsb' 16 13 = s.session.rxLen ∧ v.extractLsb' 29 3 = 0
  | .tpTmr => v = s.session.tmr
  | .tpBufptr => v.extractLsb' 0 13 = s.bufPtr ∧ v.extractLsb' 13 19 = 0
  | .tpBufdata => ∀ j, j < 4 → v.extractLsb' (8 * j) 8 =
      if s.bufPtr.toNat + j < s.session.rxLen.toNat then s.buf.read (s.bufPtr.toNat + j) else 0
  | .fcId => v.extractLsb' 0 29 = s.fc.id ∧ v.extractLsb' 29 3 = 0
  | .fcCtl => v.extractLsb' 0 8 = s.fc.dlc ∧ v.extractLsb' 8 8 = s.fc.bus ∧ v.extractLsb' 16 16 = 0
  | .fcD0 => v = s.fc.d0
  | .fcD1 => v = s.fc.d1
  | .cmd => v = 0
  | .cmdStatus =>
    v.extractLsb' 0 4 = s.status.code.code ∧ v.getLsbD 4 = s.status.consumed ∧ v.extractLsb' 5 27 = 0

/-- Each defined field of a written RW register holds its bits of the written value `v` (20_memory.md R52; fields of
10_state.md R18-R39). An RO or WO register has no such field. -/
def HoldsFieldsOf (v : Word) (t : State) : Reg → Prop
  | .frameId => t.frame.id = v.extractLsb' 0 29
  | .frameCtl => t.frame.dlc = v.extractLsb' 0 8 ∧ t.frame.bus = v.extractLsb' 8 8
  | .frameD0 => ∀ k, k < 4 → payload t.frame k = v.extractLsb' (8 * k) 8
  | .frameD1 => ∀ k, k < 4 → payload t.frame (4 + k) = v.extractLsb' (8 * k) 8
  | .xdesc =>
    t.field.start = v.extractLsb' 0 8 ∧ t.field.width = v.extractLsb' 8 8 ∧ t.field.little = v.getLsbD 16 ∧
      t.field.signed = v.getLsbD 17 ∧ t.field.maskEn = v.getLsbD 18
  | .xmaskLo => t.field.mask.extractLsb' 0 32 = v
  | .xmaskHi => t.field.mask.extractLsb' 32 32 = v
  | .xscaleLo => t.field.scale.extractLsb' 0 32 = v
  | .xscaleHi => t.field.scale.extractLsb' 32 32 = v
  | .xoffLo => t.field.offset.extractLsb' 0 32 = v
  | .xoffHi => t.field.offset.extractLsb' 32 32 = v
  | .cdesc =>
    t.csum.lo = v.extractLsb' 0 8 ∧ t.csum.hi = v.extractLsb' 8 8 ∧ t.csum.chk = v.extractLsb' 16 8
  | .cbias => t.csum.bias = v
  | .cmod => t.csum.modulus = v
  | .tpRspId => t.tpCfg.rspId = v.extractLsb' 0 29
  | .tpReqId => t.tpCfg.reqId = v.extractLsb' 0 29
  | .tpTimeout => t.tpCfg.timeout = v
  | .tpFcpad => t.tpCfg.fcPad = v.extractLsb' 0 8
  | .tpBufptr => t.bufPtr = v.extractLsb' 0 13
  | .xrawLo | .xrawHi | .xphysLo | .xphysHi | .cres => False
  | .tpStatus | .tpLen | .tpTmr | .tpBufdata => False
  | .fcId | .fcCtl | .fcD0 | .fcD1 => False
  | .cmd | .cmdStatus => False

/-- The bits of a register that hold a defined field (10_state.md R18-R39): all of an RW register's writable
bits. 0 for RO and WO registers. -/
def writableBits : Reg → Word
  | .frameId => 0x1FFFFFFF
  | .frameCtl => 0x0000FFFF
  | .frameD0 => 0xFFFFFFFF
  | .frameD1 => 0xFFFFFFFF
  | .xdesc => 0x0007FFFF
  | .xmaskLo => 0xFFFFFFFF
  | .xmaskHi => 0xFFFFFFFF
  | .xscaleLo => 0xFFFFFFFF
  | .xscaleHi => 0xFFFFFFFF
  | .xoffLo => 0xFFFFFFFF
  | .xoffHi => 0xFFFFFFFF
  | .cdesc => 0x00FFFFFF
  | .cbias => 0xFFFFFFFF
  | .cmod => 0xFFFFFFFF
  | .tpRspId => 0x1FFFFFFF
  | .tpReqId => 0x1FFFFFFF
  | .tpTimeout => 0xFFFFFFFF
  | .tpFcpad => 0x000000FF
  | .tpBufptr => 0x00001FFF
  | _ => 0

/-- The width and the byte offset of a host access. -/
def accessBits : HostAccess → Nat
  | .read bits _ => bits
  | .write bits _ _ => bits

/-- The byte offset of a host access. -/
def accessOffset : HostAccess → BitVec 8
  | .read _ off => off
  | .write _ off _ => off

/-- Bit `i` of `src` in payload numbering (00_scope.md R8, 40_extractor.md R77): bit `7 - (i mod 8)` of byte
`i div 8`, bytes reversed across the DLC for a little-endian field. -/
def srcBit (f : FrameRegs) (little : Bool) (i : Nat) : Bool :=
  (payload f (if little then f.dlc.toNat - 1 - i / 8 else i / 8)).getLsbD (7 - i % 8)

/-- Bit `j` of the extracted field after the mask (40_extractor.md R78, R79); bit 0 is the field's last. -/
def fieldBit (f : FrameRegs) (d : FieldRegs) (j : Nat) : Bool :=
  srcBit f d.little (d.start.toNat + d.width.toNat - 1 - j) && (!d.maskEn || d.mask.getLsbD j)

/-- `XTR` performs: no check of 40_extractor.md R76 fails. -/
def FieldLegal (f : FrameRegs) (d : FieldRegs) : Prop :=
  f.dlc.toNat ≤ 8 ∧ d.width.toNat ≠ 0 ∧ d.start.toNat + d.width.toNat ≤ 8 * f.dlc.toNat

/-- A binary64 NaN (30_encoding.md R68). -/
def IsNaN (w : DWord) : Prop := w.extractLsb' 52 11 = 0x7FF ∧ w.extractLsb' 0 52 ≠ 0

/-- A magnitude, in units of 2^-1074, that binary64 can hold with its exponent unbounded above: a significand below
2^53 times a power of two (30_encoding.md R68). -/
def Representable (m : Nat) : Prop := ∃ q e, q < 2 ^ 53 ∧ m = q * 2 ^ e

/-- A magnitude whose 53-bit significand, or subnormal fraction, is even. -/
def EvenSignificand (m : Nat) : Prop :=
  ∃ q e, q < 2 ^ 53 ∧ m = q * 2 ^ e ∧ q % 2 = 0 ∧ (2 ^ 52 ≤ q ∨ e = 0)

/-- The distance of `± n * 2^-(1074+sh)` from the magnitude `m * 2^-1074`, in units of 2^-(1074+sh). -/
def distance (n sh m : Nat) : Nat := ((n : Int) - (m * 2 ^ sh : Nat)).natAbs

/-- The number with this sign and magnitude. -/
def signed (neg : Bool) (m : Nat) : Int := if neg then -(m : Int) else (m : Int)

/-- `CSUM` performs: no check of 41_checksum.md R89 fails. -/
def SpecLegal (f : FrameRegs) (c : ChecksumRegs) : Prop :=
  f.dlc.toNat ≤ 8 ∧ c.modulus ≠ 0 ∧ c.lo.toNat ≤ c.hi.toNat ∧
    ¬ (c.lo.toNat ≤ c.chk.toNat ∧ c.chk.toNat < c.hi.toNat) ∧
    c.hi.toNat ≤ f.dlc.toNat ∧ c.chk.toNat < f.dlc.toNat

/-- `S` of 41_checksum.md R90. -/
def sumS (f : FrameRegs) (c : ChecksumRegs) : Int :=
  c.bias.toInt + (f.id.toNat : Int) + (f.dlc.toNat : Int) +
    ∑ k ∈ Finset.Ico c.lo.toNat c.hi.toNat, ((payload f k).toNat : Int)

/-- The next host event is an access that decodes to `i`. -/
def Performs (s : State) (i : Instr) : Prop :=
  ∃ a rest, s.bus = .access a :: rest ∧ decode a = .ok i

/-- A frame the diagnostic peer sends with these payload bytes, in the frame registers. -/
def frameOf (s : State) (b : List Byte) : FrameRegs :=
  { id := s.tpCfg.rspId
    dlc := BitVec.ofNat 8 b.length
    bus := s.frame.bus
    d0 := lanes (b.getD 0 0) (b.getD 1 0) (b.getD 2 0) (b.getD 3 0)
    d1 := lanes (b.getD 4 0) (b.getD 5 0) (b.getD 6 0) (b.getD 7 0) }

/-- The host presents these frames one after the other (43_control.md R121, step 3). -/
def deliverAll : State → List (List Byte) → Host.Outcome State Fault Refusal
  | s, [] => .next s
  | s, b :: bs =>
    match exec .tpfrm (s.withFrame (frameOf s b)) with
    | .next t => deliverAll t bs
    | .fault f => .fault f
    | .refused r => .refused r

/-- The payload of the First Frame of a message (30_encoding.md R70). -/
def ffBytes (msg : List Byte) : List Byte :=
  BitVec.ofNat 8 (0x10 + msg.length / 256) :: BitVec.ofNat 8 (msg.length % 256) :: msg.take 6

/-- The payloads of the Consecutive Frames of these chunks, sequence numbers counted from `k`
(30_encoding.md R70). -/
def cfBytes : Nat → List (List Byte) → List (List Byte)
  | _, [] => []
  | k, c :: cs => (BitVec.ofNat 8 (0x20 + k % 16) :: c) :: cfBytes (k + 1) cs

/-- `n` commands `TPTICK`. -/
def ticks : Nat → State → Host.Outcome State Fault Refusal
  | 0, s => .next s
  | n + 1, s =>
    match exec .tptick s with
    | .next t => ticks n t
    | .fault f => .fault f
    | .refused r => .refused r

/-- How many of the next `k` steps generate a flow-control frame: they start a session, or change the FC registers and
leave a frame pending there, which `GenerateFC` does (42_isotp.md R107) and `FCACK` and block reset do not. -/
def generatedFrames : Nat → State → Nat
  | 0, _ => 0
  | k + 1, s =>
    match step s with
    | .next t =>
      (if (s.session.phase = .idle ∧ t.session.phase = .awaitCf) ∨ (t.fc ≠ s.fc ∧ t.fc.pending = true)
        then 1 else 0) + generatedFrames k t
    | .fault _ => 0
    | .refused _ => 0

/-- A host event that resets the session: block reset or `TPRST` (42_isotp.md R98). -/
def resetsSession : HostEvent → Bool
  | .assertReset => true
  | .releaseReset => false
  | .access a =>
    match decode a with
    | .ok .tprst => true
    | _ => false

end Sys2Proof.Spec

open Sys2Proof Sys2Proof.Machine Sys2Proof.Spec

/-! ### Encoding -/

/-- 30_encoding.md R63, R65: the word map, over every 32-bit word. -/
def Obligations.CommandWordsSelectExactlyOneCommand : Prop :=
  ∀ v : Word, decode (commandAccess v) = .ok (
    if v = 0 then .nop else if v = 1 then .xtr else if v = 2 then .csum else if v = 3 then .tpfrm
    else if v = 4 then .tprst else if v = 5 then .tptick else if v = 6 then .fcack else .illegal v)

/-- 30_encoding.md R65, R66, R73: words and accesses written out from the tables decode to what they stand for. -/
def Obligations.WrittenOutWordsDecode : Prop :=
  decodeTableWord 32 0x00000001 = some .xtr ∧ decodeTableWord 32 0x00000005 = some .tptick ∧
  decodeTableWord 32 0x00000100 = some (.illegal 0x00000100) ∧
  decodeTableWord 32 0x00000007 = some (.illegal 0x00000007) ∧
  decode (.write 32 0xF0 0x00000003) = .ok .tpfrm ∧ decode (.read 32 0x80) = .ok (.rd 0x20) ∧
  decode (.write 32 0x48 0x00000100) = .ok (.wr 0x12 0x00000100)

/-- DECODE AND ENCODE AGREE, every operand at every value (30_encoding.md R63, R65, R73). -/
def Obligations.DecodeEncodeGivesTheInstructionBack : Prop :=
  ∀ i : Instr, i.WellFormed → decode (encode i) = .ok i

/-- Each accepted bus transaction is the encoding of the one instruction it decodes to, which is well formed. -/
def Obligations.AcceptedAccessIsTheEncodingOfItsInstruction : Prop :=
  ∀ (a : HostAccess) (i : Instr), decode a = .ok i → encode i = a ∧ i.WellFormed

/-! ### Host bus and step -/

/-- A STEP RUNS THE DECODED INSTRUCTION: with the oldest event an access that CFD accepts, `step` is `exec` of its
instruction once the event is taken from the queue. The queue is the model's (log entry 2). -/
def Obligations.StepRunsTheDecodedInstruction : Prop :=
  ∀ (s : State) (a : HostAccess) (rest : List HostEvent) (i : Instr),
    s.bus = .access a :: rest → s.inReset = false → decode a = .ok i →
      step s = exec i (s.withBus rest)

/-- 20_memory.md R49; 70_reset_and_hazards.md R137: exactly when an access has no step, and why; its order of checks
is the model's (log entry 9). -/
def Obligations.AccessRefusedExactlyWhenNotAcceptable : Prop :=
  ∀ (s : State) (a : HostAccess) (rest : List HostEvent), s.bus = .access a :: rest →
    (s.inReset = true → step s = .refused .accessDuringReset) ∧
    (s.inReset = false → accessBits a ≠ 32 → step s = .refused .accessWidth) ∧
    (s.inReset = false → accessBits a = 32 → (accessOffset a).toNat % 4 ≠ 0 →
      step s = .refused .accessMisaligned) ∧
    (s.inReset = false → accessBits a = 32 → (accessOffset a).toNat % 4 = 0 →
      ∀ r, step s ≠ .refused r)

/-- 00_scope.md R14: without a host event nothing happens, and a released reset changes nothing but the reset input.
The events are the model's form of the host (log entries 2, 10). -/
def Obligations.StepWithoutAccess : Prop :=
  ∀ s : State,
    (s.bus = [] → step s = .next s) ∧
    (∀ rest, s.bus = .releaseReset :: rest →
      step s = .next { s with bus := rest, inReset := false })

/-- 70_reset_and_hazards.md R138 with 10_state.md R17. -/
def Obligations.ResetReadsTheResetColumn : Prop :=
  (∀ r : Reg, readReg r State.reset = some (resetColumn r)) ∧
  State.reset.session.phase = .idle ∧ State.reset.session.err = .none

/-- 70_reset_and_hazards.md R137: block reset from any state, and that it stays asserted until released. What `BUF`
holds is free (log entry 7); that host-side fields are kept, and the release as an event, are the model's
(log entry 10). -/
def Obligations.BlockResetRestoresEveryRegister : Prop :=
  (∀ (s : State) (rest : List HostEvent), s.bus = .assertReset :: rest →
    ∃ t, step s = .next t ∧ (∀ r : Reg, readReg r t = some (resetColumn r)) ∧
      t.session = State.reset.session ∧ t.inReset = true ∧ t.bus = rest ∧ t.lastRead = s.lastRead) ∧
  (∀ s t : State, s.inReset = true → (∀ rest, s.bus ≠ .releaseReset :: rest) → step s = .next t →
    t.inReset = true)

/-- 10_state.md R17: the register map, its 34 offsets and access codes written out, and that an accepted access at the
offset of a register is the instruction on that register's slot. -/
def Obligations.RegisterMapIsTheTable : Prop :=
  ∀ r : Reg, regOffset r = (mapRow r).1 ∧ regAccess r = (mapRow r).2 ∧
    decode (.read 32 (mapRow r).1) = .ok (.rd (regSlot r)) ∧
    (r ≠ .cmd → ∀ v, decode (.write 32 (mapRow r).1 v) = .ok (.wr (regSlot r) v)) ∧
    ∀ r', (mapRow r').1 = (mapRow r).1 → r' = r

/-- 20_memory.md R51, R53: what `RD` gives the host, field by field of every register (10_state.md R18-R43), and that it
changes nothing else. The value lands in the model's
`lastRead` (log entry 3); `RX_LEN` is in its range 0..4101 (10_state.md R35). -/
def Obligations.RdReturnsTheRegisterAndChangesNothing : Prop :=
  ∀ (slot : BitVec 6) (s : State), s.session.rxLen.toNat ≤ 4101 →
    ∃ v, exec (.rd slot) s = .next { s with lastRead := some v } ∧
      (∀ r, regOffset r = slotOffset slot → readReg r s = some v ∧ Shows s v r) ∧
      ((∀ r, regOffset r ≠ slotOffset slot) → v = 0) ∧
      (slotOffset slot = 0xF0 → v = 0)

/-- 20_memory.md R52: a write to an RW register stores each defined field from its own bits of the value, reads back without the reserved bits, and
touches no other register (but `TP_BUFDATA`, which shows the buffer at `TP_BUFPTR`) and nothing else. -/
def Obligations.WrStoresTheDefinedFieldsOfAnRwRegister : Prop :=
  ∀ (r : Reg) (v : Word) (s : State), regAccess r = .rw →
    ∃ t, exec (.wr (regSlot r) v) s = .next t ∧ HoldsFieldsOf v t r ∧
      readReg r t = some (v &&& writableBits r) ∧
      (∀ r', r' ≠ r → r' ≠ .tpBufdata → readReg r' t = readReg r' s) ∧
      t = { s with frame := t.frame, field := t.field, csum := t.csum, tpCfg := t.tpCfg, bufPtr := t.bufPtr }

/-- 20_memory.md R52, R53: writes to RO registers and to reserved offsets have no effect. -/
def Obligations.WrToRoOrReservedHasNoEffect : Prop :=
  ∀ (slot : BitVec 6) (v : Word) (s : State),
    (∀ r, regOffset r = slotOffset slot → regAccess r = .ro) → exec (.wr slot v) s = .next s

/-- 20_memory.md R52: a write to `CMD` performs the command its value selects. -/
def Obligations.WrToCmdPerformsTheCommand : Prop :=
  ∀ (v : Word) (s : State), exec (.wr Config.cmdSlot v) s = exec (decodeCommand v).toInstr s

/-- 20_memory.md R54: a write to a register is idempotent. -/
def Obligations.RegisterWriteIsIdempotent : Prop :=
  ∀ (slot : BitVec 6) (v : Word) (s : State), slot ≠ Config.cmdSlot →
    ∃ t, exec (.wr slot v) s = .next t ∧ exec (.wr slot v) t = .next t

/-- 10_state.md R40. -/
def Obligations.BufDataShowsOnlyBytesBelowRxLen : Prop :=
  ∀ s : State, s.session.rxLen.toNat ≤ 4101 →
    (∃ v, exec (.rd (regSlot .tpBufdata)) s = .next { s with lastRead := some v } ∧
      ∀ j, j < 4 → v.extractLsb' (8 * j) 8 =
        if s.bufPtr.toNat + j < s.session.rxLen.toNat then s.buf.read (s.bufPtr.toNat + j) else 0) ∧
    ∀ v, exec (.wr (regSlot .tpBufdata) v) s = .next s

/-- 10_state.md R36, with the numbers of the phases and errors of R35. -/
def Obligations.TpStatusShowsTheSession : Prop :=
  regOffset .tpStatus = 0x70 ∧
  (Phase.idle.code = 0 ∧ Phase.awaitCf.code = 1 ∧ Phase.complete.code = 2 ∧ Phase.failed.code = 3) ∧
  (SessionError.none.code = 0 ∧ SessionError.seqMismatch.code = 1 ∧ SessionError.timeout.code = 2 ∧
    SessionError.lengthMismatch.code = 3) ∧
  (∀ s : State, ∃ v, exec (.rd (regSlot .tpStatus)) s = .next { s with lastRead := some v } ∧
    v.extractLsb' 0 2 = s.session.phase.code ∧ v.extractLsb' 2 2 = 0 ∧
    v.extractLsb' 4 2 = s.session.err.code ∧ v.extractLsb' 6 2 = 0 ∧
    v.extractLsb' 8 4 = s.session.seq ∧ v.getLsbD 12 = s.fc.pending ∧ v.getLsbD 13 = s.fc.overflow ∧
    (v.getLsbD 14 = true ↔
      s.session.phase = .failed ∧ s.session.rxLen.toNat < s.session.expLen.toNat) ∧
    v.extractLsb' 15 17 = 0) ∧
  (∀ (s : State) (v : Word), exec (.wr (regSlot .tpStatus) v) s = .next s) ∧
  readReg .tpStatus State.reset = some 0

/-- 10_state.md R37. -/
def Obligations.TpLenShowsBothLengths : Prop :=
  regOffset .tpLen = 0x74 ∧
  (∀ s : State, ∃ v, exec (.rd (regSlot .tpLen)) s = .next { s with lastRead := some v } ∧
    v.extractLsb' 0 12 = s.session.expLen ∧ v.extractLsb' 12 4 = 0 ∧
    v.extractLsb' 16 13 = s.session.rxLen ∧ v.extractLsb' 29 3 = 0) ∧
  (∀ (s : State) (v : Word), exec (.wr (regSlot .tpLen) v) s = .next s) ∧
  readReg .tpLen State.reset = some 0

/-- 20_memory.md R50: only platform addresses in the window at the 256-byte aligned `BLOCK_BASE` reach CFD, as the
offset from it. How the platform presents an access is the model's (log entry 4). -/
def Obligations.OnlyWindowAddressesReachTheBlock : Prop :=
  Config.blockBase % 256 = 0 ∧
  (∀ (s : State) (off : BitVec 8) (bits : Nat),
    s.presentAt (Config.blockBase + off.toNat) bits none =
      { s with bus := s.bus ++ [.access (.read bits off)] }) ∧
  (∀ (s : State) (off : BitVec 8) (bits : Nat) (v : Word),
    s.presentAt (Config.blockBase + off.toNat) bits (some v) =
      { s with bus := s.bus ++ [.access (.write bits off v)] }) ∧
  (∀ (s : State) (addr bits : Nat) (data : Option Word),
    addr < Config.blockBase ∨ Config.blockBase + 256 ≤ addr → s.presentAt addr bits data = s)

/-- 30_encoding.md R74, R75: every line of a host program issues exactly the accesses of its expansion, and the check of
`RD reg = value` compares the value read; and the four accesses of a `FRAME` line load the frame registers. That a line
joins the events, and its typed operands, are the model's (log entries 2, 18). -/
def Obligations.FrameLineLoadsTheFrameRegisters : Prop :=
  (∀ (l : HostLine) (s : State), l.expand = expansion l ∧
    s.issue l = { s with bus := s.bus ++ (expansion l).map .access }) ∧
  (∀ (r : Reg) (v : Word) (s : State), (HostLine.rdExpect r v).holds s = true ↔ s.lastRead = some v) ∧
  (∀ (s : State) (arbId : Word) (busNo dlc : Byte) (b : List Byte), s.bus = [] → s.inReset = false →
    ∃ t, Sys2Proof.core.run 4 (s.issue (.frame arbId busNo dlc b)) = .next t ∧
      t = { s with frame := t.frame } ∧
      t.frame.id = arbId.extractLsb' 0 29 ∧ t.frame.dlc = dlc ∧ t.frame.bus = busNo ∧
      ∀ k, k < 8 → payload t.frame k = b.getD k 0)

/-! ### Command status -/

/-- 43_control.md R116. -/
def Obligations.NopWritesOkStatusOnly : Prop :=
  ∀ s : State, exec .nop s = .next { s with status := okStatus }

/-- 30_encoding.md R66, 60_exceptions.md R127, with the numbers of the status codes (R123). -/
def Obligations.IllegalWordReportsIllegalCmdOnly : Prop :=
  (StatusCode.ok.code = 0 ∧ StatusCode.outOfRange.code = 1 ∧ StatusCode.badFrame.code = 2 ∧
    StatusCode.badConfig.code = 3 ∧ StatusCode.illegalCmd.code = 4) ∧
  ∀ (v : Word) (s : State), v.extractLsb' 8 24 ≠ 0 ∨ 7 ≤ (v.extractLsb' 0 8).toNat →
    decode (commandAccess v) = .ok (.illegal v) ∧
    exec (.illegal v) s = .next { s with status := refusedStatus .illegalCmd } ∧
    exec (.wr Config.cmdSlot v) s = .next { s with status := refusedStatus .illegalCmd }

/-- 60_exceptions.md R124. -/
def Obligations.RefusalWritesOnlyTheStatus : Prop :=
  ∀ (i : Instr) (s t : State), isCommand i = true → exec i s = .next t → t.status.code ≠ .ok →
    t = { s with status := refusedStatus t.status.code }

/-- 60_exceptions.md R125: the three commands that read the frame registers, whatever the identifier. -/
def Obligations.DlcAboveEightIsBadFrame : Prop :=
  ∀ s : State, 8 < s.frame.dlc.toNat →
    exec .xtr s = .next { s with status := refusedStatus .badFrame } ∧
    exec .csum s = .next { s with status := refusedStatus .badFrame } ∧
    exec .tpfrm s = .next { s with status := refusedStatus .badFrame }

/-- 10_state.md R43, 60_exceptions.md R123: which codes each instruction can leave, and that accesses that perform no
command keep `CMD_STATUS`. -/
def Obligations.StatusIsWrittenByCommandsOnly : Prop :=
  (∀ (i : Instr) (s t : State), exec i s = .next t → isCommand i = true →
    (t.status.consumed = true → i = .tpfrm) ∧
    (t.status.code = .outOfRange → i = .xtr ∨ i = .csum) ∧
    (t.status.code = .badFrame → i = .xtr ∨ i = .csum ∨ i = .tpfrm) ∧
    (t.status.code = .badConfig → i = .csum) ∧
    (t.status.code = .illegalCmd → ∃ w, i = .illegal w)) ∧
  (∀ (slot : BitVec 6) (s t : State), exec (.rd slot) s = .next t → t.status = s.status) ∧
  (∀ (slot : BitVec 6) (v : Word) (s t : State), slot ≠ Config.cmdSlot →
    exec (.wr slot v) s = .next t → t.status = s.status)

/-- 20_memory.md R61: the "writes on success" column, `CMD_STATUS` and the model's draw counter aside. -/
def Obligations.CommandsWriteOnlyTheirOwnState : Prop :=
  ∀ s t : State,
    (exec .xtr s = .next t → t = { s with fieldRes := t.fieldRes, status := t.status, draws := t.draws }) ∧
    (exec .csum s = .next t → t = { s with csumRes := t.csumRes, status := t.status }) ∧
    (exec .tpfrm s = .next t →
      t = { s with session := t.session, buf := t.buf, fc := t.fc, status := t.status }) ∧
    (exec .tprst s = .next t → t = { s with session := t.session, status := t.status }) ∧
    (exec .tptick s = .next t →
      t = { s with
        session := { s.session with phase := t.session.phase, err := t.session.err, tmr := t.session.tmr }
        status := t.status }) ∧
    (exec .fcack s = .next t →
      t = { s with
        fc := { s.fc with pending := t.fc.pending, overflow := t.fc.overflow }, status := t.status })

/-! ### XTR -/

/-- 40_extractor.md R76: both refusals in their order, no wrap of `START + WIDTH`, nothing changed but the status. -/
def Obligations.XtrRefusesBadFrameThenOutOfRange : Prop :=
  ∀ s : State,
    (8 < s.frame.dlc.toNat → exec .xtr s = .next { s with status := refusedStatus .badFrame }) ∧
    (s.frame.dlc.toNat ≤ 8 →
      s.field.width.toNat = 0 ∨ 8 * s.frame.dlc.toNat < s.field.start.toNat + s.field.width.toNat →
      exec .xtr s = .next { s with status := refusedStatus .outOfRange }) ∧
    (FieldLegal s.frame s.field → s.field.width.toNat ≤ 64 ∧ s.frame.dlc.toNat ≠ 0)

/-- 40_extractor.md R77-R80, bit by bit: the field's bits, masked, then the sign or zeros; and what `XTR` leaves
unchanged. -/
def Obligations.XtrRawHoldsTheFieldBits : Prop :=
  ∀ s : State, FieldLegal s.frame s.field →
    ∃ t, exec .xtr s = .next t ∧
      t = { s with fieldRes := t.fieldRes, status := okStatus, draws := t.draws } ∧
      ∀ j, j < 64 → t.fieldRes.raw.getLsbD j =
        if j < s.field.width.toNat then fieldBit s.frame s.field j
        else s.field.signed && fieldBit s.frame s.field (s.field.width.toNat - 1)

/-- 40_extractor.md R81-R83: `XPHYS` encodes convert, multiply, add of the raw word read as signed 64 bits; a NaN is
some NaN pattern and takes a fresh draw (log entry 5), for every value of the draw counter. -/
def Obligations.XtrPhysEncodesTheScaledRawValue : Prop :=
  ∀ s : State, FieldLegal s.frame s.field →
    ∃ t p, exec .xtr s = .next t ∧
      p = f64Add (f64Mul (f64OfInt t.fieldRes.raw.toInt) (f64Unpack s.field.scale)) (f64Unpack s.field.offset) ∧
      (p = .nan → IsNaN t.fieldRes.phys ∧ t.draws = s.draws + 1) ∧
      (p ≠ .nan → ¬ IsNaN t.fieldRes.phys ∧ t.draws = s.draws ∧ f64Unpack t.fieldRes.phys = p)

/-- 40_extractor.md R83: with the reset values of scale and offset `XPHYS` is the conversion of the raw value, and
never -0.0. -/
def Obligations.XtrWithDefaultScaleConvertsTheRawValue : Prop :=
  ∀ s : State, FieldLegal s.frame s.field → s.field.scale = 0x3FF0000000000000 → s.field.offset = 0 →
    ∃ t, exec .xtr s = .next t ∧
      f64Unpack t.fieldRes.phys = f64OfInt t.fieldRes.raw.toInt ∧
      t.fieldRes.phys ≠ 0x8000000000000000

/-- 40_extractor.md R85, 10_state.md R20: `XTR` reads the DLC, the payload below it and the descriptor, nothing else
(the draw counter names the NaN pattern). -/
def Obligations.XtrReadsOnlyItsOperands : Prop :=
  ∀ s s' : State, s.frame.dlc = s'.frame.dlc → s.field = s'.field → s.draws = s'.draws →
    (∀ k, k < s.frame.dlc.toNat → payload s.frame k = payload s'.frame k) →
    ∃ t t', exec .xtr s = .next t ∧ exec .xtr s' = .next t' ∧ t.status = t'.status ∧
      (t.status.code = .ok → t.fieldRes = t'.fieldRes ∧ t.draws = t'.draws)

/-- 40_extractor.md R87: an integer placed in the field comes back. -/
def Obligations.XtrRecoversAnIntegerPlacedInTheField : Prop :=
  ∀ (s : State) (r : Int), FieldLegal s.frame s.field → s.field.maskEn = false →
    (s.field.signed = false → 0 ≤ r ∧ r < 2 ^ s.field.width.toNat) →
    (s.field.signed = true → -(2 ^ (s.field.width.toNat - 1)) ≤ r ∧ r < 2 ^ (s.field.width.toNat - 1)) →
    (∀ j, j < s.field.width.toNat →
      srcBit s.frame s.field.little (s.field.start.toNat + j) =
        (BitVec.ofInt s.field.width.toNat r).getLsbD (s.field.width.toNat - 1 - j)) →
    ∃ t, exec .xtr s = .next t ∧ t.fieldRes.raw = BitVec.ofInt 64 r

/-! ### Binary64 -/

/-- 40_extractor.md R82: `f64Round` gives a nearest value, ties to even, subnormals kept; and on finite operands convert,
multiply and add each are one such rounding of the exact integer, product (its sign the exclusive or of the signs, for a
product of 0 by log entry 11) and nonzero sum. -/
def Obligations.RoundingIsToNearestTiesToEven : Prop :=
  (∀ (neg : Bool) (n sh m : Nat), f64Round neg n sh = .fin neg m →
    Representable m ∧ m < 2 ^ 2098 ∧
    ∀ m', Representable m' → distance n sh m ≤ distance n sh m' ∧
      (distance n sh m = distance n sh m' → m' = m ∨ EvenSignificand m)) ∧
  (∀ i : Int, f64OfInt i = f64Round (decide (i < 0)) (i.natAbs * 2 ^ 1074) 0) ∧
  (∀ (a b : Bool) (m n : Nat), f64Mul (.fin a m) (.fin b n) = f64Round (a ^^ b) (m * n) 1074) ∧
  (∀ (a b : Bool) (m n : Nat), signed a m + signed b n ≠ 0 →
    f64Add (.fin a m) (.fin b n) =
      f64Round (decide (signed a m + signed b n < 0)) (signed a m + signed b n).natAbs 0)

/-- 40_extractor.md R83: overflow, exactly from the midpoint above the largest finite value on, gives a correctly
signed infinity. -/
def Obligations.RoundingOverflowsToSignedInfinity : Prop :=
  ∀ (neg : Bool) (n sh : Nat),
    (f64Round neg n sh = .inf neg ↔ (2 ^ 54 - 1) * 2 ^ (2044 + sh) ≤ n) ∧
    (f64Round neg n sh ≠ .inf neg → ∃ m, f64Round neg n sh = .fin neg m)

/-- 30_encoding.md R68: the number a pattern encodes, from its sign, exponent and fraction, in units of 2^-1074 (the
weights are binary64's, log entry 11); and reading and writing a pattern that is no NaN are inverse. -/
def Obligations.PackUndoesUnpack : Prop :=
  (∀ (w : DWord) (e f : Nat), e = (w.extractLsb' 52 11).toNat → f = (w.extractLsb' 0 52).toNat →
    (e = 0x7FF → f = 0 → f64Unpack w = .inf (w.getLsbD 63)) ∧
    (e = 0 → f64Unpack w = .fin (w.getLsbD 63) f) ∧
    (e ≠ 0 → e ≠ 0x7FF → f64Unpack w = .fin (w.getLsbD 63) ((2 ^ 52 + f) * 2 ^ (e - 1)))) ∧
  ∀ w p : DWord, (f64Unpack w = .nan ↔ IsNaN w) ∧ (¬ IsNaN w → f64Pack p (f64Unpack w) = w)

/-- 40_extractor.md R82: `cvt_f64` is exact up to 2^53. -/
def Obligations.ConversionIsExactUpToTwoToThe53 : Prop :=
  ∀ i : Int, i.natAbs ≤ 2 ^ 53 → f64OfInt i = .fin (decide (i < 0)) (i.natAbs * 2 ^ 1074)

/-- 40_extractor.md R83: the special values, every operand that is no number or infinite, in both orders; infinities are
signed as IEEE 754 says (log entry 11). The last two clauses, the sign of a sum that is 0, rest on log entry 11: the
spec states of a zero result only that 0 converts to +0.0. -/
def Obligations.SpecialValuesFollowIeee754 : Prop :=
  (∀ a b : Bool, f64Mul (.fin a 0) (.inf b) = .nan ∧ f64Mul (.inf a) (.fin b 0) = .nan) ∧
  (∀ a b : Bool, ∀ m : Nat, 0 < m →
    f64Mul (.inf a) (.fin b m) = .inf (a ^^ b) ∧ f64Mul (.fin a m) (.inf b) = .inf (a ^^ b)) ∧
  (∀ a b : Bool, f64Mul (.inf a) (.inf b) = .inf (a ^^ b)) ∧
  (∀ a b : Bool, ∀ m : Nat, f64Add (.inf a) (.fin b m) = .inf a ∧ f64Add (.fin b m) (.inf a) = .inf a) ∧
  (∀ a : Bool, f64Add (.inf a) (.inf (!a)) = .nan ∧ f64Add (.inf a) (.inf a) = .inf a) ∧
  (∀ x : F64, f64Mul .nan x = .nan ∧ f64Mul x .nan = .nan ∧ f64Add .nan x = .nan ∧ f64Add x .nan = .nan) ∧
  f64OfInt 0 = .fin false 0 ∧
  (∀ a : Bool, ∀ m : Nat, 0 < m → f64Add (.fin a m) (.fin (!a) m) = .fin false 0) ∧
  (∀ a b : Bool, f64Add (.fin a 0) (.fin b 0) = .fin (a && b) 0)

/-- 40_extractor.md R83, D41: the free NaN pattern is always a NaN, and every NaN can be drawn. -/
def Obligations.NanDrawCoversExactlyTheNans : Prop :=
  (∀ b : DWord, IsNaN (nanPattern b)) ∧ (∀ w : DWord, IsNaN w → nanPattern w = w)

/-! ### CSUM -/

/-- 41_checksum.md R90-R93: the exact sum over the range, floor modulo, low eight bits, the comparison; nothing else
changes. -/
def Obligations.CsumWritesTheFloorModuloChecksum : Prop :=
  ∀ s : State, SpecLegal s.frame s.csum →
    ∃ e : Byte, e = BitVec.ofInt 8 (Int.fmod (sumS s.frame s.csum) (s.csum.modulus.toNat : Int)) ∧
      exec .csum s = .next { s with
        csumRes := { expected := e, actual := payload s.frame s.csum.chk.toNat
                     ok := decide (e = payload s.frame s.csum.chk.toNat) }
        status := okStatus }

/-- 41_checksum.md R89: the refusals, in their order. -/
def Obligations.CsumRefusesInOrder : Prop :=
  ∀ s : State,
    (8 < s.frame.dlc.toNat → exec .csum s = .next { s with status := refusedStatus .badFrame }) ∧
    (s.frame.dlc.toNat ≤ 8 →
      s.csum.modulus = 0 ∨ s.csum.hi.toNat < s.csum.lo.toNat ∨
        (s.csum.lo.toNat ≤ s.csum.chk.toNat ∧ s.csum.chk.toNat < s.csum.hi.toNat) →
      exec .csum s = .next { s with status := refusedStatus .badConfig }) ∧
    (s.frame.dlc.toNat ≤ 8 → s.csum.modulus ≠ 0 → s.csum.lo.toNat ≤ s.csum.hi.toNat →
      ¬ (s.csum.lo.toNat ≤ s.csum.chk.toNat ∧ s.csum.chk.toNat < s.csum.hi.toNat) →
      s.frame.dlc.toNat < s.csum.hi.toNat ∨ s.frame.dlc.toNat ≤ s.csum.chk.toNat →
      exec .csum s = .next { s with status := refusedStatus .outOfRange })

/-- 41_checksum.md R97: where a wrapping 32-bit sum with a truncating remainder agrees with CU. -/
def Obligations.CsumAgreesWithWrappingTruncatingArithmetic : Prop :=
  ∀ s : State, SpecLegal s.frame s.csum →
    (256 ∣ s.csum.modulus.toNat ∧ s.csum.modulus.toNat ∣ 2 ^ 32) ∨
      (0 ≤ sumS s.frame s.csum ∧ sumS s.frame s.csum < 2 ^ 31) →
    ∃ t, exec .csum s = .next t ∧
      t.csumRes.expected =
        BitVec.ofInt 8 (Int.tmod (BitVec.ofInt 32 (sumS s.frame s.csum)).toInt (s.csum.modulus.toNat : Int))

/-- 41_checksum.md R93, 20_memory.md R61: `CSUM` reads the identifier, the DLC, the payload below it and the spec
registers, nothing else. -/
def Obligations.CsumReadsOnlyItsOperands : Prop :=
  ∀ s s' : State, s.frame.dlc = s'.frame.dlc → s.frame.id = s'.frame.id → s.csum = s'.csum →
    (∀ k, k < s.frame.dlc.toNat → payload s.frame k = payload s'.frame k) →
    ∃ t t', exec .csum s = .next t ∧ exec .csum s' = .next t' ∧ t.status = t'.status ∧
      (t.status.code = .ok → t.csumRes = t'.csumRes)

/-! ### TU -/

/-- 42_isotp.md R102, R105: every frame TU ignores, and that it changes nothing but the status. -/
def Obligations.TpfrmIgnoresOtherFrames : Prop :=
  ∀ s : State, s.frame.dlc.toNat ≤ 8 →
    s.frame.id ≠ s.tpCfg.rspId ∨ s.frame.dlc.toNat = 0 ∨
      (s.session.phase = .idle ∧ (framePci s.frame ≠ 1 ∨ s.frame.dlc.toNat < 2)) ∨
      (s.session.phase = .awaitCf ∧ framePci s.frame ≠ 2) ∨
      s.session.phase = .complete ∨ s.session.phase = .failed →
    exec .tpfrm s = .next { s with status := okStatus }

/-- 42_isotp.md R101, R107: a First Frame accepted in IDLE, with the flow-control frame it generates. -/
def Obligations.TpfrmAcceptsAFirstFrame : Prop :=
  ∀ s : State, s.buf.wf = true → s.frame.id = s.tpCfg.rspId → 2 ≤ s.frame.dlc.toNat →
    s.frame.dlc.toNat ≤ 8 → s.session.phase = .idle → (payload s.frame 0).extractLsb' 4 4 = 1 →
    ∃ t, exec .tpfrm s = .next t ∧
      t = { s with session := t.session, buf := t.buf, fc := t.fc
                   status := { code := .ok, consumed := true } } ∧
      t.session.phase = .awaitCf ∧ t.session.err = .none ∧ t.session.seq = 1 ∧ t.session.tmr = 0 ∧
      t.session.expLen = (payload s.frame 0).extractLsb' 0 4 ++ payload s.frame 1 ∧
      t.session.rxLen.toNat = s.frame.dlc.toNat - 2 ∧
      (∀ a, t.buf.read a = if a < s.frame.dlc.toNat - 2 then payload s.frame (2 + a) else s.buf.read a) ∧
      t.fc = { id := s.tpCfg.reqId, dlc := 8, bus := s.frame.bus, d0 := s.tpCfg.fcPad ++ (0x000030 : BitVec 24)
               d1 := s.tpCfg.fcPad ++ s.tpCfg.fcPad ++ s.tpCfg.fcPad ++ s.tpCfg.fcPad
               pending := true, overflow := s.fc.overflow || s.fc.pending }

/-- 42_isotp.md R103: a Consecutive Frame with the expected sequence number: bytes appended at `RX_LEN`, `SEQ` wraps,
the timer cleared, completion and truncation. `RX_LEN` leaves room in `BUF` (R100 derives that it does). -/
def Obligations.TpfrmAppendsTheExpectedConsecutiveFrame : Prop :=
  ∀ s : State, s.buf.wf = true → s.frame.id = s.tpCfg.rspId → 1 ≤ s.frame.dlc.toNat →
    s.frame.dlc.toNat ≤ 8 → s.session.phase = .awaitCf → (payload s.frame 0).extractLsb' 4 4 = 2 →
    (payload s.frame 0).extractLsb' 0 4 = s.session.seq →
    s.session.rxLen.toNat + (s.frame.dlc.toNat - 1) ≤ 4101 →
    ∃ t, exec .tpfrm s = .next t ∧
      t = { s with session := t.session, buf := t.buf, status := { code := .ok, consumed := true } } ∧
      t.session.err = s.session.err ∧ t.session.expLen = s.session.expLen ∧ t.session.tmr = 0 ∧
      t.session.seq.toNat = (s.session.seq.toNat + 1) % 16 ∧
      (∀ a, t.buf.read a =
        if s.session.rxLen.toNat ≤ a ∧ a < s.session.rxLen.toNat + (s.frame.dlc.toNat - 1) then
          payload s.frame (1 + (a - s.session.rxLen.toNat))
        else s.buf.read a) ∧
      if s.session.expLen.toNat ≤ s.session.rxLen.toNat + (s.frame.dlc.toNat - 1) then
        t.session.phase = .complete ∧ t.session.rxLen.toNat = s.session.expLen.toNat
      else
        t.session.phase = .awaitCf ∧
          t.session.rxLen.toNat = s.session.rxLen.toNat + (s.frame.dlc.toNat - 1)

/-- 42_isotp.md R104: a Consecutive Frame with another sequence number. -/
def Obligations.TpfrmFailsOnASequenceMismatch : Prop :=
  ∀ s : State, s.frame.id = s.tpCfg.rspId → 1 ≤ s.frame.dlc.toNat → s.frame.dlc.toNat ≤ 8 →
    s.session.phase = .awaitCf → (payload s.frame 0).extractLsb' 4 4 = 2 →
    (payload s.frame 0).extractLsb' 0 4 ≠ s.session.seq →
    exec .tpfrm s = .next { s with
      session := { s.session with phase := .failed, err := .seqMismatch }
      status := { code := .ok, consumed := true } }

/-- 42_isotp.md R106, D42: `CONSUMED` says exactly whether TU's state changed. -/
def Obligations.ConsumedSaysWhetherTuChanged : Prop :=
  ∀ s t : State, exec .tpfrm s = .next t →
    (t.status.consumed = true ↔ ¬ (t.session = s.session ∧ t.buf = s.buf ∧ t.fc = s.fc))

/-- 42_isotp.md R108. -/
def Obligations.FcackClearsTheFlagsAndKeepsTheFrame : Prop :=
  ∀ s : State, exec .fcack s = .next { s with
    fc := { s.fc with pending := false, overflow := false }, status := okStatus }

/-- 42_isotp.md R109. -/
def Obligations.TprstEmptiesTheSessionOnly : Prop :=
  ∀ s : State, exec .tprst s = .next { s with
    session := { phase := .idle, err := .none, seq := 0, expLen := 0, rxLen := 0, tmr := 0 }
    status := okStatus }

/-- 42_isotp.md R110: one tick. -/
def Obligations.TptickCountsOnlyInAwaitCf : Prop :=
  ∀ s : State, ∃ t, exec .tptick s = .next t ∧
    t = { s with session := t.session, status := okStatus } ∧
    (s.session.phase ≠ .awaitCf → t.session = s.session) ∧
    (s.session.phase = .awaitCf →
      t.session.tmr.toNat = min (s.session.tmr.toNat + 1) 0xFFFFFFFF ∧
      t.session.seq = s.session.seq ∧ t.session.expLen = s.session.expLen ∧
      t.session.rxLen = s.session.rxLen ∧
      if s.tpCfg.timeout ≠ 0 ∧ s.tpCfg.timeout.toNat ≤ t.session.tmr.toNat then
        t.session.phase = .failed ∧ t.session.err = .timeout
      else t.session.phase = .awaitCf ∧ t.session.err = s.session.err)

/-- 42_isotp.md R110: from a cleared timer, the session fails at the tick that reaches a nonzero deadline, not before,
and stays as it then is. -/
def Obligations.TimeoutComesExactlyAtTheDeadline : Prop :=
  ∀ (s : State) (n : Nat), s.session.phase = .awaitCf → s.session.tmr = 0 → s.tpCfg.timeout ≠ 0 →
    ∃ t, ticks n s = .next t ∧
      (n < s.tpCfg.timeout.toNat → t.session = { s.session with tmr := BitVec.ofNat 32 n }) ∧
      (s.tpCfg.timeout.toNat ≤ n →
        t.session = { s.session with phase := .failed, err := .timeout, tmr := s.tpCfg.timeout })

/-- 42_isotp.md R98: every change of the phase is a row of the transition table. -/
def Obligations.PhaseChangesOnlyByTheTransitionTable : Prop :=
  ∀ s t : State, step s = .next t → t.session.phase ≠ s.session.phase →
    (s.session.phase = .idle ∧ t.session.phase = .awaitCf ∧ Performs s .tpfrm) ∨
    (s.session.phase = .awaitCf ∧ t.session.phase = .complete ∧ Performs s .tpfrm) ∨
    (s.session.phase = .awaitCf ∧ t.session.phase = .failed ∧ t.session.err = .seqMismatch ∧
      Performs s .tpfrm) ∨
    (s.session.phase = .awaitCf ∧ t.session.phase = .failed ∧ t.session.err = .timeout ∧
      Performs s .tptick) ∨
    (t.session.phase = .idle ∧ (Performs s .tprst ∨ ∃ rest, s.bus = .assertReset :: rest))

/-- 42_isotp.md R107, R108: the FC registers and `FC_PENDING` are written by an accepted First Frame, apart from
`FCACK` and block reset. -/
def Obligations.FcRegistersAreWrittenByFirstFramesOnly : Prop :=
  ∀ s t : State, step s = .next t → t.fc ≠ s.fc →
    (s.session.phase = .idle ∧ t.session.phase = .awaitCf ∧ Performs s .tpfrm ∧ t.fc.pending = true) ∨
    (Performs s .fcack ∧ t.fc = { s.fc with pending := false, overflow := false }) ∨
    ∃ rest, s.bus = .assertReset :: rest

/-- 42_isotp.md R100: the only accesses that could leave `BUF`, and how the model stops on them (log entry 8). -/
def Obligations.BufferOverrunFaultsExactlyBeyondCapacity : Prop :=
  ∀ (i : Instr) (s : State), exec i s = .fault .bufferOverrun ↔
    ((i = .tpfrm ∨ i = .wr Config.cmdSlot 3) ∧ 2 ≤ s.frame.dlc.toNat ∧ s.frame.dlc.toNat ≤ 8 ∧
      s.frame.id = s.tpCfg.rspId ∧ s.session.phase = .awaitCf ∧ framePci s.frame = 2 ∧
      frameSn s.frame = s.session.seq ∧ 4101 < s.session.rxLen.toNat + (s.frame.dlc.toNat - 1)) ∨
    (i = .rd (regSlot .tpBufdata) ∧
      ∃ j, j < 4 ∧ 4101 ≤ s.bufPtr.toNat + j ∧ s.bufPtr.toNat + j < s.session.rxLen.toNat)

/-! ### Invariants and runs -/

/-- The invariant holds right after reset. -/
def Obligations.ResetSatisfiesTheSessionInvariants : Prop := SoundState State.reset

/-- 42_isotp.md R99, R100: AN INVARIANT THAT EVERY STEP KEEPS. -/
def Obligations.EveryStepKeepsTheSessionInvariants : Prop :=
  ∀ s t : State, SoundState s → step s = .next t → SoundState t

/-- 42_isotp.md R100, 70_reset_and_hazards.md R148: no step from a state with the invariant leaves the buffer, and
every access the port accepts finishes. -/
def Obligations.NoStepLeavesTheBuffer : Prop :=
  ∀ (k : Nat) (s : State), SoundState s →
    (∀ f, Sys2Proof.core.run k s ≠ .fault f) ∧
    (s.inReset = false →
      (∀ ev ∈ s.bus, ∃ a, ev = .access a ∧ accessBits a = 32 ∧ (accessOffset a).toNat % 4 = 0) →
      ∃ t, Sys2Proof.core.run k s = .next t)

/-- 42_isotp.md R114, 70_reset_and_hazards.md R139: NO LEAK. Whatever `BUF` holds at or beyond `RX_LEN`, no run shows
it: two such states stay alike in every register, in `RX_LEN` bytes of `BUF` and in what the host reads. -/
def Obligations.HiddenBufferBytesNeverShow : Prop :=
  ∀ (k : Nat) (s t : State), SameView s t →
    SameOutcome (Sys2Proof.core.run k s) (Sys2Proof.core.run k t)

/-- 42_isotp.md R113: between two resets at most one flow-control frame, none once the session left IDLE, and exactly
one when it leaves IDLE. -/
def Obligations.AtMostOneFlowControlFramePerSession : Prop :=
  ∀ (k : Nat) (s : State), (∀ ev ∈ s.bus.take k, resetsSession ev = false) →
    generatedFrames k s ≤ 1 ∧ (s.session.phase ≠ .idle → generatedFrames k s = 0) ∧
    ∀ t, Sys2Proof.core.run k s = .next t → s.session.phase = .idle → t.session.phase ≠ .idle →
      generatedFrames k s = 1

/-- 42_isotp.md R101, R103, R111: THE REASSEMBLER DELIVERS THE MESSAGE. Any message of 7 to 4095 bytes, its First Frame
and Consecutive Frames of 1 to 7 bytes numbered 1, 2, … modulo 16, ends in COMPLETE with exactly its bytes. -/
def Obligations.ReassemblyDeliversTheMessage : Prop :=
  ∀ (s : State) (msg : List Byte) (chunks : List (List Byte)),
    SoundState s → s.session.phase = .idle → 6 < msg.length → msg.length ≤ 4095 →
    chunks.flatten = msg.drop 6 → (∀ c ∈ chunks, 1 ≤ c.length ∧ c.length ≤ 7) →
    ∃ t, deliverAll s (ffBytes msg :: cfBytes 1 chunks) = .next t ∧
      t.session.phase = .complete ∧ t.session.rxLen.toNat = msg.length ∧
      ∀ a, a < msg.length → t.buf.read a = msg.getD a 0
end

