-- ==== Sys2Proof/Laws/Binary64.lean ====
section
/-! SUPPORT. What the parts of XU's datapath guarantee: the bounds of a significand, one rounding of a quotient, the
range of a decoded pattern, and that a field fits its width. -/

namespace Sys2Proof.Machine

/-- The excess bits are exactly what a magnitude has beyond 53 (30_encoding.md R68). -/
theorem excessBits_spec (n : Nat) :
    n < 2 ^ (53 + excessBits n) ∧ (excessBits n ≠ 0 → 2 ^ (52 + excessBits n) ≤ n) := by
  by_cases h0 : n = 0
  · subst h0; simp [excessBits]
  · have h1 := Nat.lt_log2_self (n := n)
    have h2 := Nat.log2_self_le h0
    unfold excessBits
    constructor
    · exact lt_of_lt_of_le h1 (Nat.pow_le_pow_right (by decide) (by omega))
    · intro h
      have e : 52 + (n.log2 + 1 - 53) = n.log2 := by omega
      rw [e]; exact h2

theorem excessBits_of_lt {n : Nat} (h : n < 2 ^ 53) : excessBits n = 0 := by
  by_contra hc
  have := (excessBits_spec n).2 hc
  have h2 : 2 ^ 53 ≤ 2 ^ (52 + excessBits n) := Nat.pow_le_pow_right (by decide) (by omega)
  omega

/-- 40_extractor.md R82: no whole number is nearer to `n / 2^d`, and a tie goes to an even one. -/
theorem roundNearestEven_spec (n d : Nat) :
    2 * n ≤ (2 * roundNearestEven n d + 1) * 2 ^ d ∧ (2 * roundNearestEven n d) * 2 ^ d ≤ 2 * n + 2 ^ d ∧
      (2 * n = (2 * roundNearestEven n d + 1) * 2 ^ d ∨ (2 * roundNearestEven n d) * 2 ^ d = 2 * n + 2 ^ d →
        roundNearestEven n d % 2 = 0) := by
  have hp : 0 < 2 ^ d := Nat.two_pow_pos d
  have hn := Nat.div_add_mod n (2 ^ d)
  have hr := Nat.mod_lt n hp
  unfold roundNearestEven
  rw [Nat.shiftRight_eq_div_pow]
  generalize hq : n / 2 ^ d = q at *
  generalize hm : n % 2 ^ d = r at *
  generalize 2 ^ d = p at *
  simp only
  have e : n = p * q + r := hn.symm
  have e1 : (2 * q + 1) * p = 2 * (p * q) + p := by ring
  have e2 : 2 * q * p = 2 * (p * q) := by ring
  have e3 : (2 * (q + 1) + 1) * p = 2 * (p * q) + 3 * p := by ring
  have e4 : 2 * (q + 1) * p = 2 * (p * q) + 2 * p := by ring
  split_ifs with h1 h2
  · rw [e1, e2]; omega
  · rw [e3, e4]; omega
  · rcases Nat.mod_two_eq_zero_or_one q with h | h
    · rw [h]
      simp only [Nat.add_zero]
      rw [e1, e2]
      exact ⟨by omega, by omega, fun _ => h⟩
    · rw [h, e3, e4]
      exact ⟨by omega, by omega, fun _ => by omega⟩

theorem roundNearestEven_zero (n : Nat) : roundNearestEven n 0 = n := by
  simp [roundNearestEven, Nat.mod_one]

/-- Rounding a multiple changes nothing. -/
theorem roundNearestEven_mul (q d : Nat) : roundNearestEven (q * 2 ^ d) d = q := by
  have hp : 0 < 2 ^ d := Nat.two_pow_pos d
  simp [roundNearestEven, Nat.shiftRight_eq_div_pow, Nat.mul_mod_left, Nat.mul_div_cancel _ hp]

/-- A finite pattern is below 2^1024 (30_encoding.md R68). -/
theorem f64Unpack_fin_lt {w : DWord} {neg : Bool} {m : Nat} (h : f64Unpack w = .fin neg m) : m < 2 ^ 2098 := by
  have hf := (w.extractLsb' 0 52).isLt
  have he := (w.extractLsb' 52 11).isLt
  simp only [f64Unpack] at h
  generalize (w.extractLsb' 0 52).toNat = f at *
  generalize (w.extractLsb' 52 11).toNat = e at *
  split_ifs at h with h1 h2 h3 <;> simp only [F64.fin.injEq] at h
  · exact lt_of_lt_of_le (h.2 ▸ hf) (Nat.pow_le_pow_right Nat.two_pos (show 52 ≤ 2098 by decide))
  · obtain ⟨-, rfl⟩ := h
    rw [Nat.shiftLeft_eq]
    have hle : 2 ^ (e - 1) ≤ 2 ^ 2045 := Nat.pow_le_pow_right (by decide) (by omega)
    have hs : 2 ^ 52 + f < 2 ^ 53 := by omega
    calc (2 ^ 52 + f) * 2 ^ (e - 1) ≤ (2 ^ 52 + f) * 2 ^ 2045 := Nat.mul_le_mul_left _ hle
      _ < 2 ^ 53 * 2 ^ 2045 := Nat.mul_lt_mul_of_pos_right hs (Nat.two_pow_pos _)
      _ = 2 ^ 2098 := by rw [← Nat.pow_add]

/-- An extracted field fits its width (40_extractor.md R78). -/
theorem fieldBits_lt (f : FrameRegs) (d : FieldRegs) : fieldBits f d < 2 ^ d.width.toNat :=
  Nat.mod_lt _ (Nat.two_pow_pos _)

/-- The mask keeps it so (40_extractor.md R79). -/
theorem maskedBits_lt (f : FrameRegs) (d : FieldRegs) : maskedBits f d < 2 ^ d.width.toNat := by
  unfold maskedBits
  split
  · exact lt_of_le_of_lt Nat.and_le_left (fieldBits_lt f d)
  · exact fieldBits_lt f d

end Sys2Proof.Machine
end

