-- ==== Sys2Proof/Laws/Decode.lean ====
section
/-! SUPPORT. The small facts of the encoding: slots and offsets, which accesses are accepted, and that the register
map is one to one. -/

namespace Sys2Proof

open Machine

@[simp] theorem slotOffset_slot (slot : BitVec 6) : (slotOffset slot).extractLsb' 2 6 = slot := by
  revert slot; decide

@[simp] theorem slotOffset_low (slot : BitVec 6) : (slotOffset slot).extractLsb' 0 2 = 0 := by
  revert slot; decide

theorem slotOffset_injective {a b : BitVec 6} (h : slotOffset a = slotOffset b) : a = b := by
  rw [← slotOffset_slot a, h, slotOffset_slot]

/-- An access is accepted at a slot exactly when it is 32 bits wide at that slot's offset. -/
theorem acceptSlot_ok {bits : Nat} {off : BitVec 8} {slot : BitVec 6} :
    acceptSlot bits off = .ok slot ↔ bits = 32 ∧ off = slotOffset slot := by
  have key : ∀ off : BitVec 8, off.extractLsb' 0 2 = 0 → slotOffset (off.extractLsb' 2 6) = off := by decide
  constructor
  · intro h
    unfold acceptSlot at h
    split at h
    · cases h
    · split at h
      · cases h
      · rename_i h1 h2
        cases h
        exact ⟨not_not.1 h1, (key off (not_not.1 h2)).symm⟩
  · rintro ⟨rfl, rfl⟩
    simp [acceptSlot]

/-- Every register sits at a word-aligned offset (10_state.md R17). -/
theorem regOffset_eq_slotOffset (r : Reg) : regOffset r = slotOffset (regSlot r) := by
  cases r <;> decide

theorem regSlot_injective {r r' : Reg} (h : regSlot r = regSlot r') : r = r' := by
  have key : ∀ a ∈ allRegs, ∀ b ∈ allRegs, regSlot a = regSlot b → a = b := by decide
  have all : ∀ r : Reg, r ∈ allRegs := by intro r; cases r <;> decide
  exact key r (all r) r' (all r') h

/-- The slot of a register names it (10_state.md R17). -/
@[simp] theorem regAt_regSlot (r : Reg) : regAt (regSlot r) = some r := by
  cases r <;> decide

theorem regAt_eq_some {slot : BitVec 6} {r : Reg} : regAt slot = some r ↔ slot = regSlot r := by
  constructor
  · intro h
    have := List.find?_some h
    exact (beq_iff_eq.1 this).symm
  · rintro rfl; exact regAt_regSlot r

/-- A slot names no register exactly when no register sits at its offset. -/
theorem regAt_eq_none {slot : BitVec 6} : regAt slot = none ↔ ∀ r, regOffset r ≠ slotOffset slot := by
  constructor
  · intro h r he
    rw [regOffset_eq_slotOffset] at he
    rw [← slotOffset_injective he, regAt_regSlot] at h
    cases h
  · intro h
    cases hr : regAt slot with
    | none => rfl
    | some r => exact absurd (by rw [regOffset_eq_slotOffset, (regAt_eq_some.1 hr)]) (h r)

/-- A command word is decoded by the command decoder alone (30_encoding.md R63). -/
theorem decode_commandAccess (v : Word) : decode (commandAccess v) = .ok (decodeCommand v).toInstr := by
  have : acceptSlot 32 (slotOffset Config.cmdSlot) = .ok Config.cmdSlot := acceptSlot_ok.2 ⟨rfl, rfl⟩
  simp [commandAccess, decode, this]

/-- `OPC` is bits 7:0 and `Z` bits 31:8 of a command word (30_encoding.md R64). -/
theorem word_toNat_fields (v : Word) :
    v.toNat = (v.extractLsb' 8 24).toNat * 256 + (v.extractLsb' 0 8).toNat := by
  simp [BitVec.extractLsb'_toNat, Nat.shiftRight_eq_div_pow]
  omega

/-- Bits 1:0 of an offset are its remainder modulo 4. -/
theorem offset_low_eq_zero (off : BitVec 8) : off.extractLsb' 0 2 = 0 ↔ off.toNat % 4 = 0 := by
  revert off; decide

theorem acceptSlot_width {bits : Nat} {off : BitVec 8} (h : bits ≠ 32) : acceptSlot bits off = .error .width := by
  simp [acceptSlot, h]

theorem acceptSlot_misaligned {off : BitVec 8} (h : off.toNat % 4 ≠ 0) :
    acceptSlot 32 off = .error .misaligned := by
  rw [acceptSlot, if_neg (by simp), if_pos (by rwa [Ne, offset_low_eq_zero])]

theorem acceptSlot_aligned {off : BitVec 8} (h : off.toNat % 4 = 0) :
    acceptSlot 32 off = .ok (off.extractLsb' 2 6) := by
  rw [acceptSlot, if_neg (by simp), if_neg (by rw [not_not, offset_low_eq_zero]; exact h)]

end Sys2Proof
end

