-- ==== Sys2Proof/Laws/Memory.lean ====
section
/-! SUPPORT. `BUF` as a canonical list of cells: a read after a write, and that every operation keeps the form. -/

namespace Sys2Proof.Machine

theorem Memory.wfFrom_cons (lo k : Nat) (v : Byte) (m : Memory) :
    Memory.wfFrom lo ((k, v) :: m) = true ↔
      lo ≤ k ∧ k < Config.bufCapacity ∧ v ≠ unlistedByte ∧ Memory.wfFrom (k + 1) m = true := by
  simp [Memory.wfFrom, and_assoc]

theorem Memory.wfFrom_mono {lo lo' : Nat} (h : lo' ≤ lo) :
    ∀ {m : Memory}, Memory.wfFrom lo m = true → Memory.wfFrom lo' m = true
  | [], _ => rfl
  | (k, v) :: m, hw => by
    rw [Memory.wfFrom_cons] at hw ⊢
    exact ⟨h.trans hw.1, hw.2⟩

/-- Below the first listed address a canonical memory lists nothing. -/
theorem Memory.read_below {lo a : Nat} (h : a < lo) :
    ∀ {m : Memory}, Memory.wfFrom lo m = true → m.read a = unlistedByte
  | [], _ => rfl
  | (k, v) :: m, hw => by
    rw [Memory.wfFrom_cons] at hw
    have hk : a ≠ k := by omega
    simp only [Memory.read, hk, if_false]
    exact Memory.read_below (by omega) hw.2.2.2

theorem Memory.wfFrom_write {lo a : Nat} {b : Byte} (hlo : lo ≤ a) (ha : a < Config.bufCapacity) :
    ∀ {m : Memory}, Memory.wfFrom lo m = true → Memory.wfFrom lo (m.write a b) = true
  | [], _ => by
    by_cases hb : b = unlistedByte
    · simp [Memory.write, hb, Memory.wfFrom]
    · simp [Memory.write, hb, Memory.wfFrom, hlo, ha]
  | (k, v) :: m, hw => by
    have hw' := (Memory.wfFrom_cons lo k v m).1 hw
    simp only [Memory.write]
    split
    · split
      · exact hw
      · rw [Memory.wfFrom_cons, Memory.wfFrom_cons]
        exact ⟨hlo, ha, ‹_›, by omega, hw'.2⟩
    · split
      · split
        · exact Memory.wfFrom_mono (by omega) hw'.2.2.2
        · subst a
          rw [Memory.wfFrom_cons]
          exact ⟨hlo, ha, ‹_›, hw'.2.2.2⟩
      · rw [Memory.wfFrom_cons]
        exact ⟨hw'.1, hw'.2.1, hw'.2.2.1, Memory.wfFrom_write (by omega) ha hw'.2.2.2⟩

/-- A read after a write: the byte written at its address, every other byte as before. -/
theorem Memory.read_write {a : Nat} {b : Byte} (x : Nat) {lo : Nat} :
    ∀ {m : Memory}, Memory.wfFrom lo m = true → (m.write a b).read x = if x = a then b else m.read x
  | [], _ => by
    by_cases hb : b = unlistedByte <;> simp [Memory.write, hb, Memory.read]
  | (k, v) :: m, hw => by
    have hw' := (Memory.wfFrom_cons lo k v m).1 hw
    simp only [Memory.write]
    by_cases h1 : a < k
    · have hbelow : Memory.read m a = unlistedByte := Memory.read_below (by omega) hw'.2.2.2
      have hak : a ≠ k := by omega
      by_cases hb : b = unlistedByte
      · by_cases hx : x = a
        · subst hx; simp [h1, hb, Memory.read, hak, hbelow]
        · simp [h1, hb, hx]
      · by_cases hx : x = a <;> simp [h1, hb, Memory.read, hx]
    · by_cases h2 : a = k
      · subst h2
        have hbelow : Memory.read m a = unlistedByte := Memory.read_below (by omega) hw'.2.2.2
        by_cases hb : b = unlistedByte
        · by_cases hx : x = a
          · subst hx; simp [hb, hbelow]
          · simp [hb, Memory.read, hx]
        · by_cases hx : x = a <;> simp [hb, Memory.read, hx]
      · have ih := Memory.read_write (a := a) (b := b) x hw'.2.2.2
        by_cases hx : x = k
        · subst hx
          have : x ≠ a := fun h => h2 h.symm
          simp [h1, h2, Memory.read, this]
        · simp [h1, h2, Memory.read, hx, ih]

/-- Writing a list of bytes succeeds exactly when each of them has a place in `BUF`. -/
theorem Memory.writeAll_eq_none {bs : List Byte} :
    ∀ {m : Memory} {a : Nat}, m.writeAll a bs = none ↔ bs ≠ [] ∧ Config.bufCapacity < a + bs.length := by
  induction bs with
  | nil => simp [Memory.writeAll]
  | cons b bs ih =>
    intro m a
    simp only [Memory.writeAll]
    by_cases ha : a < Config.bufCapacity
    · rw [if_pos ha, ih]
      cases bs with
      | nil => simp; omega
      | cons c cs => simp; omega
    · simp [ha]; omega

theorem Memory.writeAll_some_of_le {bs : List Byte} {m : Memory} {a : Nat}
    (h : a + bs.length ≤ Config.bufCapacity) : ∃ m', m.writeAll a bs = some m' := by
  cases hm : m.writeAll a bs with
  | some m' => exact ⟨m', rfl⟩
  | none => have := (Memory.writeAll_eq_none.1 hm).2; omega

/-- Everything a successful `writeAll` does. -/
theorem Memory.writeAll_spec {bs : List Byte} :
    ∀ {m m' : Memory} {a : Nat}, m.wf = true → m.writeAll a bs = some m' →
      m'.wf = true ∧
      (∀ x, m'.read x = if a ≤ x ∧ x < a + bs.length then bs.getD (x - a) 0 else m.read x) ∧
      (bs ≠ [] → a + bs.length ≤ Config.bufCapacity) := by
  induction bs with
  | nil =>
    intro m m' a hm h
    simp only [Memory.writeAll, Option.some.injEq] at h
    subst h
    refine ⟨hm, fun x => ?_, fun h => absurd rfl h⟩
    rw [if_neg]; simp
  | cons b bs ih =>
    intro m m' a hm h
    simp only [Memory.writeAll] at h
    split at h
    · rename_i ha
      have hw : (m.write a b).wf = true := Memory.wfFrom_write (Nat.zero_le _) ha hm
      obtain ⟨h1, h2, h3⟩ := ih hw h
      refine ⟨h1, fun x => ?_, fun _ => ?_⟩
      · rw [h2 x, Memory.read_write x hm]
        by_cases hx : x = a
        · subst hx; simp
        · by_cases hx2 : a + 1 ≤ x ∧ x < a + 1 + bs.length
          · have e : x - a = (x - (a + 1)) + 1 := by omega
            rw [if_pos hx2, if_pos (by simp; omega), e]; simp
          · rw [if_neg hx2, if_neg hx, if_neg (by simp; omega)]
      · cases bs with
        | nil => simp; omega
        | cons c cs => have := h3 (by simp); simp at this ⊢; omega
    · cases h

theorem Memory.wf_nil : Memory.wf [] = true := rfl

/-- A memory made of a function on a range of addresses is canonical. -/
theorem Memory.wfFrom_filterMap (f : Nat → Byte) (n : Nat) :
    ∀ lo, lo + n ≤ Config.bufCapacity →
      Memory.wfFrom lo ((List.range' lo n).filterMap fun i =>
        if f i = unlistedByte then none else some (i, f i)) = true := by
  induction n with
  | zero => intro lo _; rfl
  | succ n ih =>
    intro lo h
    have hrest := ih (lo + 1) (by omega)
    rw [List.range'_succ, List.filterMap_cons]
    by_cases hf : f lo = unlistedByte
    · simp only [hf, if_true]
      exact Memory.wfFrom_mono (by omega) hrest
    · simp only [hf, if_false]
      rw [Memory.wfFrom_cons]
      exact ⟨le_rfl, by omega, hf, hrest⟩

/-- `BUF` after a block reset is canonical, whatever was drawn. -/
theorem drawnBuf_wf (n : Nat) : (drawnBuf n).wf = true := by
  unfold drawnBuf Memory.wf
  rw [List.range_eq_range']
  exact Memory.wfFrom_filterMap (Config.bufDraw n) Config.bufCapacity 0 (by simp)

theorem reset_buf_wf : State.reset.buf.wf = true := rfl

end Sys2Proof.Machine
end

