-- ==== Sys2Proof/Laws/State.lean ====
section
/-! SUPPORT. One lemma per field per update of State, true by rfl: later proofs unfold no record update. -/

namespace Sys2Proof.Machine

variable (s : State)

@[simp] theorem withFrame_frame (v : FrameRegs) : (s.withFrame v).frame = v := rfl
@[simp] theorem withFrame_field (v : FrameRegs) : (s.withFrame v).field = s.field := rfl
@[simp] theorem withFrame_fieldRes (v : FrameRegs) : (s.withFrame v).fieldRes = s.fieldRes := rfl
@[simp] theorem withFrame_csum (v : FrameRegs) : (s.withFrame v).csum = s.csum := rfl
@[simp] theorem withFrame_csumRes (v : FrameRegs) : (s.withFrame v).csumRes = s.csumRes := rfl
@[simp] theorem withFrame_tpCfg (v : FrameRegs) : (s.withFrame v).tpCfg = s.tpCfg := rfl
@[simp] theorem withFrame_bufPtr (v : FrameRegs) : (s.withFrame v).bufPtr = s.bufPtr := rfl
@[simp] theorem withFrame_session (v : FrameRegs) : (s.withFrame v).session = s.session := rfl
@[simp] theorem withFrame_buf (v : FrameRegs) : (s.withFrame v).buf = s.buf := rfl
@[simp] theorem withFrame_fc (v : FrameRegs) : (s.withFrame v).fc = s.fc := rfl
@[simp] theorem withFrame_status (v : FrameRegs) : (s.withFrame v).status = s.status := rfl
@[simp] theorem withFrame_inReset (v : FrameRegs) : (s.withFrame v).inReset = s.inReset := rfl
@[simp] theorem withFrame_bus (v : FrameRegs) : (s.withFrame v).bus = s.bus := rfl
@[simp] theorem withFrame_lastRead (v : FrameRegs) : (s.withFrame v).lastRead = s.lastRead := rfl
@[simp] theorem withFrame_draws (v : FrameRegs) : (s.withFrame v).draws = s.draws := rfl

@[simp] theorem withField_frame (v : FieldRegs) : (s.withField v).frame = s.frame := rfl
@[simp] theorem withField_field (v : FieldRegs) : (s.withField v).field = v := rfl
@[simp] theorem withField_fieldRes (v : FieldRegs) : (s.withField v).fieldRes = s.fieldRes := rfl
@[simp] theorem withField_csum (v : FieldRegs) : (s.withField v).csum = s.csum := rfl
@[simp] theorem withField_csumRes (v : FieldRegs) : (s.withField v).csumRes = s.csumRes := rfl
@[simp] theorem withField_tpCfg (v : FieldRegs) : (s.withField v).tpCfg = s.tpCfg := rfl
@[simp] theorem withField_bufPtr (v : FieldRegs) : (s.withField v).bufPtr = s.bufPtr := rfl
@[simp] theorem withField_session (v : FieldRegs) : (s.withField v).session = s.session := rfl
@[simp] theorem withField_buf (v : FieldRegs) : (s.withField v).buf = s.buf := rfl
@[simp] theorem withField_fc (v : FieldRegs) : (s.withField v).fc = s.fc := rfl
@[simp] theorem withField_status (v : FieldRegs) : (s.withField v).status = s.status := rfl
@[simp] theorem withField_inReset (v : FieldRegs) : (s.withField v).inReset = s.inReset := rfl
@[simp] theorem withField_bus (v : FieldRegs) : (s.withField v).bus = s.bus := rfl
@[simp] theorem withField_lastRead (v : FieldRegs) : (s.withField v).lastRead = s.lastRead := rfl
@[simp] theorem withField_draws (v : FieldRegs) : (s.withField v).draws = s.draws := rfl

@[simp] theorem withFieldRes_frame (v : FieldResult) : (s.withFieldRes v).frame = s.frame := rfl
@[simp] theorem withFieldRes_field (v : FieldResult) : (s.withFieldRes v).field = s.field := rfl
@[simp] theorem withFieldRes_fieldRes (v : FieldResult) : (s.withFieldRes v).fieldRes = v := rfl
@[simp] theorem withFieldRes_csum (v : FieldResult) : (s.withFieldRes v).csum = s.csum := rfl
@[simp] theorem withFieldRes_csumRes (v : FieldResult) : (s.withFieldRes v).csumRes = s.csumRes := rfl
@[simp] theorem withFieldRes_tpCfg (v : FieldResult) : (s.withFieldRes v).tpCfg = s.tpCfg := rfl
@[simp] theorem withFieldRes_bufPtr (v : FieldResult) : (s.withFieldRes v).bufPtr = s.bufPtr := rfl
@[simp] theorem withFieldRes_session (v : FieldResult) : (s.withFieldRes v).session = s.session := rfl
@[simp] theorem withFieldRes_buf (v : FieldResult) : (s.withFieldRes v).buf = s.buf := rfl
@[simp] theorem withFieldRes_fc (v : FieldResult) : (s.withFieldRes v).fc = s.fc := rfl
@[simp] theorem withFieldRes_status (v : FieldResult) : (s.withFieldRes v).status = s.status := rfl
@[simp] theorem withFieldRes_inReset (v : FieldResult) : (s.withFieldRes v).inReset = s.inReset := rfl
@[simp] theorem withFieldRes_bus (v : FieldResult) : (s.withFieldRes v).bus = s.bus := rfl
@[simp] theorem withFieldRes_lastRead (v : FieldResult) : (s.withFieldRes v).lastRead = s.lastRead := rfl
@[simp] theorem withFieldRes_draws (v : FieldResult) : (s.withFieldRes v).draws = s.draws := rfl

@[simp] theorem withCsum_frame (v : ChecksumRegs) : (s.withCsum v).frame = s.frame := rfl
@[simp] theorem withCsum_field (v : ChecksumRegs) : (s.withCsum v).field = s.field := rfl
@[simp] theorem withCsum_fieldRes (v : ChecksumRegs) : (s.withCsum v).fieldRes = s.fieldRes := rfl
@[simp] theorem withCsum_csum (v : ChecksumRegs) : (s.withCsum v).csum = v := rfl
@[simp] theorem withCsum_csumRes (v : ChecksumRegs) : (s.withCsum v).csumRes = s.csumRes := rfl
@[simp] theorem withCsum_tpCfg (v : ChecksumRegs) : (s.withCsum v).tpCfg = s.tpCfg := rfl
@[simp] theorem withCsum_bufPtr (v : ChecksumRegs) : (s.withCsum v).bufPtr = s.bufPtr := rfl
@[simp] theorem withCsum_session (v : ChecksumRegs) : (s.withCsum v).session = s.session := rfl
@[simp] theorem withCsum_buf (v : ChecksumRegs) : (s.withCsum v).buf = s.buf := rfl
@[simp] theorem withCsum_fc (v : ChecksumRegs) : (s.withCsum v).fc = s.fc := rfl
@[simp] theorem withCsum_status (v : ChecksumRegs) : (s.withCsum v).status = s.status := rfl
@[simp] theorem withCsum_inReset (v : ChecksumRegs) : (s.withCsum v).inReset = s.inReset := rfl
@[simp] theorem withCsum_bus (v : ChecksumRegs) : (s.withCsum v).bus = s.bus := rfl
@[simp] theorem withCsum_lastRead (v : ChecksumRegs) : (s.withCsum v).lastRead = s.lastRead := rfl
@[simp] theorem withCsum_draws (v : ChecksumRegs) : (s.withCsum v).draws = s.draws := rfl

@[simp] theorem withCsumRes_frame (v : ChecksumResult) : (s.withCsumRes v).frame = s.frame := rfl
@[simp] theorem withCsumRes_field (v : ChecksumResult) : (s.withCsumRes v).field = s.field := rfl
@[simp] theorem withCsumRes_fieldRes (v : ChecksumResult) : (s.withCsumRes v).fieldRes = s.fieldRes := rfl
@[simp] theorem withCsumRes_csum (v : ChecksumResult) : (s.withCsumRes v).csum = s.csum := rfl
@[simp] theorem withCsumRes_csumRes (v : ChecksumResult) : (s.withCsumRes v).csumRes = v := rfl
@[simp] theorem withCsumRes_tpCfg (v : ChecksumResult) : (s.withCsumRes v).tpCfg = s.tpCfg := rfl
@[simp] theorem withCsumRes_bufPtr (v : ChecksumResult) : (s.withCsumRes v).bufPtr = s.bufPtr := rfl
@[simp] theorem withCsumRes_session (v : ChecksumResult) : (s.withCsumRes v).session = s.session := rfl
@[simp] theorem withCsumRes_buf (v : ChecksumResult) : (s.withCsumRes v).buf = s.buf := rfl
@[simp] theorem withCsumRes_fc (v : ChecksumResult) : (s.withCsumRes v).fc = s.fc := rfl
@[simp] theorem withCsumRes_status (v : ChecksumResult) : (s.withCsumRes v).status = s.status := rfl
@[simp] theorem withCsumRes_inReset (v : ChecksumResult) : (s.withCsumRes v).inReset = s.inReset := rfl
@[simp] theorem withCsumRes_bus (v : ChecksumResult) : (s.withCsumRes v).bus = s.bus := rfl
@[simp] theorem withCsumRes_lastRead (v : ChecksumResult) : (s.withCsumRes v).lastRead = s.lastRead := rfl
@[simp] theorem withCsumRes_draws (v : ChecksumResult) : (s.withCsumRes v).draws = s.draws := rfl

@[simp] theorem withTpCfg_frame (v : TpConfig) : (s.withTpCfg v).frame = s.frame := rfl
@[simp] theorem withTpCfg_field (v : TpConfig) : (s.withTpCfg v).field = s.field := rfl
@[simp] theorem withTpCfg_fieldRes (v : TpConfig) : (s.withTpCfg v).fieldRes = s.fieldRes := rfl
@[simp] theorem withTpCfg_csum (v : TpConfig) : (s.withTpCfg v).csum = s.csum := rfl
@[simp] theorem withTpCfg_csumRes (v : TpConfig) : (s.withTpCfg v).csumRes = s.csumRes := rfl
@[simp] theorem withTpCfg_tpCfg (v : TpConfig) : (s.withTpCfg v).tpCfg = v := rfl
@[simp] theorem withTpCfg_bufPtr (v : TpConfig) : (s.withTpCfg v).bufPtr = s.bufPtr := rfl
@[simp] theorem withTpCfg_session (v : TpConfig) : (s.withTpCfg v).session = s.session := rfl
@[simp] theorem withTpCfg_buf (v : TpConfig) : (s.withTpCfg v).buf = s.buf := rfl
@[simp] theorem withTpCfg_fc (v : TpConfig) : (s.withTpCfg v).fc = s.fc := rfl
@[simp] theorem withTpCfg_status (v : TpConfig) : (s.withTpCfg v).status = s.status := rfl
@[simp] theorem withTpCfg_inReset (v : TpConfig) : (s.withTpCfg v).inReset = s.inReset := rfl
@[simp] theorem withTpCfg_bus (v : TpConfig) : (s.withTpCfg v).bus = s.bus := rfl
@[simp] theorem withTpCfg_lastRead (v : TpConfig) : (s.withTpCfg v).lastRead = s.lastRead := rfl
@[simp] theorem withTpCfg_draws (v : TpConfig) : (s.withTpCfg v).draws = s.draws := rfl

@[simp] theorem withBufPtr_frame (v : BitVec 13) : (s.withBufPtr v).frame = s.frame := rfl
@[simp] theorem withBufPtr_field (v : BitVec 13) : (s.withBufPtr v).field = s.field := rfl
@[simp] theorem withBufPtr_fieldRes (v : BitVec 13) : (s.withBufPtr v).fieldRes = s.fieldRes := rfl
@[simp] theorem withBufPtr_csum (v : BitVec 13) : (s.withBufPtr v).csum = s.csum := rfl
@[simp] theorem withBufPtr_csumRes (v : BitVec 13) : (s.withBufPtr v).csumRes = s.csumRes := rfl
@[simp] theorem withBufPtr_tpCfg (v : BitVec 13) : (s.withBufPtr v).tpCfg = s.tpCfg := rfl
@[simp] theorem withBufPtr_bufPtr (v : BitVec 13) : (s.withBufPtr v).bufPtr = v := rfl
@[simp] theorem withBufPtr_session (v : BitVec 13) : (s.withBufPtr v).session = s.session := rfl
@[simp] theorem withBufPtr_buf (v : BitVec 13) : (s.withBufPtr v).buf = s.buf := rfl
@[simp] theorem withBufPtr_fc (v : BitVec 13) : (s.withBufPtr v).fc = s.fc := rfl
@[simp] theorem withBufPtr_status (v : BitVec 13) : (s.withBufPtr v).status = s.status := rfl
@[simp] theorem withBufPtr_inReset (v : BitVec 13) : (s.withBufPtr v).inReset = s.inReset := rfl
@[simp] theorem withBufPtr_bus (v : BitVec 13) : (s.withBufPtr v).bus = s.bus := rfl
@[simp] theorem withBufPtr_lastRead (v : BitVec 13) : (s.withBufPtr v).lastRead = s.lastRead := rfl
@[simp] theorem withBufPtr_draws (v : BitVec 13) : (s.withBufPtr v).draws = s.draws := rfl

@[simp] theorem withSession_frame (v : Session) : (s.withSession v).frame = s.frame := rfl
@[simp] theorem withSession_field (v : Session) : (s.withSession v).field = s.field := rfl
@[simp] theorem withSession_fieldRes (v : Session) : (s.withSession v).fieldRes = s.fieldRes := rfl
@[simp] theorem withSession_csum (v : Session) : (s.withSession v).csum = s.csum := rfl
@[simp] theorem withSession_csumRes (v : Session) : (s.withSession v).csumRes = s.csumRes := rfl
@[simp] theorem withSession_tpCfg (v : Session) : (s.withSession v).tpCfg = s.tpCfg := rfl
@[simp] theorem withSession_bufPtr (v : Session) : (s.withSession v).bufPtr = s.bufPtr := rfl
@[simp] theorem withSession_session (v : Session) : (s.withSession v).session = v := rfl
@[simp] theorem withSession_buf (v : Session) : (s.withSession v).buf = s.buf := rfl
@[simp] theorem withSession_fc (v : Session) : (s.withSession v).fc = s.fc := rfl
@[simp] theorem withSession_status (v : Session) : (s.withSession v).status = s.status := rfl
@[simp] theorem withSession_inReset (v : Session) : (s.withSession v).inReset = s.inReset := rfl
@[simp] theorem withSession_bus (v : Session) : (s.withSession v).bus = s.bus := rfl
@[simp] theorem withSession_lastRead (v : Session) : (s.withSession v).lastRead = s.lastRead := rfl
@[simp] theorem withSession_draws (v : Session) : (s.withSession v).draws = s.draws := rfl

@[simp] theorem withBuf_frame (v : Memory) : (s.withBuf v).frame = s.frame := rfl
@[simp] theorem withBuf_field (v : Memory) : (s.withBuf v).field = s.field := rfl
@[simp] theorem withBuf_fieldRes (v : Memory) : (s.withBuf v).fieldRes = s.fieldRes := rfl
@[simp] theorem withBuf_csum (v : Memory) : (s.withBuf v).csum = s.csum := rfl
@[simp] theorem withBuf_csumRes (v : Memory) : (s.withBuf v).csumRes = s.csumRes := rfl
@[simp] theorem withBuf_tpCfg (v : Memory) : (s.withBuf v).tpCfg = s.tpCfg := rfl
@[simp] theorem withBuf_bufPtr (v : Memory) : (s.withBuf v).bufPtr = s.bufPtr := rfl
@[simp] theorem withBuf_session (v : Memory) : (s.withBuf v).session = s.session := rfl
@[simp] theorem withBuf_buf (v : Memory) : (s.withBuf v).buf = v := rfl
@[simp] theorem withBuf_fc (v : Memory) : (s.withBuf v).fc = s.fc := rfl
@[simp] theorem withBuf_status (v : Memory) : (s.withBuf v).status = s.status := rfl
@[simp] theorem withBuf_inReset (v : Memory) : (s.withBuf v).inReset = s.inReset := rfl
@[simp] theorem withBuf_bus (v : Memory) : (s.withBuf v).bus = s.bus := rfl
@[simp] theorem withBuf_lastRead (v : Memory) : (s.withBuf v).lastRead = s.lastRead := rfl
@[simp] theorem withBuf_draws (v : Memory) : (s.withBuf v).draws = s.draws := rfl

@[simp] theorem withFc_frame (v : FcOut) : (s.withFc v).frame = s.frame := rfl
@[simp] theorem withFc_field (v : FcOut) : (s.withFc v).field = s.field := rfl
@[simp] theorem withFc_fieldRes (v : FcOut) : (s.withFc v).fieldRes = s.fieldRes := rfl
@[simp] theorem withFc_csum (v : FcOut) : (s.withFc v).csum = s.csum := rfl
@[simp] theorem withFc_csumRes (v : FcOut) : (s.withFc v).csumRes = s.csumRes := rfl
@[simp] theorem withFc_tpCfg (v : FcOut) : (s.withFc v).tpCfg = s.tpCfg := rfl
@[simp] theorem withFc_bufPtr (v : FcOut) : (s.withFc v).bufPtr = s.bufPtr := rfl
@[simp] theorem withFc_session (v : FcOut) : (s.withFc v).session = s.session := rfl
@[simp] theorem withFc_buf (v : FcOut) : (s.withFc v).buf = s.buf := rfl
@[simp] theorem withFc_fc (v : FcOut) : (s.withFc v).fc = v := rfl
@[simp] theorem withFc_status (v : FcOut) : (s.withFc v).status = s.status := rfl
@[simp] theorem withFc_inReset (v : FcOut) : (s.withFc v).inReset = s.inReset := rfl
@[simp] theorem withFc_bus (v : FcOut) : (s.withFc v).bus = s.bus := rfl
@[simp] theorem withFc_lastRead (v : FcOut) : (s.withFc v).lastRead = s.lastRead := rfl
@[simp] theorem withFc_draws (v : FcOut) : (s.withFc v).draws = s.draws := rfl

@[simp] theorem withStatus_frame (v : CmdStatus) : (s.withStatus v).frame = s.frame := rfl
@[simp] theorem withStatus_field (v : CmdStatus) : (s.withStatus v).field = s.field := rfl
@[simp] theorem withStatus_fieldRes (v : CmdStatus) : (s.withStatus v).fieldRes = s.fieldRes := rfl
@[simp] theorem withStatus_csum (v : CmdStatus) : (s.withStatus v).csum = s.csum := rfl
@[simp] theorem withStatus_csumRes (v : CmdStatus) : (s.withStatus v).csumRes = s.csumRes := rfl
@[simp] theorem withStatus_tpCfg (v : CmdStatus) : (s.withStatus v).tpCfg = s.tpCfg := rfl
@[simp] theorem withStatus_bufPtr (v : CmdStatus) : (s.withStatus v).bufPtr = s.bufPtr := rfl
@[simp] theorem withStatus_session (v : CmdStatus) : (s.withStatus v).session = s.session := rfl
@[simp] theorem withStatus_buf (v : CmdStatus) : (s.withStatus v).buf = s.buf := rfl
@[simp] theorem withStatus_fc (v : CmdStatus) : (s.withStatus v).fc = s.fc := rfl
@[simp] theorem withStatus_status (v : CmdStatus) : (s.withStatus v).status = v := rfl
@[simp] theorem withStatus_inReset (v : CmdStatus) : (s.withStatus v).inReset = s.inReset := rfl
@[simp] theorem withStatus_bus (v : CmdStatus) : (s.withStatus v).bus = s.bus := rfl
@[simp] theorem withStatus_lastRead (v : CmdStatus) : (s.withStatus v).lastRead = s.lastRead := rfl
@[simp] theorem withStatus_draws (v : CmdStatus) : (s.withStatus v).draws = s.draws := rfl

@[simp] theorem withInReset_frame (v : Bool) : (s.withInReset v).frame = s.frame := rfl
@[simp] theorem withInReset_field (v : Bool) : (s.withInReset v).field = s.field := rfl
@[simp] theorem withInReset_fieldRes (v : Bool) : (s.withInReset v).fieldRes = s.fieldRes := rfl
@[simp] theorem withInReset_csum (v : Bool) : (s.withInReset v).csum = s.csum := rfl
@[simp] theorem withInReset_csumRes (v : Bool) : (s.withInReset v).csumRes = s.csumRes := rfl
@[simp] theorem withInReset_tpCfg (v : Bool) : (s.withInReset v).tpCfg = s.tpCfg := rfl
@[simp] theorem withInReset_bufPtr (v : Bool) : (s.withInReset v).bufPtr = s.bufPtr := rfl
@[simp] theorem withInReset_session (v : Bool) : (s.withInReset v).session = s.session := rfl
@[simp] theorem withInReset_buf (v : Bool) : (s.withInReset v).buf = s.buf := rfl
@[simp] theorem withInReset_fc (v : Bool) : (s.withInReset v).fc = s.fc := rfl
@[simp] theorem withInReset_status (v : Bool) : (s.withInReset v).status = s.status := rfl
@[simp] theorem withInReset_inReset (v : Bool) : (s.withInReset v).inReset = v := rfl
@[simp] theorem withInReset_bus (v : Bool) : (s.withInReset v).bus = s.bus := rfl
@[simp] theorem withInReset_lastRead (v : Bool) : (s.withInReset v).lastRead = s.lastRead := rfl
@[simp] theorem withInReset_draws (v : Bool) : (s.withInReset v).draws = s.draws := rfl

@[simp] theorem withBus_frame (v : List HostEvent) : (s.withBus v).frame = s.frame := rfl
@[simp] theorem withBus_field (v : List HostEvent) : (s.withBus v).field = s.field := rfl
@[simp] theorem withBus_fieldRes (v : List HostEvent) : (s.withBus v).fieldRes = s.fieldRes := rfl
@[simp] theorem withBus_csum (v : List HostEvent) : (s.withBus v).csum = s.csum := rfl
@[simp] theorem withBus_csumRes (v : List HostEvent) : (s.withBus v).csumRes = s.csumRes := rfl
@[simp] theorem withBus_tpCfg (v : List HostEvent) : (s.withBus v).tpCfg = s.tpCfg := rfl
@[simp] theorem withBus_bufPtr (v : List HostEvent) : (s.withBus v).bufPtr = s.bufPtr := rfl
@[simp] theorem withBus_session (v : List HostEvent) : (s.withBus v).session = s.session := rfl
@[simp] theorem withBus_buf (v : List HostEvent) : (s.withBus v).buf = s.buf := rfl
@[simp] theorem withBus_fc (v : List HostEvent) : (s.withBus v).fc = s.fc := rfl
@[simp] theorem withBus_status (v : List HostEvent) : (s.withBus v).status = s.status := rfl
@[simp] theorem withBus_inReset (v : List HostEvent) : (s.withBus v).inReset = s.inReset := rfl
@[simp] theorem withBus_bus (v : List HostEvent) : (s.withBus v).bus = v := rfl
@[simp] theorem withBus_lastRead (v : List HostEvent) : (s.withBus v).lastRead = s.lastRead := rfl
@[simp] theorem withBus_draws (v : List HostEvent) : (s.withBus v).draws = s.draws := rfl

@[simp] theorem withLastRead_frame (v : Option Word) : (s.withLastRead v).frame = s.frame := rfl
@[simp] theorem withLastRead_field (v : Option Word) : (s.withLastRead v).field = s.field := rfl
@[simp] theorem withLastRead_fieldRes (v : Option Word) : (s.withLastRead v).fieldRes = s.fieldRes := rfl
@[simp] theorem withLastRead_csum (v : Option Word) : (s.withLastRead v).csum = s.csum := rfl
@[simp] theorem withLastRead_csumRes (v : Option Word) : (s.withLastRead v).csumRes = s.csumRes := rfl
@[simp] theorem withLastRead_tpCfg (v : Option Word) : (s.withLastRead v).tpCfg = s.tpCfg := rfl
@[simp] theorem withLastRead_bufPtr (v : Option Word) : (s.withLastRead v).bufPtr = s.bufPtr := rfl
@[simp] theorem withLastRead_session (v : Option Word) : (s.withLastRead v).session = s.session := rfl
@[simp] theorem withLastRead_buf (v : Option Word) : (s.withLastRead v).buf = s.buf := rfl
@[simp] theorem withLastRead_fc (v : Option Word) : (s.withLastRead v).fc = s.fc := rfl
@[simp] theorem withLastRead_status (v : Option Word) : (s.withLastRead v).status = s.status := rfl
@[simp] theorem withLastRead_inReset (v : Option Word) : (s.withLastRead v).inReset = s.inReset := rfl
@[simp] theorem withLastRead_bus (v : Option Word) : (s.withLastRead v).bus = s.bus := rfl
@[simp] theorem withLastRead_lastRead (v : Option Word) : (s.withLastRead v).lastRead = v := rfl
@[simp] theorem withLastRead_draws (v : Option Word) : (s.withLastRead v).draws = s.draws := rfl

@[simp] theorem withDraws_frame (v : Nat) : (s.withDraws v).frame = s.frame := rfl
@[simp] theorem withDraws_field (v : Nat) : (s.withDraws v).field = s.field := rfl
@[simp] theorem withDraws_fieldRes (v : Nat) : (s.withDraws v).fieldRes = s.fieldRes := rfl
@[simp] theorem withDraws_csum (v : Nat) : (s.withDraws v).csum = s.csum := rfl
@[simp] theorem withDraws_csumRes (v : Nat) : (s.withDraws v).csumRes = s.csumRes := rfl
@[simp] theorem withDraws_tpCfg (v : Nat) : (s.withDraws v).tpCfg = s.tpCfg := rfl
@[simp] theorem withDraws_bufPtr (v : Nat) : (s.withDraws v).bufPtr = s.bufPtr := rfl
@[simp] theorem withDraws_session (v : Nat) : (s.withDraws v).session = s.session := rfl
@[simp] theorem withDraws_buf (v : Nat) : (s.withDraws v).buf = s.buf := rfl
@[simp] theorem withDraws_fc (v : Nat) : (s.withDraws v).fc = s.fc := rfl
@[simp] theorem withDraws_status (v : Nat) : (s.withDraws v).status = s.status := rfl
@[simp] theorem withDraws_inReset (v : Nat) : (s.withDraws v).inReset = s.inReset := rfl
@[simp] theorem withDraws_bus (v : Nat) : (s.withDraws v).bus = s.bus := rfl
@[simp] theorem withDraws_lastRead (v : Nat) : (s.withDraws v).lastRead = s.lastRead := rfl
@[simp] theorem withDraws_draws (v : Nat) : (s.withDraws v).draws = v := rfl

end Sys2Proof.Machine
end

