-- ==== Sys2Proof/Laws/Ops.lean ====
section
/-! SUPPORT. What each shared operation can do, said once: the ends of a command, the bus port, the checks of XU and
CU, the two frame steps of TU, and one step. -/

namespace Sys2Proof.Machine

variable (s : State)

/-- 60_exceptions.md R124: a raise is an update of `CMD_STATUS` and nothing else. -/
theorem raiseCode_eq (c : StatusCode) :
    raiseCode c s = { s with status := { code := c, consumed := false } } := rfl

/-- 00_scope.md R11: the normal end of a command is an update of `CMD_STATUS` and nothing else. -/
theorem doneWith_eq (b : Bool) : doneWith b s = { s with status := { code := .ok, consumed := b } } := rfl

@[simp] theorem raiseCode_status (c : StatusCode) :
    (raiseCode c s).status = { code := c, consumed := false } := rfl
@[simp] theorem doneWith_status (b : Bool) : (doneWith b s).status = { code := .ok, consumed := b } := rfl
@[simp] theorem raiseCode_session (c : StatusCode) : (raiseCode c s).session = s.session := rfl
@[simp] theorem doneWith_session (b : Bool) : (doneWith b s).session = s.session := rfl
@[simp] theorem raiseCode_buf (c : StatusCode) : (raiseCode c s).buf = s.buf := rfl
@[simp] theorem doneWith_buf (b : Bool) : (doneWith b s).buf = s.buf := rfl
@[simp] theorem raiseCode_fc (c : StatusCode) : (raiseCode c s).fc = s.fc := rfl
@[simp] theorem doneWith_fc (b : Bool) : (doneWith b s).fc = s.fc := rfl
@[simp] theorem raiseCode_csumRes (c : StatusCode) : (raiseCode c s).csumRes = s.csumRes := rfl
@[simp] theorem doneWith_csumRes (b : Bool) : (doneWith b s).csumRes = s.csumRes := rfl
@[simp] theorem raiseCode_fieldRes (c : StatusCode) : (raiseCode c s).fieldRes = s.fieldRes := rfl
@[simp] theorem doneWith_fieldRes (b : Bool) : (doneWith b s).fieldRes = s.fieldRes := rfl

/-! 70_reset_and_hazards.md R137, R138: what block reset leaves, field by field. -/

@[simp] theorem blockReset_frame : (blockReset s).frame = State.reset.frame := rfl
@[simp] theorem blockReset_field : (blockReset s).field = State.reset.field := rfl
@[simp] theorem blockReset_fieldRes : (blockReset s).fieldRes = State.reset.fieldRes := rfl
@[simp] theorem blockReset_csum : (blockReset s).csum = State.reset.csum := rfl
@[simp] theorem blockReset_csumRes : (blockReset s).csumRes = State.reset.csumRes := rfl
@[simp] theorem blockReset_tpCfg : (blockReset s).tpCfg = State.reset.tpCfg := rfl
@[simp] theorem blockReset_bufPtr : (blockReset s).bufPtr = State.reset.bufPtr := rfl
@[simp] theorem blockReset_session : (blockReset s).session = State.reset.session := rfl
@[simp] theorem blockReset_fc : (blockReset s).fc = State.reset.fc := rfl
@[simp] theorem blockReset_status : (blockReset s).status = State.reset.status := rfl
@[simp] theorem blockReset_buf : (blockReset s).buf = drawnBuf s.draws := rfl
@[simp] theorem blockReset_inReset : (blockReset s).inReset = true := rfl
@[simp] theorem blockReset_bus : (blockReset s).bus = s.bus := rfl
@[simp] theorem blockReset_lastRead : (blockReset s).lastRead = s.lastRead := rfl
@[simp] theorem blockReset_draws : (blockReset s).draws = s.draws + 1 := rfl

/-- 40_extractor.md R76: the field check in its order. -/
theorem fieldCheck_cases (f : FrameRegs) (d : FieldRegs) :
    (8 < f.dlc.toNat ∧ fieldCheck f d = some .badFrame) ∨
    (f.dlc.toNat ≤ 8 ∧ (d.width.toNat = 0 ∨ 8 * f.dlc.toNat < d.start.toNat + d.width.toNat) ∧
      fieldCheck f d = some .outOfRange) ∨
    (f.dlc.toNat ≤ 8 ∧ d.width.toNat ≠ 0 ∧ d.start.toNat + d.width.toNat ≤ 8 * f.dlc.toNat ∧
      fieldCheck f d = none) := by
  by_cases h1 : Config.maxDlc < f.dlc.toNat
  · exact .inl ⟨h1, by simp [fieldCheck, h1]⟩
  · have h1' : f.dlc.toNat ≤ 8 := not_lt.1 h1
    by_cases h2 : d.width.toNat = 0 ∨ 8 * f.dlc.toNat < d.start.toNat + d.width.toNat
    · exact .inr (.inl ⟨h1', h2, by rw [fieldCheck, if_neg h1, if_pos h2]⟩)
    · exact .inr (.inr ⟨h1', by omega, by omega, by rw [fieldCheck, if_neg h1, if_neg h2]⟩)

/-- 41_checksum.md R89: the spec checks in their order. -/
theorem checksumCheck_cases (f : FrameRegs) (c : ChecksumRegs) :
    (8 < f.dlc.toNat ∧ checksumCheck f c = some .badFrame) ∨
    (f.dlc.toNat ≤ 8 ∧
      (c.modulus = 0 ∨ c.hi.toNat < c.lo.toNat ∨ (c.lo.toNat ≤ c.chk.toNat ∧ c.chk.toNat < c.hi.toNat)) ∧
      checksumCheck f c = some .badConfig) ∨
    (f.dlc.toNat ≤ 8 ∧
      ¬ (c.modulus = 0 ∨ c.hi.toNat < c.lo.toNat ∨ (c.lo.toNat ≤ c.chk.toNat ∧ c.chk.toNat < c.hi.toNat)) ∧
      (f.dlc.toNat < c.hi.toNat ∨ f.dlc.toNat ≤ c.chk.toNat) ∧ checksumCheck f c = some .outOfRange) ∨
    (f.dlc.toNat ≤ 8 ∧
      ¬ (c.modulus = 0 ∨ c.hi.toNat < c.lo.toNat ∨ (c.lo.toNat ≤ c.chk.toNat ∧ c.chk.toNat < c.hi.toNat)) ∧
      c.hi.toNat ≤ f.dlc.toNat ∧ c.chk.toNat < f.dlc.toNat ∧ checksumCheck f c = none) := by
  by_cases h1 : Config.maxDlc < f.dlc.toNat
  · exact .inl ⟨h1, by rw [checksumCheck, if_pos h1]⟩
  · have h1' : f.dlc.toNat ≤ 8 := not_lt.1 h1
    by_cases h2 : c.modulus = 0 ∨ c.hi.toNat < c.lo.toNat ∨
        (c.lo.toNat ≤ c.chk.toNat ∧ c.chk.toNat < c.hi.toNat)
    · exact .inr (.inl ⟨h1', h2, by rw [checksumCheck, if_neg h1, if_pos h2]⟩)
    · by_cases h3 : f.dlc.toNat < c.hi.toNat ∨ f.dlc.toNat ≤ c.chk.toNat
      · exact .inr (.inr (.inl ⟨h1', h2, h3, by rw [checksumCheck, if_neg h1, if_neg h2, if_pos h3]⟩))
      · exact .inr (.inr (.inr ⟨h1', h2, by omega, by omega,
          by rw [checksumCheck, if_neg h1, if_neg h2, if_neg h3]⟩))

/-- 42_isotp.md R106: everything a `TPFRM` can do. -/
theorem execTpfrm_cases :
    (8 < s.frame.dlc.toNat ∧ execTpfrm s = .next (raiseCode .badFrame s)) ∨
    (s.frame.dlc.toNat ≤ 8 ∧ execTpfrm s = .next (doneWith false s) ∧
      (isSessionFrame s.frame s.tpCfg = false ∨
        (s.session.phase = .idle ∧ ¬ (framePci s.frame = 1 ∧ 2 ≤ s.frame.dlc.toNat)) ∨
        (s.session.phase = .awaitCf ∧ framePci s.frame ≠ 2) ∨
        s.session.phase = .complete ∨ s.session.phase = .failed)) ∨
    (s.frame.dlc.toNat ≤ 8 ∧ isSessionFrame s.frame s.tpCfg = true ∧ s.session.phase = .idle ∧
      framePci s.frame = 1 ∧ 2 ≤ s.frame.dlc.toNat ∧ execTpfrm s = acceptFirstFrame s) ∨
    (s.frame.dlc.toNat ≤ 8 ∧ isSessionFrame s.frame s.tpCfg = true ∧ s.session.phase = .awaitCf ∧
      framePci s.frame = 2 ∧ frameSn s.frame = s.session.seq ∧ execTpfrm s = acceptConsecutive s) ∨
    (s.frame.dlc.toNat ≤ 8 ∧ isSessionFrame s.frame s.tpCfg = true ∧ s.session.phase = .awaitCf ∧
      framePci s.frame = 2 ∧ frameSn s.frame ≠ s.session.seq ∧
      execTpfrm s = .next (doneWith true (s.withSession (failSession .seqMismatch s.session)))) := by
  by_cases h8 : Config.maxDlc < s.frame.dlc.toNat
  · exact .inl ⟨h8, by rw [execTpfrm, if_pos h8]⟩
  · have h8' : s.frame.dlc.toNat ≤ 8 := not_lt.1 h8
    cases hf : isSessionFrame s.frame s.tpCfg
    · exact .inr (.inl ⟨h8', by rw [execTpfrm, if_neg h8, if_pos hf], .inl rfl⟩)
    · have hf' : ¬ isSessionFrame s.frame s.tpCfg = false := by simp [hf]
      cases hp : s.session.phase
      · by_cases hc : framePci s.frame = 1 ∧ 2 ≤ s.frame.dlc.toNat
        · exact .inr (.inr (.inl ⟨h8', rfl, rfl, hc.1, hc.2,
            by rw [execTpfrm, if_neg h8, if_neg hf', hp]; exact if_pos hc⟩))
        · exact .inr (.inl ⟨h8', by rw [execTpfrm, if_neg h8, if_neg hf', hp]; exact if_neg hc,
            .inr (.inl ⟨rfl, hc⟩)⟩)
      · by_cases hc : framePci s.frame = 2
        · by_cases hn : frameSn s.frame = s.session.seq
          · exact .inr (.inr (.inr (.inl ⟨h8', rfl, rfl, hc, hn,
              by rw [execTpfrm, if_neg h8, if_neg hf', hp]; exact (if_pos hc).trans (if_pos hn)⟩)))
          · exact .inr (.inr (.inr (.inr ⟨h8', rfl, rfl, hc, hn,
              by rw [execTpfrm, if_neg h8, if_neg hf', hp]; exact (if_pos hc).trans (if_neg hn)⟩)))
        · exact .inr (.inl ⟨h8', by rw [execTpfrm, if_neg h8, if_neg hf', hp]; exact if_neg hc,
            .inr (.inr (.inl ⟨rfl, hc⟩))⟩)
      · exact .inr (.inl ⟨h8', by rw [execTpfrm, if_neg h8, if_neg hf', hp],
          .inr (.inr (.inr (.inl rfl)))⟩)
      · exact .inr (.inl ⟨h8', by rw [execTpfrm, if_neg h8, if_neg hf', hp],
          .inr (.inr (.inr (.inr rfl)))⟩)

@[simp] theorem payloadBytes_length (f : FrameRegs) (a n : Nat) : (payloadBytes f a n).length = n := by
  simp [payloadBytes]

theorem payloadBytes_getD (f : FrameRegs) (a n i : Nat) (h : i < n) :
    (payloadBytes f a n).getD i 0 = payload f (a + i) := by
  simp [payloadBytes, List.getD, h]

/-- 42_isotp.md R101: an accepted First Frame of at most eight bytes always goes on. -/
theorem acceptFirstFrame_next (hw : s.buf.wf = true) (h : s.frame.dlc.toNat ≤ 8) :
    ∃ m, acceptFirstFrame s = .next (doneWith true
        (((s.withBuf m).withSession (firstFrameSession s.frame)).withFc
          (generateFc s.tpCfg s.frame.bus s.fc))) ∧
      m.wf = true ∧
      ∀ a, m.read a = if a < s.frame.dlc.toNat - 2 then payload s.frame (2 + a) else s.buf.read a := by
  obtain ⟨m, hm⟩ := Memory.writeAll_some_of_le (m := s.buf) (a := 0)
    (bs := payloadBytes s.frame 2 (s.frame.dlc.toNat - 2)) (by simp [Config.bufCapacity]; omega)
  obtain ⟨h1, h2, _⟩ := Memory.writeAll_spec hw hm
  refine ⟨m, by simp [acceptFirstFrame, hm], h1, fun a => ?_⟩
  rw [h2 a]
  by_cases ha : a < s.frame.dlc.toNat - 2
  · rw [if_pos (by simpa using ha), if_pos ha, Nat.sub_zero, payloadBytes_getD _ _ _ _ ha]
  · rw [if_neg (by simpa using ha), if_neg ha]

/-- 42_isotp.md R103: an accepted Consecutive Frame goes on, or its last byte has no place in `BUF`. -/
theorem acceptConsecutive_cases (hw : s.buf.wf = true) :
    (s.frame.dlc.toNat - 1 ≠ 0 ∧ Config.bufCapacity < s.session.rxLen.toNat + (s.frame.dlc.toNat - 1) ∧
      acceptConsecutive s = .fault .bufferOverrun) ∨
    (¬ (s.frame.dlc.toNat - 1 ≠ 0 ∧ Config.bufCapacity < s.session.rxLen.toNat + (s.frame.dlc.toNat - 1)) ∧
      ∃ m, acceptConsecutive s = .next (doneWith true
          ((s.withBuf m).withSession (consecutiveSession s.session (s.frame.dlc.toNat - 1)))) ∧
        m.wf = true ∧
        ∀ a, m.read a =
          if s.session.rxLen.toNat ≤ a ∧ a < s.session.rxLen.toNat + (s.frame.dlc.toNat - 1) then
            payload s.frame (1 + (a - s.session.rxLen.toNat))
          else s.buf.read a) := by
  cases hm : s.buf.writeAll s.session.rxLen.toNat (payloadBytes s.frame 1 (s.frame.dlc.toNat - 1)) with
  | none =>
    obtain ⟨h1, h2⟩ := Memory.writeAll_eq_none.1 hm
    rw [payloadBytes_length] at h2
    refine .inl ⟨fun h => h1 (by simp [h, payloadBytes]), h2, by simp [acceptConsecutive, hm]⟩
  | some m =>
    obtain ⟨h1, h2, _⟩ := Memory.writeAll_spec hw hm
    refine .inr ⟨fun h => ?_, m, by simp [acceptConsecutive, hm], h1, fun a => ?_⟩
    · have : s.buf.writeAll s.session.rxLen.toNat (payloadBytes s.frame 1 (s.frame.dlc.toNat - 1)) = none :=
        Memory.writeAll_eq_none.2
          ⟨fun he => h.1 (by simpa using congrArg List.length he), by simpa using h.2⟩
      rw [hm] at this
      cases this
    · rw [h2 a, payloadBytes_length]
      split
      · rw [payloadBytes_getD _ _ _ _ (by omega)]
      · rfl

/-- Everything one step can do. -/
theorem step_cases :
    (s.bus = [] ∧ step s = .next s) ∨
    (∃ rest, s.bus = .assertReset :: rest ∧ step s = .next (blockReset (s.withBus rest))) ∨
    (∃ rest, s.bus = .releaseReset :: rest ∧ step s = .next ((s.withBus rest).withInReset false)) ∨
    (∃ a rest r, s.bus = .access a :: rest ∧ acceptAccess s a = .error r ∧ step s = .refused r) ∨
    (∃ a rest i, s.bus = .access a :: rest ∧ acceptAccess s a = .ok i ∧ step s = exec i (s.withBus rest)) := by
  cases hb : s.bus with
  | nil => exact .inl ⟨rfl, by simp [step, hb]⟩
  | cons ev rest =>
    cases ev with
    | assertReset => exact .inr (.inl ⟨rest, rfl, by simp [step, hb]⟩)
    | releaseReset => exact .inr (.inr (.inl ⟨rest, rfl, by simp [step, hb]⟩))
    | access a =>
      cases ha : acceptAccess s a with
      | error r => exact .inr (.inr (.inr (.inl ⟨a, rest, r, rfl, ha, by simp [step, hb, ha]⟩)))
      | ok i => exact .inr (.inr (.inr (.inr ⟨a, rest, i, rfl, ha, by simp [step, hb, ha]⟩)))

/-- 20_memory.md R49, 70_reset_and_hazards.md R137: an accepted access is one CFD decodes, with reset released. -/
theorem acceptAccess_ok {a : HostAccess} {i : Instr} :
    acceptAccess s a = .ok i ↔ s.inReset = false ∧ decode a = .ok i := by
  unfold acceptAccess
  cases hr : s.inReset
  · simp only [Bool.false_eq_true, if_false, true_and]
    cases hd : decode a with
    | ok j => simp
    | error r => cases r <;> simp
  · simp

end Sys2Proof.Machine
end

