-- ==== Sys2Proof/Laws/Exec.lean ====
section
/-! SUPPORT. Inversion: where an instruction or a step goes on, all it can have done; and that no instruction is
refused. The provers cite these instead of unfolding a meaning. -/

namespace Sys2Proof.Machine

variable {s t : State}

/-- 42_isotp.md R105. -/
theorem isSessionFrame_iff {f : FrameRegs} {c : TpConfig} :
    isSessionFrame f c = true ↔ f.id = c.rspId ∧ 1 ≤ f.dlc.toNat := by
  simp [isSessionFrame]

/-- 42_isotp.md R103: the session is complete and cut to `EXP_LEN`, or goes on. -/
theorem consecutiveSession_cases (x : Session) (n : Nat) :
    (x.expLen.toNat ≤ x.rxLen.toNat + n ∧ consecutiveSession x n =
      { x with phase := .complete, seq := x.seq + 1, rxLen := x.expLen.setWidth 13, tmr := 0 }) ∨
    (x.rxLen.toNat + n < x.expLen.toNat ∧ consecutiveSession x n =
      { x with seq := x.seq + 1, rxLen := BitVec.ofNat 13 (x.rxLen.toNat + n), tmr := 0 }) := by
  unfold consecutiveSession
  split
  · exact .inl ⟨‹_›, rfl⟩
  · exact .inr ⟨by omega, rfl⟩

/-- 42_isotp.md R110: the timer saturates. -/
theorem tickTimer_toNat (w : Word) : (tickTimer w).toNat = min (w.toNat + 1) 0xFFFFFFFF := by
  unfold tickTimer
  have := w.isLt
  split
  · rename_i h; subst h; rfl
  · rename_i h
    have : w.toNat ≠ 0xFFFFFFFF := fun h' => h (BitVec.eq_of_toNat_eq h')
    simp [BitVec.toNat_add]
    omega

/-- 42_isotp.md R110: outside AWAIT_CF nothing, else a count, else a count that meets the deadline. -/
theorem tickSession_cases (T : Word) (x : Session) :
    (x.phase ≠ .awaitCf ∧ tickSession T x = x) ∨
    (x.phase = .awaitCf ∧ T ≠ 0 ∧ T.toNat ≤ (tickTimer x.tmr).toNat ∧
      tickSession T x = { x with phase := .failed, err := .timeout, tmr := tickTimer x.tmr }) ∨
    (x.phase = .awaitCf ∧ ¬ (T ≠ 0 ∧ T.toNat ≤ (tickTimer x.tmr).toNat) ∧
      tickSession T x = { x with tmr := tickTimer x.tmr }) := by
  cases hp : x.phase with
  | awaitCf =>
    by_cases h : T ≠ 0 ∧ T.toNat ≤ (tickTimer x.tmr).toNat
    · exact .inr (.inl ⟨rfl, h.1, h.2, by simp only [tickSession, hp]; exact if_pos h⟩)
    · exact .inr (.inr ⟨rfl, h, by simp only [tickSession, hp]; exact if_neg h⟩)
  | _ => exact .inl ⟨by simp, by simp [tickSession, hp]⟩

theorem execXtr_next (h : execXtr s = .next t) :
    (∃ c, fieldCheck s.frame s.field = some c ∧ t = raiseCode c s) ∨
    (fieldCheck s.frame s.field = none ∧
      t = doneWith false (writeFieldResult (rawWord s.frame s.field)
        (physValue (rawWord s.frame s.field) s.field) s)) := by
  unfold execXtr at h
  split at h <;> cases h
  · exact .inl ⟨_, ‹_›, rfl⟩
  · exact .inr ⟨‹_›, rfl⟩

theorem execCsum_next (h : execCsum s = .next t) :
    (∃ c, checksumCheck s.frame s.csum = some c ∧ t = raiseCode c s) ∨
    (checksumCheck s.frame s.csum = none ∧
      t = doneWith false (s.withCsumRes
        { expected := checksumExpected s.frame s.csum, actual := payload s.frame s.csum.chk.toNat
          ok := checksumExpected s.frame s.csum == payload s.frame s.csum.chk.toNat })) := by
  unfold execCsum at h
  split at h <;> cases h
  · exact .inl ⟨_, ‹_›, rfl⟩
  · exact .inr ⟨‹_›, rfl⟩

theorem execTpfrm_next (h : execTpfrm s = .next t) :
    t = raiseCode .badFrame s ∨ t = doneWith false s ∨
    (s.session.phase = .idle ∧ s.frame.dlc.toNat ≤ 8 ∧
      ∃ m, s.buf.writeAll 0 (payloadBytes s.frame 2 (s.frame.dlc.toNat - 2)) = some m ∧
        t = doneWith true (((s.withBuf m).withSession (firstFrameSession s.frame)).withFc
          (generateFc s.tpCfg s.frame.bus s.fc))) ∨
    (s.session.phase = .awaitCf ∧ s.frame.dlc.toNat ≤ 8 ∧
      ∃ m, s.buf.writeAll s.session.rxLen.toNat (payloadBytes s.frame 1 (s.frame.dlc.toNat - 1)) = some m ∧
        t = doneWith true
          ((s.withBuf m).withSession (consecutiveSession s.session (s.frame.dlc.toNat - 1)))) ∨
    (s.session.phase = .awaitCf ∧
      t = doneWith true (s.withSession (failSession .seqMismatch s.session))) := by
  rcases execTpfrm_cases s with h' | h' | h' | h' | h'
  · rw [h'.2] at h; cases h; exact .inl rfl
  · rw [h'.2.1] at h; cases h; exact .inr (.inl rfl)
  · rw [h'.2.2.2.2.2] at h
    unfold acceptFirstFrame at h
    split at h <;> cases h
    exact .inr (.inr (.inl ⟨h'.2.2.1, h'.1, _, ‹_›, rfl⟩))
  · rw [h'.2.2.2.2.2] at h
    unfold acceptConsecutive at h
    split at h <;> cases h
    exact .inr (.inr (.inr (.inl ⟨h'.2.2.1, h'.1, _, ‹_›, rfl⟩)))
  · rw [h'.2.2.2.2.2] at h; cases h; exact .inr (.inr (.inr (.inr ⟨h'.2.2.1, rfl⟩)))

/-- 20_memory.md R51. -/
theorem execRd_next {slot : BitVec 6} (h : execRd slot s = .next t) : ∃ v, t = s.withLastRead (some v) := by
  unfold execRd at h
  split at h
  · cases h; exact ⟨_, rfl⟩
  · split at h <;> cases h
    exact ⟨_, rfl⟩

/-- Which parts of the state a register write can touch (20_memory.md R52). -/
theorem writeReg_keeps (r : Reg) (v : Word) (s : State) :
    writeReg r v s =
      { s with
        frame := (writeReg r v s).frame, field := (writeReg r v s).field, csum := (writeReg r v s).csum
        tpCfg := (writeReg r v s).tpCfg, bufPtr := (writeReg r v s).bufPtr } := by
  cases r <;> rfl

/-- Writing the slot of a register other than `CMD` (20_memory.md R52). -/
theorem execWr_regSlot {r : Reg} (hr : r ≠ .cmd) (v : Word) (s : State) :
    execWr (regSlot r) v s = .next (writeReg r v s) := by
  have : regSlot r ≠ Config.cmdSlot := fun h =>
    hr (regSlot_injective (h.trans (by decide : Config.cmdSlot = regSlot .cmd)))
  simp [execWr, this]

theorem execWr_next {slot : BitVec 6} {v : Word} (hs : slot ≠ Config.cmdSlot)
    (h : execWr slot v s = .next t) : t = s ∨ ∃ r, regAt slot = some r ∧ t = writeReg r v s := by
  unfold execWr at h
  rw [if_neg hs] at h
  split at h <;> cases h
  · exact .inl rfl
  · exact .inr ⟨_, ‹_›, rfl⟩

/-- The parts of the state that a write to any offset but `CMD` leaves alone. -/
theorem execWr_keeps {slot : BitVec 6} {v : Word} (hs : slot ≠ Config.cmdSlot)
    (h : execWr slot v s = .next t) :
    t = { s with frame := t.frame, field := t.field, csum := t.csum, tpCfg := t.tpCfg, bufPtr := t.bufPtr } := by
  rcases execWr_next hs h with rfl | ⟨r, -, rfl⟩
  · rfl
  · exact writeReg_keeps r v s

/-- No instruction is refused once the port accepted it (60_exceptions.md R131). -/
theorem exec_not_refused (i : Instr) (s : State) (r : Refusal) : exec i s ≠ .refused r := by
  have hx : execXtr s ≠ .refused r := by unfold execXtr; split <;> simp
  have hc : execCsum s ≠ .refused r := by unfold execCsum; split <;> simp
  have hf : execTpfrm s ≠ .refused r := by
    rcases execTpfrm_cases s with h | h | h | h | h
    · simp [h.2]
    · simp [h.2.1]
    · rw [h.2.2.2.2.2]; unfold acceptFirstFrame; split <;> simp
    · rw [h.2.2.2.2.2]; unfold acceptConsecutive; split <;> simp
    · simp [h.2.2.2.2.2]
  cases i with
  | xtr => exact hx
  | csum => exact hc
  | tpfrm => exact hf
  | wr slot v =>
    simp only [exec, execWr]
    split
    · unfold performCommand
      split <;> first
        | exact hx
        | exact hc
        | exact hf
        | simp [execNop, execTprst, execTptick, execFcack, execIllegal]
    · split <;> simp
  | rd slot =>
    simp only [exec, execRd]
    split
    · simp
    · split <;> simp
  | _ => simp [exec, execNop, execTprst, execTptick, execFcack, execIllegal]

/-- A `wr` that an access decodes to is no write to `CMD`. -/
theorem decode_wr_slot {a : HostAccess} {slot : BitVec 6} {v : Word} (h : decode a = .ok (.wr slot v)) :
    slot ≠ Config.cmdSlot := by
  cases a with
  | read b off => simp only [decode] at h; split at h <;> cases h
  | write b off w =>
    simp only [decode] at h
    split at h
    · cases h
    · split at h
      · simp only [Except.ok.injEq] at h
        cases hd : decodeCommand w <;> rw [hd] at h <;> cases h
      · cases h; assumption

/-- A step that goes on: nothing to do, a reset edge, or the instruction of an accepted access. -/
theorem step_next (h : step s = .next t) :
    (s.bus = [] ∧ t = s) ∨
    (∃ rest, s.bus = .assertReset :: rest ∧ t = blockReset (s.withBus rest)) ∨
    (∃ rest, s.bus = .releaseReset :: rest ∧ t = (s.withBus rest).withInReset false) ∨
    (∃ a rest i, s.bus = .access a :: rest ∧ decode a = .ok i ∧ s.inReset = false ∧
      exec i (s.withBus rest) = .next t) := by
  rcases step_cases s with h' | ⟨r, h'⟩ | ⟨r, h'⟩ | ⟨a, r, e, h'⟩ | ⟨a, r, i, h'⟩
  · rw [h'.2] at h; cases h; exact .inl ⟨h'.1, rfl⟩
  · rw [h'.2] at h; cases h; exact .inr (.inl ⟨_, h'.1, rfl⟩)
  · rw [h'.2] at h; cases h; exact .inr (.inr (.inl ⟨_, h'.1, rfl⟩))
  · rw [h'.2.2] at h; cases h
  · rw [h'.2.2] at h
    have := (acceptAccess_ok s).1 h'.2.1
    exact .inr (.inr (.inr ⟨_, _, _, h'.1, this.2, this.1, h⟩))

/-- A register is readable wherever `RX_LEN` is in its range 0..4101 (10_state.md R35). -/
theorem readReg_isSome (r : Reg) (s : State) (h : s.session.rxLen.toNat ≤ 4101) : ∃ v, readReg r s = some v := by
  cases r <;> simp only [readReg] <;> try exact ⟨_, rfl⟩
  have : ∀ j, bufLaneExists s j = true := by
    intro j
    simp only [bufLaneExists, Config.bufCapacity]
    apply decide_eq_true
    omega
  simp [readBufData, this]

/-! One more step of a run. -/

theorem run_zero (s : State) : Sys2Proof.core.run 0 s = .next s := rfl

theorem run_succ_next (k : Nat) (h : step s = .next t) :
    Sys2Proof.core.run (k + 1) s = Sys2Proof.core.run k t := by
  have h' : Sys2Proof.core.step s = .next t := h
  simp only [Host.Core.run, h']

theorem run_succ_fault (k : Nat) {f : Fault} (h : step s = .fault f) :
    Sys2Proof.core.run (k + 1) s = .fault f := by
  have h' : Sys2Proof.core.step s = .fault f := h
  simp only [Host.Core.run, h']

theorem run_succ_refused (k : Nat) {r : Refusal} (h : step s = .refused r) :
    Sys2Proof.core.run (k + 1) s = .refused r := by
  have h' : Sys2Proof.core.step s = .refused r := h
  simp only [Host.Core.run, h']

end Sys2Proof.Machine
end

