-- ==== Sys2Proof/Laws/Operands.lean ====
section
/-! SUPPORT. The register views bit by bit: which field each bit of a word shows, reserved bits 0. A later proof cites
these and never takes a concatenation apart. -/

namespace Sys2Proof.Machine

/-- One bit of a concatenation. -/
theorem append_bit {a b : Nat} (x : BitVec a) (y : BitVec b) (i : Nat) :
    (x ++ y).getLsbD i = if i < b then y.getLsbD i else x.getLsbD (i - b) := by
  rw [BitVec.getLsbD_append]

theorem zero_bit (n i : Nat) : (BitVec.ofNat n 0).getLsbD i = false := by simp

theorem flag_bit (b : Bool) (i : Nat) : (flagBit b).getLsbD i = (decide (i = 0) && b) := by
  simp [flagBit, BitVec.getLsbD_ofBool]

/-- Bits 31:0 and 63:32 of a 64-bit value (20_memory.md R47). -/
@[simp] theorem loHalf_append (a b : Word) : loHalf (a ++ b) = b := by
  apply BitVec.eq_of_getLsbD_eq
  intro i hi
  rw [loHalf, BitVec.getLsbD_extractLsb', Nat.zero_add]
  exact (congrArg (decide (i < 32) && ·) (append_bit a b i)).trans (by simp [hi])

@[simp] theorem hiHalf_append (a b : Word) : hiHalf (a ++ b) = a := by
  apply BitVec.eq_of_getLsbD_eq
  intro i hi
  rw [hiHalf, BitVec.getLsbD_extractLsb']
  exact (congrArg (decide (i < 32) && ·) (append_bit a b (32 + i))).trans (by simp [hi])

/-- 20_memory.md R47: byte lane `i div 8` shows bit `i mod 8` of its byte. -/
theorem lanes_bit (b0 b1 b2 b3 : Byte) (i : Nat) :
    (lanes b0 b1 b2 b3).getLsbD i =
      if i < 8 then b0.getLsbD i else if i < 16 then b1.getLsbD (i - 8)
      else if i < 24 then b2.getLsbD (i - 16) else b3.getLsbD (i - 24) := by
  refine (append_bit _ _ i).trans ?_
  simp only [append_bit]
  simp only [Nat.sub_sub, Nat.reduceAdd]
  split_ifs <;> first | rfl | omega

/-- A lane of a word made of four bytes (20_memory.md R47). -/
theorem lane_lanes (f : Nat → Byte) {j : Nat} (hj : j < 4) : lane (lanes (f 0) (f 1) (f 2) (f 3)) j = f j := by
  apply BitVec.eq_of_getLsbD_eq
  intro i hi
  rw [lane, BitVec.getLsbD_extractLsb', lanes_bit]
  have : j = 0 ∨ j = 1 ∨ j = 2 ∨ j = 3 := by omega
  rcases this with rfl | rfl | rfl | rfl <;> simp only [hi, decide_true, Bool.true_and] <;> split_ifs <;>
    first | omega | (congr 1; omega)

/-- 10_state.md R18. -/
theorem idWord_bit (id : BitVec 29) (i : Nat) : (idWord id).getLsbD i = id.getLsbD i := by
  refine (append_bit _ _ i).trans ?_
  simp only [zero_bit]
  split_ifs with h
  · rfl
  · exact (BitVec.getLsbD_of_ge id i (by omega)).symm

/-- 10_state.md R19. -/
theorem ctlWord_bit (dlc bus : Byte) (i : Nat) :
    (ctlWord dlc bus).getLsbD i = if i < 8 then dlc.getLsbD i else bus.getLsbD (i - 8) := by
  refine (append_bit _ _ i).trans ?_
  simp only [append_bit, zero_bit]
  split_ifs with h h'
  · rfl
  · rfl
  · exact (BitVec.getLsbD_of_ge bus (i - 8) (by omega)).symm

/-- 10_state.md R22. -/
theorem xdescWord_bit (d : FieldRegs) (i : Nat) :
    (xdescWord d).getLsbD i =
      if i < 8 then d.start.getLsbD i else if i < 16 then d.width.getLsbD (i - 8)
      else if i = 16 then d.little else if i = 17 then d.signed else if i = 18 then d.maskEn else false := by
  refine (append_bit _ _ i).trans ?_
  simp only [append_bit, zero_bit, flag_bit]
  simp only [Nat.sub_sub, Nat.reduceAdd]
  split_ifs <;> first | rfl | omega | skip
  all_goals
    rename_i h
    simp only [Bool.and_eq_right_iff_imp, decide_eq_true_eq]
    intro; omega

/-- 10_state.md R28. -/
theorem cdescWord_bit (c : ChecksumRegs) (i : Nat) :
    (cdescWord c).getLsbD i =
      if i < 8 then c.lo.getLsbD i else if i < 16 then c.hi.getLsbD (i - 8) else c.chk.getLsbD (i - 16) := by
  refine (append_bit _ _ i).trans ?_
  simp only [append_bit, zero_bit]
  simp only [Nat.sub_sub, Nat.reduceAdd]
  split_ifs <;> first | rfl | omega | exact (BitVec.getLsbD_of_ge c.chk (i - 16) (by omega)).symm

/-- 10_state.md R37. -/
theorem lenWord_bit (x : Session) (i : Nat) :
    (lenWord x).getLsbD i =
      if i < 12 then x.expLen.getLsbD i else if i < 16 then false else x.rxLen.getLsbD (i - 16) := by
  refine (append_bit _ _ i).trans ?_
  simp only [append_bit, zero_bit]
  simp only [Nat.sub_sub, Nat.reduceAdd]
  split_ifs <;> first | rfl | omega | exact (BitVec.getLsbD_of_ge x.rxLen (i - 16) (by omega)).symm

/-- 10_state.md R36. -/
theorem tpStatusWord_bit (x : Session) (fc : FcOut) {i : Nat} (hi : i < 32) :
    (tpStatusWord x fc).getLsbD i =
      if i < 2 then x.phase.code.getLsbD i else if i < 4 then false
      else if i < 6 then x.err.code.getLsbD (i - 4) else if i < 8 then false
      else if i < 12 then x.seq.getLsbD (i - 8) else if i = 12 then fc.pending else if i = 13 then fc.overflow
      else if i = 14 then rxShort x else false := by
  refine (append_bit _ _ i).trans ?_
  simp only [append_bit, zero_bit, flag_bit]
  interval_cases i <;> rfl

/-- 10_state.md R43. -/
theorem statusWord_bit (c : CmdStatus) {i : Nat} (hi : i < 32) :
    (statusWord c).getLsbD i = if i < 4 then c.code.code.getLsbD i else if i = 4 then c.consumed else false := by
  refine (append_bit _ _ i).trans ?_
  simp only [append_bit, zero_bit, flag_bit]
  interval_cases i <;> rfl

/-- 10_state.md R31. -/
theorem cresWord_bit (r : ChecksumResult) (i : Nat) :
    (cresWord r).getLsbD i =
      if i < 8 then r.expected.getLsbD i else if i < 16 then r.actual.getLsbD (i - 8)
      else if i = 16 then r.ok else false := by
  refine (append_bit _ _ i).trans ?_
  simp only [append_bit, zero_bit, flag_bit]
  simp only [Nat.sub_sub, Nat.reduceAdd]
  split_ifs <;> first | rfl | omega | skip
  all_goals
    rename_i h
    simp only [Bool.and_eq_right_iff_imp, decide_eq_true_eq]
    intro; omega

end Sys2Proof.Machine
end

