-- ==== Sys2Proof/Laws/PerInstr.lean ====
section
/-! SUPPORT. Statements for every instruction, one lemma per constructor. `EncodingAccepted`: the bus accepts the
encoding of any instruction, well formed or not (20_memory.md R49: 32 bits wide, word aligned). -/

namespace Sys2Proof.Laws.EncodingAccepted

/-- The encoding of an instruction is an access that CFD decodes. -/
def Statement (i : Instr) : Prop := ∃ j, decode (encode i) = .ok j

/-- A command word is always accepted (30_encoding.md R63). -/
theorem command (w : Word) : ∃ j, decode (commandAccess w) = .ok j := ⟨_, decode_commandAccess w⟩

theorem nop : Statement .nop := command _
theorem xtr : Statement .xtr := command _
theorem csum : Statement .csum := command _
theorem tpfrm : Statement .tpfrm := command _
theorem tprst : Statement .tprst := command _
theorem tptick : Statement .tptick := command _
theorem fcack : Statement .fcack := command _
theorem illegal (word : Word) : Statement (.illegal word) := command word

theorem rd (slot : BitVec 6) : Statement (.rd slot) :=
  ⟨.rd slot, by simp [encode, decode, acceptSlot_ok.2 ⟨rfl, rfl⟩]⟩

theorem wr (slot : BitVec 6) (data : Word) : Statement (.wr slot data) := by
  simp only [Statement, encode, decode, acceptSlot_ok.2 ⟨rfl, rfl⟩]
  split <;> exact ⟨_, rfl⟩

end Sys2Proof.Laws.EncodingAccepted
end

