-- ==== Sys2Proof/Tests/Slice0.lean ====
section
/-! SUPPORT. Tests: ill-formed terms, words written out from 30_encoding.md, one-step vectors of
95_test_vectors.md, and for every statement with hypotheses a concrete case that meets them. Expected values are
the spec's. -/

namespace Sys2Proof.Tests

open Sys2Proof Sys2Proof.Machine Sys2Proof.Spec

/-! ### Small states -/

/-- The state after an instruction that goes on. -/
def after (i : Instr) (s : State) : Option State := nextOf (exec i s)

/-- Frame registers with these payload bytes on bus 0. -/
def frameBytes (id : BitVec 29) (dlc : Byte) (b : List Byte) : FrameRegs :=
  { id := id, dlc := dlc, bus := 0
    d0 := lanes (b.getD 0 0) (b.getD 1 0) (b.getD 2 0) (b.getD 3 0)
    d1 := lanes (b.getD 4 0) (b.getD 5 0) (b.getD 6 0) (b.getD 7 0) }

/-- The payload of most XU vectors. -/
def xuBytes : List Byte := [0x12, 0x34, 0x56, 0x78, 0x9A, 0xBC, 0xDE, 0xF0]

/-- Reset with a frame and a descriptor, scale and offset as after reset. -/
def xuState (dlc : Byte) (b : List Byte) (start width : Byte) (little signed : Bool) : State :=
  (State.reset.withFrame (frameBytes 0 dlc b)).withField
    { State.reset.field with start := start, width := width, little := little, signed := signed }

/-- Reset with a frame, a checksum spec and a check byte at 7 of the range `[0, 7)`. -/
def cuState (dlc : Byte) (b : List Byte) (lo hi chk : Byte) (bias modulus : Word) : State :=
  (State.reset.withFrame (frameBytes 0x488 dlc b)).withCsum
    { lo := lo, hi := hi, chk := chk, bias := bias, modulus := modulus }

/-- The payload of K1. -/
def cuBytes : List Byte := [0x01, 0x02, 0x03, 0x04, 0x05, 0x06, 0x07, 0xAC]

/-- TU configured as in 95_test_vectors.md L2.3, with a frame of the peer loaded. -/
def tuState (b : List Byte) : State :=
  (State.reset.withTpCfg { rspId := 0x7E8, reqId := 0x7E0, timeout := 0, fcPad := 0xAA }).withFrame
    (frameBytes 0x7E8 (BitVec.ofNat 8 b.length) b)

/-- The First Frame of T1. -/
def ff : List Byte := [0x10, 0x11, 0x35, 0x59, 0x4A, 0x53, 0x41, 0x31]

/-- The first Consecutive Frame of T1. -/
def cf1 : List Byte := [0x21, 0x48, 0x31, 0x31, 0x46, 0x46, 0x30, 0x30]

/-- TU waiting for a Consecutive Frame, the frame `b` loaded; the session of T1 after its First Frame. -/
def waiting (b : List Byte) (rxLen : BitVec 13) (expLen : BitVec 12) : State :=
  (((tuState b).withSession
      { phase := .awaitCf, err := .none, seq := 1, expLen := expLen, rxLen := rxLen, tmr := 0 }).withBuf
    [(0, 0x35), (1, 0x59), (2, 0x4A), (3, 0x53), (4, 0x41), (5, 0x31)]).withFc
    { id := 0x7E0, dlc := 8, bus := 0, d0 := 0xAA000030, d1 := 0xAAAAAAAA, pending := true, overflow := false }

/-- The session of `waiting` with another phase and error. -/
def endedAs (p : Phase) (e : SessionError) : State :=
  (waiting ff 6 17).withSession { phase := p, err := e, seq := 2, expLen := 17, rxLen := 13, tmr := 3 }

/-! ### Well-formedness: an ill-formed term for each check -/

theorem test_wr_to_cmd_is_ill_formed : (Instr.wr Config.cmdSlot 0x12345678).wellFormed = false := by decide
theorem test_illegal_3_is_ill_formed : (Instr.illegal 0x00000003).wellFormed = false := by decide
theorem test_illegal_7_is_well_formed : (Instr.illegal 0x00000007).wellFormed = true := by decide

/-! ### Decoding: each constructor's word or access, written out from 30_encoding.md R65, R66, R73 -/

theorem test_decode_nop : decodeTableWord 32 0x00000000 = some .nop := by decide
theorem test_decode_xtr : decodeTableWord 32 0x00000001 = some .xtr := by decide
theorem test_decode_csum : decodeTableWord 32 0x00000002 = some .csum := by decide
theorem test_decode_tpfrm : decodeTableWord 32 0x00000003 = some .tpfrm := by decide
theorem test_decode_tprst : decodeTableWord 32 0x00000004 = some .tprst := by decide
theorem test_decode_tptick : decodeTableWord 32 0x00000005 = some .tptick := by decide
theorem test_decode_fcack : decodeTableWord 32 0x00000006 = some .fcack := by decide
/-- 0x00000100: `OPC` is 0x00 but bit 8 of `Z` is set. -/
theorem test_decode_illegal : decodeTableWord 32 0x00000100 = some (.illegal 0x00000100) := by decide
/-- `RD XPHYS_LO`: offset 0x34 is slot 0x0D. -/
theorem test_decode_rd : (decode (.read 32 0x34)).toOption = some (.rd 0x0D) := by decide
/-- `WR CMOD`: offset 0x48 is slot 0x12. -/
theorem test_decode_wr : (decode (.write 32 0x48 0x000000FA)).toOption = some (.wr 0x12 0x000000FA) := by decide
/-- 20_memory.md R49: a 16-bit read and a read at offset 0x02 are no accesses of CFD. -/
theorem test_decode_rejects :
    (decode (.read 16 0x00)).toOption = none ∧ (decode (.read 32 0x02)).toOption = none := by decide
theorem test_encode_tptick : encode .tptick = .write 32 0xF0 0x00000005 := by decide

/-! ### One step, expected values from 95_test_vectors.md -/

/-- R116. -/
theorem test_nop_status :
    (after .nop (State.reset.withStatus { code := .illegalCmd, consumed := false })).map
      (fun t => statusWord t.status) = some 0x00000000 := by decide
/-- X5: the signed byte 0x9A. -/
theorem test_xtr_signed :
    (after .xtr (xuState 8 xuBytes 32 8 false true)).map (fun t => (t.fieldRes.raw, t.fieldRes.phys)) =
      some (0xFFFFFFFFFFFFFF9A, 0xC059800000000000) := by decide +kernel
/-- X26: a little-endian field reverses only the DLC bytes. -/
theorem test_xtr_little :
    (after .xtr (xuState 5 [0x01, 0x02, 0x03, 0x04, 0x05] 8 16 true false)).map
      (fun t => (t.fieldRes.raw, t.fieldRes.phys)) =
      some (0x0000000000000403, 0x40900C0000000000) := by decide +kernel
/-- K1. -/
theorem test_csum_match :
    (after .csum (cuState 8 cuBytes 0 7 7 0 256)).map (fun t => cresWord t.csumRes) = some 0x0001ACAC := by
  decide
/-- K4b with the identifier 0x488 in the bias: S = -1999, floor modulo 250. -/
theorem test_csum_floor_modulo :
    (after .csum (cuState 1 [0x01] 0 0 0 (BitVec.ofInt 32 (-2000 - 0x488)) 250)).map
      (fun t => cresWord t.csumRes) = some 0x00010101 := by decide
/-- T1, step 1. -/
theorem test_tpfrm_first_frame :
    (after .tpfrm (tuState ff)).map
      (fun t => [statusWord t.status, tpStatusWord t.session t.fc, lenWord t.session, t.fc.d0]) =
      some [0x00000010, 0x00001101, 0x00060011, 0xAA000030] := by decide
/-- T1, step 2. -/
theorem test_tpfrm_consecutive_frame :
    (after .tpfrm (waiting cf1 6 17)).map
      (fun t => [tpStatusWord t.session t.fc, lenWord t.session, (0#24) ++ t.buf.read 6]) =
      some [0x00001201, 0x000D0011, 0x00000048] := by decide
/-- T3, step 5. -/
theorem test_tprst :
    (after .tprst (endedAs .failed .seqMismatch)).map
      (fun t => [tpStatusWord t.session t.fc, lenWord t.session, t.session.tmr]) =
      some [0x00001000, 0x00000000, 0x00000000] := by decide
/-- T7: the third tick after a Consecutive Frame meets the deadline 3. -/
theorem test_tptick_deadline :
    (after .tptick (((waiting ff 13 17).withTpCfg { (waiting ff 13 17).tpCfg with timeout := 3 }).withSession
      { phase := .awaitCf, err := .none, seq := 2, expLen := 17, rxLen := 13, tmr := 2 })).map
      (fun t => [tpStatusWord t.session t.fc, t.session.tmr]) = some [0x00005223, 0x00000003] := by decide
/-- T1, last step: `FC_PENDING` goes, the frame stays. -/
theorem test_fcack :
    (after .fcack (waiting ff 6 17)).map (fun t => [tpStatusWord t.session t.fc, t.fc.d0]) =
      some [0x00000101, 0xAA000030] := by decide
/-- R127. -/
theorem test_illegal :
    (after (.illegal 0x00000107) State.reset).map (fun t => statusWord t.status) = some 0x00000004 := by decide
/-- 10_state.md R17: the reset value of `XSCALE_HI`. -/
theorem test_rd_reset_value :
    (after (.rd 0x08) State.reset).map (fun t => t.lastRead) = some (some 0x3FF00000) := by decide
/-- A reserved offset (0x3C) reads 0. -/
theorem test_rd_reserved :
    (after (.rd 0x0F) State.reset).map (fun t => t.lastRead) = some (some 0) := by decide
/-- Reserved bits of `TP_BUFPTR` are dropped. -/
theorem test_wr_drops_reserved_bits :
    (after (.wr 0x1F 0xFFFFFFFF) State.reset).bind (readReg .tpBufptr) = some 0x00001FFF := by decide
/-- The low half of a 64-bit register keeps the other half. -/
theorem test_wr_half :
    (after (.wr 0x07 0xCF454D01) State.reset).map (fun t => t.field.scale) = some 0x3FF00000CF454D01 := by decide
/-- The word placed by `withFetchWord` is the next step's command. -/
theorem test_with_fetch_word :
    (nextOf (step (State.reset.withFetchWord 32 0x00000009))).map (fun t => statusWord t.status) =
      some 0x00000004 := by decide

/-! ### Host program lines: accesses listed in 95_test_vectors.md L3 -/

theorem test_descm_expands : (HostLine.descm 32 8 false true 0xF0).expand =
    [.write 32 0x14 0x000000F0, .write 32 0x18 0x00000000, .write 32 0x10 0x00060820] := by decide

theorem test_spec_expands : (HostLine.spec 0 7 3 (-5) 256).expand =
    [.write 32 0x40 0x00030700, .write 32 0x44 0xFFFFFFFB, .write 32 0x48 0x00000100] := by decide

/-! ### A case that meets the hypotheses of each statement -/

theorem witness_DecodeEncodeGivesTheInstructionBack :
    (Instr.wr 0x3B 0xFFFFFFFF).WellFormed ∧ (Instr.illegal 0x00000007).WellFormed ∧
      (Instr.rd 0x3F).WellFormed := by decide

theorem witness_AcceptedAccessIsTheEncodingOfItsInstruction :
    decode (.read 32 0xFC) = .ok (.rd 0x3F) ∧ decode (.write 32 0xF0 0xFFFFFFFF) = .ok (.illegal 0xFFFFFFFF) :=
  ⟨rfl, rfl⟩

theorem witness_StepRunsTheDecodedInstruction :
    (State.reset.withFetchWord 32 3).bus = .access (.write 32 0xF0 3) :: [] ∧
      (State.reset.withFetchWord 32 3).inReset = false ∧ decode (.write 32 0xF0 3) = .ok .tpfrm :=
  ⟨rfl, rfl, rfl⟩

/-- One access for each clause, at the edges: no width but 32, offsets 1, 3 and 0xFC. -/
theorem witness_AccessRefusedExactlyWhenNotAcceptable :
    ((State.reset.withInReset true).withBus [.access (.read 32 0)]).inReset = true ∧
      accessBits (.read 31 0) ≠ 32 ∧ accessBits (.write 33 0 0) ≠ 32 ∧
      (accessOffset (.read 32 1)).toNat % 4 ≠ 0 ∧ (accessOffset (.read 32 3)).toNat % 4 ≠ 0 ∧
      (accessOffset (.write 32 0xFC 0)).toNat % 4 = 0 ∧ State.reset.inReset = false := by decide

theorem witness_StepWithoutAccess :
    State.reset.bus = [] ∧ (State.reset.withBus [.releaseReset]).bus = .releaseReset :: [] := ⟨rfl, rfl⟩

/-- An assert event; and with reset asserted, a step that is no release. -/
theorem witness_BlockResetRestoresEveryRegister :
    ((waiting cf1 6 17).withBus [.assertReset]).bus = .assertReset :: [] ∧
      (State.reset.withInReset true).inReset = true ∧
      (∀ rest, (State.reset.withInReset true).bus ≠ .releaseReset :: rest) ∧
      step (State.reset.withInReset true) = .next (State.reset.withInReset true) :=
  ⟨rfl, rfl, fun _ => nofun, rfl⟩

/-- A register with a neighbour, and one that is not `CMD`. -/
theorem witness_RegisterMapIsTheTable :
    Reg.cmdStatus ≠ .cmd ∧ (mapRow .cmdStatus).1 = 0xF4 ∧ (mapRow .xscaleHi).1 = 0x20 := by decide

/-- The largest `RX_LEN`, a register's slot, a reserved slot, and `CMD`. -/
theorem witness_RdReturnsTheRegisterAndChangesNothing :
    (waiting cf1 4101 17).session.rxLen.toNat ≤ 4101 ∧ regOffset .cmdStatus = slotOffset 0x3D ∧
      (∀ r ∈ allRegs, regOffset r ≠ slotOffset 0x3F) ∧ slotOffset 0x3C = 0xF0 := by decide

theorem witness_WrStoresTheDefinedFieldsOfAnRwRegister :
    regAccess .tpBufptr = .rw ∧ regAccess .xdesc = .rw ∧ Reg.frameId ≠ .tpBufptr ∧ Reg.frameId ≠ .tpBufdata := by decide

/-- An RO register's slot and a reserved slot. -/
theorem witness_WrToRoOrReservedHasNoEffect :
    (∀ r, regOffset r = slotOffset 0x0B → regAccess r = .ro) ∧
      (∀ r, regOffset r = slotOffset 0x3F → regAccess r = .ro) := by
  constructor <;> intro r <;> cases r <;> decide

theorem witness_RegisterWriteIsIdempotent : (0x3B : BitVec 6) ≠ Config.cmdSlot ∧ (0x3D : BitVec 6) ≠ Config.cmdSlot := by
  decide

/-- Lanes 0..2 below the largest `RX_LEN`, lane 3 at it. -/
theorem witness_BufDataShowsOnlyBytesBelowRxLen :
    ((waiting cf1 4101 17).withBufPtr 4098).session.rxLen.toNat ≤ 4101 ∧ 4098 + 2 < 4101 ∧ ¬ 4098 + 3 < 4101 := by
  decide

/-- `BLOCK_BASE` is open, so a page above it is the address outside. -/
theorem witness_OnlyWindowAddressesReachTheBlock :
    Config.blockBase + 256 < Config.blockBase ∨ Config.blockBase + 256 ≤ Config.blockBase + 256 := .inr le_rfl

theorem witness_FrameLineLoadsTheFrameRegisters :
    (waiting cf1 6 17).bus = [] ∧ (waiting cf1 6 17).inReset = false := ⟨rfl, rfl⟩

theorem witness_IllegalWordReportsIllegalCmdOnly :
    (0x00000100 : Word).extractLsb' 8 24 ≠ 0 ∧ 7 ≤ ((0x00000007 : Word).extractLsb' 0 8).toNat := by decide

/-- A descriptor of width 0 is refused (X8c), and the status is not OK. -/
theorem witness_RefusalWritesOnlyTheStatus :
    isCommand .xtr = true ∧
      exec .xtr State.reset = .next { State.reset with status := refusedStatus .outOfRange } ∧
      refusedStatus .outOfRange ≠ okStatus ∧ (refusedStatus .outOfRange).code ≠ .ok :=
  ⟨rfl, rfl, by decide, by decide⟩

theorem witness_DlcAboveEightIsBadFrame : 8 < (xuState 9 xuBytes 0 8 false false).frame.dlc.toNat := by decide

/-- Each code, each at an instruction the statement names, and both kinds of access. -/
theorem witness_StatusIsWrittenByCommandsOnly :
    (after .tpfrm (tuState ff)).map (fun t => t.status.consumed) = some true ∧
    (after .csum (cuState 7 cuBytes 0 7 7 0 256)).map (fun t => t.status.code) = some .outOfRange ∧
    (after .tpfrm (xuState 9 xuBytes 0 8 false false)).map (fun t => t.status.code) = some .badFrame ∧
    (after .csum (cuState 8 cuBytes 0 7 7 0 0)).map (fun t => t.status.code) = some .badConfig ∧
    (after (.illegal 7) State.reset).map (fun t => t.status.code) = some .illegalCmd ∧
    (after (.rd 0x3D) State.reset).isSome = true ∧ (after (.wr 0x3B 1) State.reset).isSome = true := by decide

/-- Each command goes on from a state in which it does something. -/
theorem witness_CommandsWriteOnlyTheirOwnState :
    (after .xtr (xuState 8 xuBytes 0 8 false false)).isSome = true ∧
    (after .csum (cuState 8 cuBytes 0 7 7 0 256)).isSome = true ∧
    (after .tpfrm (tuState ff)).isSome = true ∧ (after .tprst (waiting ff 6 17)).isSome = true ∧
    (after .tptick (waiting ff 6 17)).isSome = true ∧ (after .fcack (waiting ff 6 17)).isSome = true := by
  decide +kernel

/-- DLC 9; DLC 8 with width 0 and with one bit too many; a whole payload. -/
theorem witness_XtrRefusesBadFrameThenOutOfRange :
    8 < (xuState 9 xuBytes 0 8 false false).frame.dlc.toNat ∧
    ((xuState 8 xuBytes 0 0 false false).frame.dlc.toNat ≤ 8 ∧
      (xuState 8 xuBytes 0 0 false false).field.width.toNat = 0) ∧
    ((xuState 8 xuBytes 57 8 false false).frame.dlc.toNat ≤ 8 ∧
      8 * (xuState 8 xuBytes 57 8 false false).frame.dlc.toNat < 57 + 8) ∧
    FieldLegal (xuState 8 xuBytes 0 64 false false).frame (xuState 8 xuBytes 0 64 false false).field := by
  unfold FieldLegal; decide

/-- The widest field and the shortest, the last bit of one byte. -/
theorem witness_XtrRawHoldsTheFieldBits :
    FieldLegal (xuState 8 xuBytes 0 64 true true).frame (xuState 8 xuBytes 0 64 true true).field ∧
    FieldLegal (xuState 1 xuBytes 7 1 false true).frame (xuState 1 xuBytes 7 1 false true).field := by
  unfold FieldLegal; decide

/-- X19 gives a NaN, X1 does not. -/
theorem witness_XtrPhysEncodesTheScaledRawValue :
    FieldLegal (xuState 8 xuBytes 0 8 false false).frame (xuState 8 xuBytes 0 8 false false).field ∧
    f64Add (f64Mul (f64OfInt 0) (f64Unpack 0x7FF0000000000000)) (f64Unpack 0) = .nan ∧
    f64Add (f64Mul (f64OfInt 0x12) (f64Unpack 0x3FF0000000000000)) (f64Unpack 0) ≠ .nan := by
  unfold FieldLegal; decide +kernel

theorem witness_XtrWithDefaultScaleConvertsTheRawValue :
    FieldLegal (xuState 8 xuBytes 0 8 false false).frame (xuState 8 xuBytes 0 8 false false).field ∧
    (xuState 8 xuBytes 0 8 false false).field.scale = 0x3FF0000000000000 ∧
    (xuState 8 xuBytes 0 8 false false).field.offset = 0 := by
  unfold FieldLegal; decide

/-- Two frames that differ beyond the DLC. -/
theorem witness_XtrReadsOnlyItsOperands :
    (xuState 1 [0x12, 0x34] 0 8 false false).frame ≠ (xuState 1 [0x12] 0 8 false false).frame ∧
    (xuState 1 [0x12, 0x34] 0 8 false false).frame.dlc = (xuState 1 [0x12] 0 8 false false).frame.dlc ∧
    (xuState 1 [0x12, 0x34] 0 8 false false).field = (xuState 1 [0x12] 0 8 false false).field ∧
    (xuState 1 [0x12, 0x34] 0 8 false false).draws = (xuState 1 [0x12] 0 8 false false).draws ∧
    ∀ k, k < (1 : Byte).toNat → payload (xuState 1 [0x12, 0x34] 0 8 false false).frame k =
      payload (xuState 1 [0x12] 0 8 false false).frame k := by decide

/-- X5: -102 in a signed byte at bit 32. -/
theorem witness_XtrRecoversAnIntegerPlacedInTheField :
    FieldLegal (xuState 8 xuBytes 32 8 false true).frame (xuState 8 xuBytes 32 8 false true).field ∧
    (xuState 8 xuBytes 32 8 false true).field.maskEn = false ∧
    (xuState 8 xuBytes 32 8 false true).field.signed = true ∧
    -(2 ^ (8 - 1)) ≤ (-102 : Int) ∧ (-102 : Int) < 2 ^ (8 - 1) ∧
    ∀ j, j < 8 → srcBit (xuState 8 xuBytes 32 8 false true).frame false (32 + j) =
      (BitVec.ofInt 8 (-102)).getLsbD (8 - 1 - j) := by
  unfold FieldLegal; decide

/-- 2^53 + 1 units lie between two values of binary64: rounded to the even one. A sum that is not 0. -/
theorem witness_RoundingIsToNearestTiesToEven :
    f64Round true (2 ^ 53 + 1) 0 = .fin true (2 ^ 53) ∧ Representable (2 ^ 53 + 2) ∧
      Spec.signed true 1 + Spec.signed false 2 ≠ 0 :=
  ⟨by decide +kernel, ⟨2 ^ 52 + 1, 1, by decide, by decide⟩, by decide⟩

/-- At the midpoint above the largest finite value, and just below it. -/
theorem witness_RoundingOverflowsToSignedInfinity :
    f64Round false ((2 ^ 54 - 1) * 2 ^ 2044) 0 = .inf false ∧
    f64Round false ((2 ^ 54 - 1) * 2 ^ 2044 - 1) 0 ≠ .inf false := by decide +kernel

/-- The least NaN, an infinity, the largest subnormal, the least and the largest normal number. -/
theorem witness_PackUndoesUnpack :
    IsNaN 0x7FF0000000000001 ∧ ¬ IsNaN 0x7FF0000000000000 ∧ ¬ IsNaN 0x000FFFFFFFFFFFFF ∧
    ((0xFFF0000000000000 : DWord).extractLsb' 52 11).toNat = 0x7FF ∧
    ((0xFFF0000000000000 : DWord).extractLsb' 0 52).toNat = 0 ∧
    ((0x000FFFFFFFFFFFFF : DWord).extractLsb' 52 11).toNat = 0 ∧
    ((0x0010000000000000 : DWord).extractLsb' 52 11).toNat = 1 ∧
    ((0x7FEFFFFFFFFFFFFF : DWord).extractLsb' 52 11).toNat = 0x7FE := by
  unfold IsNaN; decide

theorem witness_ConversionIsExactUpToTwoToThe53 : (-(2 ^ 53) : Int).natAbs ≤ 2 ^ 53 := by decide

/-- The smallest magnitude that is not 0: it cancels, and it keeps an infinity. -/
theorem witness_SpecialValuesFollowIeee754 :
    0 < 1 ∧ f64Add (.fin true 1) (.fin false 1) = .fin false 0 ∧
      f64Mul (.inf false) (.fin true 1) = .inf true := by decide

theorem witness_NanDrawCoversExactlyTheNans : IsNaN 0xFFF8000000000000 := by unfold IsNaN; decide

/-- K1, and an empty range with its check byte at the bound. -/
theorem witness_CsumWritesTheFloorModuloChecksum :
    SpecLegal (cuState 8 cuBytes 0 7 7 0 256).frame (cuState 8 cuBytes 0 7 7 0 256).csum ∧
    SpecLegal (cuState 8 cuBytes 3 3 3 0 1).frame (cuState 8 cuBytes 3 3 3 0 1).csum := by
  unfold SpecLegal; decide

/-- K8g; modulus 0, `HI` one below `LO` and `CHK` the last byte of the range; K8e and a range one byte too long. -/
theorem witness_CsumRefusesInOrder :
    8 < (cuState 9 cuBytes 0 7 7 0 0).frame.dlc.toNat ∧
    ((cuState 8 cuBytes 0 7 7 0 0).frame.dlc.toNat ≤ 8 ∧ (cuState 8 cuBytes 0 7 7 0 0).csum.modulus = 0) ∧
    ((5 : Byte).toNat ≤ 8 ∧ (4 : Byte).toNat < (5 : Byte).toNat) ∧
    ((0 : Byte).toNat ≤ (6 : Byte).toNat ∧ (6 : Byte).toNat < (7 : Byte).toNat) ∧
    (let s := cuState 7 cuBytes 0 7 7 0 256
     s.frame.dlc.toNat ≤ 8 ∧ s.csum.modulus ≠ 0 ∧ s.csum.lo.toNat ≤ s.csum.hi.toNat ∧
      ¬ (s.csum.lo.toNat ≤ s.csum.chk.toNat ∧ s.csum.chk.toNat < s.csum.hi.toNat) ∧
      s.frame.dlc.toNat ≤ s.csum.chk.toNat) ∧
    (let s := cuState 7 cuBytes 1 8 0 0 256
     s.frame.dlc.toNat ≤ 8 ∧ s.csum.modulus ≠ 0 ∧ s.csum.lo.toNat ≤ s.csum.hi.toNat ∧
      ¬ (s.csum.lo.toNat ≤ s.csum.chk.toNat ∧ s.csum.chk.toNat < s.csum.hi.toNat) ∧
      s.frame.dlc.toNat < s.csum.hi.toNat) := by decide

/-- Modulus 256 whatever the sum; modulus 250 with a small sum. -/
theorem witness_CsumAgreesWithWrappingTruncatingArithmetic :
    SpecLegal (cuState 8 cuBytes 0 7 7 0 256).frame (cuState 8 cuBytes 0 7 7 0 256).csum ∧
    (256 ∣ (256 : Word).toNat ∧ (256 : Word).toNat ∣ 2 ^ 32) ∧
    0 ≤ sumS (cuState 8 cuBytes 0 7 7 0 250).frame (cuState 8 cuBytes 0 7 7 0 250).csum ∧
    sumS (cuState 8 cuBytes 0 7 7 0 250).frame (cuState 8 cuBytes 0 7 7 0 250).csum < 2 ^ 31 := by
  unfold SpecLegal; decide +kernel

/-- Two frames that differ beyond the DLC. -/
theorem witness_CsumReadsOnlyItsOperands :
    (cuState 1 [0x31, 0x34] 0 0 0 0 256).frame ≠ (cuState 1 [0x31] 0 0 0 0 256).frame ∧
    (cuState 1 [0x31, 0x34] 0 0 0 0 256).frame.dlc = (cuState 1 [0x31] 0 0 0 0 256).frame.dlc ∧
    (cuState 1 [0x31, 0x34] 0 0 0 0 256).frame.id = (cuState 1 [0x31] 0 0 0 0 256).frame.id ∧
    (cuState 1 [0x31, 0x34] 0 0 0 0 256).csum = (cuState 1 [0x31] 0 0 0 0 256).csum ∧
    ∀ k, k < (1 : Byte).toNat → payload (cuState 1 [0x31, 0x34] 0 0 0 0 256).frame k =
      payload (cuState 1 [0x31] 0 0 0 0 256).frame k := by decide

/-- T10's frames, T9's, and both terminal phases; the longest of these frames has DLC 8. -/
theorem witness_TpfrmIgnoresOtherFrames :
    ((xuState 8 ff 0 0 false false).withTpCfg (tuState ff).tpCfg).frame.dlc.toNat ≤ 8 ∧
    ((xuState 8 ff 0 0 false false).withTpCfg (tuState ff).tpCfg).frame.id ≠ (tuState ff).tpCfg.rspId ∧
    (tuState []).frame.dlc.toNat = 0 ∧
    ((tuState cf1).session.phase = .idle ∧ framePci (tuState cf1).frame ≠ 1) ∧
    ((tuState [0x10]).session.phase = .idle ∧ (tuState [0x10]).frame.dlc.toNat < 2) ∧
    ((waiting ff 6 17).session.phase = .awaitCf ∧ framePci (waiting ff 6 17).frame ≠ 2) ∧
    (endedAs .complete .none).session.phase = .complete ∧
    (endedAs .failed .timeout).session.phase = .failed := by decide

/-- The shortest First Frame and the longest. -/
theorem witness_TpfrmAcceptsAFirstFrame :
    ∀ s ∈ [tuState [0x10, 0x00], tuState ff],
      s.buf.wf = true ∧ s.frame.id = s.tpCfg.rspId ∧ 2 ≤ s.frame.dlc.toNat ∧ s.frame.dlc.toNat ≤ 8 ∧
      s.session.phase = .idle ∧ (payload s.frame 0).extractLsb' 4 4 = 1 := by decide

/-- The Consecutive Frame of T1 stays short; a frame without data completes at once; one fills `BUF` to its end. -/
theorem witness_TpfrmAppendsTheExpectedConsecutiveFrame :
    ∀ s ∈ [waiting cf1 6 17, waiting [0x21] 6 6, waiting cf1 4094 4095],
      s.buf.wf = true ∧ s.frame.id = s.tpCfg.rspId ∧ 1 ≤ s.frame.dlc.toNat ∧ s.frame.dlc.toNat ≤ 8 ∧
      s.session.phase = .awaitCf ∧ (payload s.frame 0).extractLsb' 4 4 = 2 ∧
      (payload s.frame 0).extractLsb' 0 4 = s.session.seq ∧
      s.session.rxLen.toNat + (s.frame.dlc.toNat - 1) ≤ 4101 := by decide

/-- The sequence numbers just above and just below the expected one. -/
theorem witness_TpfrmFailsOnASequenceMismatch :
    ∀ s ∈ [waiting [0x22] 6 17, waiting [0x20, 1, 2, 3, 4, 5, 6, 7] 6 17],
      s.frame.id = s.tpCfg.rspId ∧ 1 ≤ s.frame.dlc.toNat ∧ s.frame.dlc.toNat ≤ 8 ∧
      s.session.phase = .awaitCf ∧ (payload s.frame 0).extractLsb' 4 4 = 2 ∧
      (payload s.frame 0).extractLsb' 0 4 ≠ s.session.seq := by decide

/-- A consumed frame and an ignored one. -/
theorem witness_ConsumedSaysWhetherTuChanged :
    (after .tpfrm (waiting cf1 6 17)).map (fun t => t.status.consumed) = some true ∧
    (after .tpfrm (waiting ff 6 17)).map (fun t => t.status.consumed) = some false := by decide

/-- In AWAIT_CF with the deadline one tick off, with no deadline, and not in AWAIT_CF. -/
theorem witness_TptickCountsOnlyInAwaitCf :
    (waiting ff 6 17).session.phase = .awaitCf ∧ (tuState ff).session.phase ≠ .awaitCf ∧
    (waiting ff 6 17).tpCfg.timeout = 0 := by decide

/-- The deadline 1: no tick, and one. -/
theorem witness_TimeoutComesExactlyAtTheDeadline :
    let s := (waiting ff 6 17).withTpCfg { (waiting ff 6 17).tpCfg with timeout := 1 }
    s.session.phase = .awaitCf ∧ s.session.tmr = 0 ∧ s.tpCfg.timeout ≠ 0 ∧
    0 < s.tpCfg.timeout.toNat ∧ s.tpCfg.timeout.toNat ≤ 1 := by decide

/-- One step for each row of the transition table. -/
theorem witness_PhaseChangesOnlyByTheTransitionTable :
    (nextOf (step ((tuState ff).withFetchWord 32 3))).map (fun t => t.session.phase) = some .awaitCf ∧
    (nextOf (step ((waiting cf1 6 13).withFetchWord 32 3))).map (fun t => t.session.phase) = some .complete ∧
    (nextOf (step ((waiting [0x22] 6 17).withFetchWord 32 3))).map (fun t => t.session.phase) = some .failed ∧
    (nextOf (step ((endedAs .failed .timeout).withFetchWord 32 4))).map (fun t => t.session.phase) = some .idle := by
  decide

/-- A First Frame and an acknowledgement. -/
theorem witness_FcRegistersAreWrittenByFirstFramesOnly :
    (nextOf (step ((tuState ff).withFetchWord 32 3))).map (fun t => decide (t.fc ≠ (tuState ff).fc)) = some true ∧
    (nextOf (step ((waiting ff 6 17).withFetchWord 32 6))).map (fun t => decide (t.fc ≠ (waiting ff 6 17).fc)) =
      some true := by decide

/-- One byte beyond `BUF`, and the last byte inside it. -/
theorem witness_BufferOverrunFaultsExactlyBeyondCapacity :
    after .tpfrm (waiting cf1 4095 17) = none ∧ (after .tpfrm (waiting cf1 4094 17)).isSome = true ∧
    after (.rd (regSlot .tpBufdata)) ((waiting cf1 4102 17).withBufPtr 4098) = none ∧
    (after (.rd (regSlot .tpBufdata)) ((waiting cf1 4101 17).withBufPtr 4098)).isSome = true := by decide +kernel

/-- A session in AWAIT_CF satisfies the invariant. -/
theorem witness_invariant : SoundState ((waiting cf1 6 17).withFetchWord 32 3) where
  session := ⟨rfl, .inl (by decide)⟩
  buf := by decide
  fcOverflow := by decide
  fcFrame := by decide
  consumed := by decide
  checksumOk := by decide

theorem witness_EveryStepKeepsTheSessionInvariants :
    (nextOf (step ((waiting cf1 6 17).withFetchWord 32 3))).isSome = true := by decide

/-- The events of that state are accesses the port accepts. -/
theorem witness_NoStepLeavesTheBuffer :
    ((waiting cf1 6 17).withFetchWord 32 3).inReset = false ∧
    ∀ ev ∈ ((waiting cf1 6 17).withFetchWord 32 3).bus,
      ∃ a, ev = .access a ∧ accessBits a = 32 ∧ (accessOffset a).toNat % 4 = 0 := by
  refine ⟨rfl, fun ev h => ?_⟩
  obtain rfl := List.mem_singleton.1 h
  exact ⟨_, rfl, rfl, rfl⟩

/-- Two states that differ at `BUF[6]`, the first byte beyond `RX_LEN`. -/
theorem witness_HiddenBufferBytesNeverShow :
    SameView (waiting cf1 6 17) ((waiting cf1 6 17).withBuf ((waiting cf1 6 17).buf ++ [(6, 0x55)])) ∧
    (waiting cf1 6 17).buf ≠ (waiting cf1 6 17).buf ++ [(6, 0x55)] :=
  ⟨⟨rfl, by decide, by decide, by decide⟩, by decide⟩

theorem witness_AtMostOneFlowControlFramePerSession :
    (∀ ev ∈ ((tuState ff).withFetchWord 32 3).bus.take 2, resetsSession ev = false) ∧
    generatedFrames 2 ((tuState ff).withFetchWord 32 3) = 1 ∧
    (waiting ff 6 17).session.phase ≠ .idle ∧
    (tuState ff).session.phase = .idle ∧
    (nextOf (Sys2Proof.core.run 1 ((tuState ff).withFetchWord 32 3))).map (fun t => t.session.phase) =
      some .awaitCf := by decide

/-- TU configured and idle satisfies the invariant. -/
theorem witness_invariant_idle : SoundState (tuState ff) where
  session := rfl
  buf := rfl
  fcOverflow := by decide
  fcFrame := by decide
  consumed := by decide
  checksumOk := by decide

/-- The shortest message, seven bytes, in one Consecutive Frame of one byte; `witness_invariant_idle` is the rest. -/
theorem witness_ReassemblyDeliversTheMessage :
    (tuState ff).session.phase = .idle ∧ 6 < [1, 2, 3, 4, 5, 6, (7 : Byte)].length ∧
    [1, 2, 3, 4, 5, 6, (7 : Byte)].length ≤ 4095 ∧
    [[(7 : Byte)]].flatten = [1, 2, 3, 4, 5, 6, (7 : Byte)].drop 6 ∧
    (∀ c ∈ [[(7 : Byte)]], 1 ≤ c.length ∧ c.length ≤ 7) := by decide

end Sys2Proof.Tests
end

