-- ==== Sys2Proof/Proofs/SessionRegisters.lean ====
section
/-! Proofs of the statements about `TP_STATUS` and `TP_LEN` (10_state.md R36, R37): what an access to a register's
slot does, then each word field by field. -/

namespace Sys2Proof.Machine

/-! Accesses to the slot of a named register (20_memory.md R51, R52). -/

theorem exec_rd_regSlot {r : Reg} {v : Word} {s : State} (h : readReg r s = some v) :
    exec (.rd (regSlot r)) s = .next (s.withLastRead (some v)) := by
  simp [exec, execRd, h]

theorem writeReg_of_ro {r : Reg} (h : regAccess r = .ro) (s : State) (v : Word) : writeReg r v s = s := by
  cases r <;> cases h <;> rfl

/-- 20_memory.md R52: a write to a read-only register has no effect. -/
theorem exec_wr_of_ro {r : Reg} (h : regAccess r = .ro) (s : State) (v : Word) :
    exec (.wr (regSlot r) v) s = .next s := by
  have hcmd : r ≠ .cmd := by rintro rfl; cases h
  calc exec (.wr (regSlot r) v) s
      = .next (writeReg r v s) := execWr_regSlot hcmd v s
    _ = .next s := by rw [writeReg_of_ro h]

/-- A field of a word is a value when it shows that value's bits. -/
theorem extractLsb'_eq_of_bits {n : Nat} {w : Word} {k : Nat} {x : BitVec n}
    (h : ∀ i, i < n → w.getLsbD (k + i) = x.getLsbD i) : w.extractLsb' k n = x := by
  apply BitVec.eq_of_getLsbD_eq
  intro i hi
  rw [BitVec.getLsbD_extractLsb', h i hi, decide_eq_true hi, Bool.true_and]

/-! The fields of `TP_STATUS` (10_state.md R36). -/

theorem rxShort_iff (x : Session) :
    rxShort x = true ↔ x.phase = .failed ∧ x.rxLen.toNat < x.expLen.toNat := by
  simp [rxShort]

section
variable (x : Session) (fc : FcOut)

theorem tpStatusWord_phase : (tpStatusWord x fc).extractLsb' 0 2 = x.phase.code :=
  extractLsb'_eq_of_bits fun i hi => by
    rw [tpStatusWord_bit x fc (by omega), if_pos (by omega), Nat.zero_add]

theorem tpStatusWord_err : (tpStatusWord x fc).extractLsb' 4 2 = x.err.code :=
  extractLsb'_eq_of_bits fun i hi => by
    rw [tpStatusWord_bit x fc (by omega), if_neg (by omega), if_neg (by omega), if_pos (by omega),
      Nat.add_sub_cancel_left]

theorem tpStatusWord_seq : (tpStatusWord x fc).extractLsb' 8 4 = x.seq :=
  extractLsb'_eq_of_bits fun i hi => by
    rw [tpStatusWord_bit x fc (by omega), if_neg (by omega), if_neg (by omega), if_neg (by omega),
      if_neg (by omega), if_pos (by omega), Nat.add_sub_cancel_left]

/-- A field that lies in the reserved bits 3:2, 7:6 or 31:15 reads 0. -/
theorem tpStatusWord_reserved {k n : Nat} (h : (2 ≤ k ∧ k + n ≤ 4) ∨ (6 ≤ k ∧ k + n ≤ 8) ∨ (15 ≤ k ∧ k + n ≤ 32)) :
    (tpStatusWord x fc).extractLsb' k n = 0 :=
  extractLsb'_eq_of_bits fun i hi => by
    rw [tpStatusWord_bit x fc (by omega)]
    split_ifs <;> first | omega | exact (BitVec.getLsbD_zero).symm

theorem tpStatusWord_fcPending : (tpStatusWord x fc).getLsbD 12 = fc.pending :=
  tpStatusWord_bit x fc (i := 12) (by decide)

theorem tpStatusWord_fcOverflow : (tpStatusWord x fc).getLsbD 13 = fc.overflow :=
  tpStatusWord_bit x fc (i := 13) (by decide)

theorem tpStatusWord_rxShort :
    (tpStatusWord x fc).getLsbD 14 = true ↔ x.phase = .failed ∧ x.rxLen.toNat < x.expLen.toNat := by
  have hbit : (tpStatusWord x fc).getLsbD 14 = rxShort x := tpStatusWord_bit x fc (i := 14) (by decide)
  rw [hbit, rxShort_iff]

end

/-! The fields of `TP_LEN` (10_state.md R37). -/

section
variable (x : Session)

theorem lenWord_expLen : (lenWord x).extractLsb' 0 12 = x.expLen :=
  extractLsb'_eq_of_bits fun i hi => by
    rw [lenWord_bit, if_pos (by omega), Nat.zero_add]

theorem lenWord_reservedMiddle : (lenWord x).extractLsb' 12 4 = 0 :=
  extractLsb'_eq_of_bits fun i hi => by
    rw [lenWord_bit, if_neg (by omega), if_pos (by omega)]
    exact BitVec.getLsbD_zero.symm

theorem lenWord_rxLen : (lenWord x).extractLsb' 16 13 = x.rxLen :=
  extractLsb'_eq_of_bits fun i _ => by
    rw [lenWord_bit, if_neg (by omega), if_neg (by omega), Nat.add_sub_cancel_left]

/-- Bits 31:29 lie above the 13 bits of `RX_LEN`. -/
theorem lenWord_reservedTop : (lenWord x).extractLsb' 29 3 = 0 :=
  extractLsb'_eq_of_bits fun i _ => by
    rw [lenWord_bit, if_neg (by omega), if_neg (by omega), BitVec.getLsbD_of_ge x.rxLen _ (by omega)]
    exact BitVec.getLsbD_zero.symm

end

/-- Settles O16: the word a read returns is taken field by field; `TP_STATUS` is read-only. -/
theorem tpStatusShowsTheSession : Obligations.TpStatusShowsTheSession := by
  unfold Obligations.TpStatusShowsTheSession
  refine ⟨rfl, ⟨rfl, rfl, rfl, rfl⟩, ⟨rfl, rfl, rfl, rfl⟩, fun s => ?_, exec_wr_of_ro rfl, by decide⟩
  have hread : readReg .tpStatus s = some (tpStatusWord s.session s.fc) := rfl
  exact ⟨_, exec_rd_regSlot hread,
    tpStatusWord_phase .., tpStatusWord_reserved _ _ (by decide),
    tpStatusWord_err .., tpStatusWord_reserved _ _ (by decide),
    tpStatusWord_seq .., tpStatusWord_fcPending .., tpStatusWord_fcOverflow ..,
    tpStatusWord_rxShort .., tpStatusWord_reserved _ _ (by decide)⟩

/-- Settles O17: the word a read returns is taken field by field; `TP_LEN` is read-only. -/
theorem tpLenShowsBothLengths : Obligations.TpLenShowsBothLengths := by
  unfold Obligations.TpLenShowsBothLengths
  refine ⟨rfl, fun s => ?_, exec_wr_of_ro rfl, by decide⟩
  have hread : readReg .tpLen s = some (lenWord s.session) := rfl
  exact ⟨_, exec_rd_regSlot hread,
    lenWord_expLen _, lenWord_reservedMiddle _, lenWord_rxLen _, lenWord_reservedTop _⟩

end Sys2Proof.Machine
end

