-- ==== Sys2Proof/Proofs/CommandWords.lean ====
section
/-! Proofs of the statements about command words (30_encoding.md R63, R66): the illegal words are those of value 7 or
more, the decoder answers each with itself, and a write to `CMD` performs what the decoder answers. -/

namespace Sys2Proof

/-- 30_encoding.md R66: the two classes of illegal words. -/
theorem isIllegalWord_iff {v : Word} :
    isIllegalWord v = true ↔ v.extractLsb' 8 24 ≠ 0 ∨ 7 ≤ (v.extractLsb' 0 8).toNat := by
  simp [isIllegalWord]

/-- `Z` stands above `OPC`, so the two classes together are a bound on the word's value. -/
theorem isIllegalWord_iff_toNat {v : Word} : isIllegalWord v = true ↔ 7 ≤ v.toNat := by
  have hfields := word_toNat_fields v
  have hz : v.extractLsb' 8 24 ≠ 0 ↔ (v.extractLsb' 8 24).toNat ≠ 0 :=
    (BitVec.toNat_inj (y := 0)).not.symm
  rw [isIllegalWord_iff, hz]
  omega

/-- 30_encoding.md R63: an illegal word selects the illegal command that holds it. -/
theorem decodeCommand_of_isIllegalWord {v : Word} (h : isIllegalWord v = true) :
    decodeCommand v = .illegal v := by
  unfold decodeCommand
  split_ifs with hz
  · rfl
  · have hopc : 7 ≤ (v.extractLsb' 0 8).toNat := (isIllegalWord_iff.1 h).resolve_left hz
    split
    case h_8 => rfl
    all_goals omega

end Sys2Proof

namespace Sys2Proof.Machine

theorem performCommand_eq_exec (c : Command) (s : State) : performCommand c s = exec c.toInstr s := by
  cases c <;> rfl

/-- 20_memory.md R52: a write to `CMD` runs the instruction of the command its data selects. -/
theorem exec_wr_cmdSlot (v : Word) (s : State) :
    exec (.wr Config.cmdSlot v) s = exec (decodeCommand v).toInstr s :=
  calc exec (.wr Config.cmdSlot v) s
      = execWr Config.cmdSlot v s := rfl
    _ = performCommand (decodeCommand v) s := if_pos rfl
    _ = exec (decodeCommand v).toInstr s := performCommand_eq_exec _ s

/-- 30_encoding.md R66: an illegal command raises `ILLEGAL_CMD`, which is an update of `CMD_STATUS` alone. -/
theorem exec_illegal (v : Word) (s : State) :
    exec (.illegal v) s = .next { s with status := Spec.refusedStatus .illegalCmd } :=
  congrArg Host.Outcome.next (raiseCode_eq s .illegalCmd)

/-- Settles O1: the seven command words are decoded one by one; a word that is none of them has a value of 7 or more,
so it is illegal. -/
theorem commandWordsSelectExactlyOneCommand : Obligations.CommandWordsSelectExactlyOneCommand := by
  unfold Obligations.CommandWordsSelectExactlyOneCommand
  intro v
  rw [decode_commandAccess]
  congr 1
  split_ifs with h0 h1 h2 h3 h4 h5 h6
  iterate 7 subst v; rfl
  have hbound : 7 ≤ v.toNat := by bv_omega
  rw [decodeCommand_of_isIllegalWord (isIllegalWord_iff_toNat.2 hbound), Command.toInstr]

/-- Settles O21: the decoder answers an illegal word with itself, so the command and the write to `CMD` run the same
instruction, which raises `ILLEGAL_CMD`. -/
theorem illegalWordReportsIllegalCmdOnly : Obligations.IllegalWordReportsIllegalCmdOnly := by
  unfold Obligations.IllegalWordReportsIllegalCmdOnly
  refine ⟨⟨rfl, rfl, rfl, rfl, rfl⟩, fun v s h => ?_⟩
  have hcmd : decodeCommand v = .illegal v := decodeCommand_of_isIllegalWord (isIllegalWord_iff.2 h)
  refine ⟨?_, exec_illegal v s, ?_⟩
  · rw [decode_commandAccess, hcmd, Command.toInstr]
  · rw [exec_wr_cmdSlot, hcmd, Command.toInstr, exec_illegal]

end Sys2Proof.Machine
end

