-- ==== Sys2Proof/Proofs/FieldChecks.lean ====
section
/-! Proofs of the statements about the checks of XU (40_extractor.md R76): which code the field check gives, what
`XTR` does with it, and what a field that passes fits in. -/

namespace Sys2Proof.Machine

section
variable {f : FrameRegs} {d : FieldRegs}

/-- 40_extractor.md R76: the frame is checked first, whatever the field. -/
theorem fieldCheck_of_dlc_gt (h : 8 < f.dlc.toNat) : fieldCheck f d = some .badFrame := by
  obtain ⟨_, hc⟩ | ⟨hdlc, _⟩ | ⟨hdlc, _⟩ := fieldCheck_cases f d
  · exact hc
  all_goals omega

/-- 40_extractor.md R76: width and range are checked only where the frame is sound; the sum of `START` and `WIDTH` is
one of natural numbers, so it does not wrap. -/
theorem fieldCheck_of_out_of_range (hdlc : f.dlc.toNat ≤ 8)
    (h : d.width.toNat = 0 ∨ 8 * f.dlc.toNat < d.start.toNat + d.width.toNat) :
    fieldCheck f d = some .outOfRange := by
  obtain ⟨hbad, _⟩ | ⟨_, _, hc⟩ | ⟨_, hwidth, hrange, _⟩ := fieldCheck_cases f d
  · omega
  · exact hc
  · omega

end

/-- 40_extractor.md R84, 60_exceptions.md R124: `XTR` with a failed check reports its code in `CMD_STATUS` and changes
nothing else. -/
theorem exec_xtr_of_fieldCheck {s : State} {c : StatusCode} (h : fieldCheck s.frame s.field = some c) :
    exec .xtr s = .next { s with status := Spec.refusedStatus c } :=
  calc exec .xtr s
      = execXtr s := rfl
    _ = .next (raiseCode c s) := by rw [execXtr, h]
    _ = .next { s with status := Spec.refusedStatus c } := congrArg Host.Outcome.next (raiseCode_eq s c)

end Sys2Proof.Machine

namespace Sys2Proof.Spec.FieldLegal

open Sys2Proof.Machine

variable {f : FrameRegs} {d : FieldRegs}

/-- A legal field lies in a payload of at most eight bytes. -/
theorem width_le (h : FieldLegal f d) : d.width.toNat ≤ 64 := by
  obtain ⟨hdlc, _, hrange⟩ := h
  omega

/-- An empty payload holds no field, since a field has at least one bit. -/
theorem dlc_ne_zero (h : FieldLegal f d) : f.dlc.toNat ≠ 0 := by
  obtain ⟨_, hwidth, hrange⟩ := h
  omega

end Sys2Proof.Spec.FieldLegal

namespace Sys2Proof.Machine

/-- Settles O26: each refusal is the field check's code carried into `CMD_STATUS`; what passes lies in the payload. -/
theorem xtrRefusesBadFrameThenOutOfRange : Obligations.XtrRefusesBadFrameThenOutOfRange := by
  unfold Obligations.XtrRefusesBadFrameThenOutOfRange
  intro s
  refine ⟨fun hdlc => ?badFrame, fun hdlc hfield => ?outOfRange, fun hlegal => ?legal⟩
  case badFrame => exact exec_xtr_of_fieldCheck (fieldCheck_of_dlc_gt hdlc)
  case outOfRange => exact exec_xtr_of_fieldCheck (fieldCheck_of_out_of_range hdlc hfield)
  case legal => exact ⟨hlegal.width_le, hlegal.dlc_ne_zero⟩

end Sys2Proof.Machine
end

