-- ==== Sys2Proof/Proofs/Checksum.lean ====
section
/-! Proofs of the statements about CU (41_checksum.md): which code the spec checks give (R89), that the accumulator and
the modulo reducer are the sum and the floor modulo of R90 and R91, and how `CSUM` ends (R92, R93). -/

namespace Sys2Proof.Machine

open Sys2Proof.Spec

section
variable {f : FrameRegs} {c : ChecksumRegs}

/-! Spec checks (41_checksum.md R89). -/

/-- 41_checksum.md R89: the frame is checked first, whatever the spec. -/
theorem checksumCheck_of_dlc_gt (h : 8 < f.dlc.toNat) : checksumCheck f c = some .badFrame := by
  obtain ⟨_, hc⟩ | ⟨hdlc, _⟩ | ⟨hdlc, _⟩ | ⟨hdlc, _⟩ := checksumCheck_cases f c
  · exact hc
  all_goals omega

/-- 41_checksum.md R89: a meaningless spec is found before the frame's length is compared with it. -/
theorem checksumCheck_of_bad_config (hdlc : f.dlc.toNat ≤ 8)
    (h : c.modulus = 0 ∨ c.hi.toNat < c.lo.toNat ∨ (c.lo.toNat ≤ c.chk.toNat ∧ c.chk.toNat < c.hi.toNat)) :
    checksumCheck f c = some .badConfig := by
  obtain ⟨hbad, _⟩ | ⟨_, _, hc⟩ | ⟨_, hspec, _⟩ | ⟨_, hspec, _⟩ := checksumCheck_cases f c
  · omega
  · exact hc
  all_goals exact absurd h hspec

/-- 41_checksum.md R89: the bounds are checked only where the frame is sound and the spec has a meaning. -/
theorem checksumCheck_of_out_of_range (hdlc : f.dlc.toNat ≤ 8) (hmod : c.modulus ≠ 0)
    (hrange : c.lo.toNat ≤ c.hi.toNat) (hout : ¬ (c.lo.toNat ≤ c.chk.toNat ∧ c.chk.toNat < c.hi.toNat))
    (h : f.dlc.toNat < c.hi.toNat ∨ f.dlc.toNat ≤ c.chk.toNat) :
    checksumCheck f c = some .outOfRange := by
  obtain ⟨hbad, _⟩ | ⟨_, hzero | hempty | hin, _⟩ | ⟨_, _, _, hc⟩ | ⟨_, _, hhi, hchk, _⟩ :=
    checksumCheck_cases f c
  · omega
  · exact absurd hzero hmod
  · omega
  · exact absurd hin hout
  · exact hc
  · omega

/-- 41_checksum.md R89: a legal spec fails no check. -/
theorem checksumCheck_of_specLegal (h : SpecLegal f c) : checksumCheck f c = none := by
  obtain ⟨hdlc, hmod, hrange, hout, hhi, hchk⟩ := h
  obtain ⟨hbad, _⟩ | ⟨_, hzero | hempty | hin, _⟩ | ⟨_, _, hbound, _⟩ | ⟨_, _, _, _, hc⟩ :=
    checksumCheck_cases f c
  · omega
  · exact absurd hzero hmod
  · omega
  · exact absurd hin hout
  · omega
  · exact hc

end

/-! Accumulator and modulo reducer (41_checksum.md R90, R91). -/

/-- 41_checksum.md R90: the bytes of a range that the model lists one after the other add up to the sum over the
range's addresses. -/
theorem sum_payloadBytes (f : FrameRegs) (lo hi : Nat) :
    ((payloadBytes f lo (hi - lo)).map BitVec.toNat).sum = ∑ k ∈ Finset.Ico lo hi, (payload f k).toNat := by
  rw [Finset.sum_Ico_eq_sum_range, payloadBytes, List.map_map]
  rfl

/-- 41_checksum.md R90: the accumulator holds `S`. -/
theorem checksumSum_eq_sumS (f : FrameRegs) (c : ChecksumRegs) : checksumSum f c = sumS f c := by
  rw [checksumSum, sumS, sum_payloadBytes, Nat.cast_sum]

/-- 41_checksum.md R91: the modulus is not negative, so the model's remainder is floor modulo. -/
theorem checksumExpected_eq_fmod (f : FrameRegs) (c : ChecksumRegs) :
    checksumExpected f c = BitVec.ofInt 8 (Int.fmod (sumS f c) (c.modulus.toNat : Int)) := by
  rw [checksumExpected, checksumSum_eq_sumS, Int.fmod_eq_emod_of_nonneg _ (Int.natCast_nonneg _)]

/-! The command (41_checksum.md R93). -/

section
variable {s : State}

/-- 41_checksum.md R93, 60_exceptions.md R124: `CSUM` with a failed check reports its code in `CMD_STATUS` and changes
nothing else. -/
theorem exec_csum_of_checksumCheck {code : StatusCode} (h : checksumCheck s.frame s.csum = some code) :
    exec .csum s = .next { s with status := refusedStatus code } :=
  calc exec .csum s
      = execCsum s := rfl
    _ = .next (raiseCode code s) := by rw [execCsum, h]
    _ = .next { s with status := refusedStatus code } := congrArg Host.Outcome.next (raiseCode_eq s code)

/-- 41_checksum.md R92-R94: `CSUM` of a legal spec writes `CRES` and reports `OK`, whether the bytes match or not. -/
theorem exec_csum_of_specLegal (h : SpecLegal s.frame s.csum) :
    exec .csum s = .next { s with
      csumRes := { expected := checksumExpected s.frame s.csum, actual := payload s.frame s.csum.chk.toNat
                   ok := checksumExpected s.frame s.csum == payload s.frame s.csum.chk.toNat }
      status := okStatus } :=
  calc exec .csum s
      = execCsum s := rfl
    _ = .next (doneWith false (s.withCsumRes
          { expected := checksumExpected s.frame s.csum, actual := payload s.frame s.csum.chk.toNat
            ok := checksumExpected s.frame s.csum == payload s.frame s.csum.chk.toNat })) := by
        rw [execCsum, checksumCheck_of_specLegal h]
    _ = _ := congrArg Host.Outcome.next (doneWith_eq _ false)

end

/-- Settles O38: the checks pass, so `CSUM` writes what the reducer and the comparator give, and the reducer gives the
floor modulo of `S`. -/
theorem csumWritesTheFloorModuloChecksum : Obligations.CsumWritesTheFloorModuloChecksum := by
  unfold Obligations.CsumWritesTheFloorModuloChecksum
  intro s hlegal
  exact ⟨checksumExpected s.frame s.csum, checksumExpected_eq_fmod s.frame s.csum, exec_csum_of_specLegal hlegal⟩

/-- Settles O39: each refusal is the spec check's code carried into `CMD_STATUS`. -/
theorem csumRefusesInOrder : Obligations.CsumRefusesInOrder := by
  unfold Obligations.CsumRefusesInOrder
  intro s
  refine ⟨fun hdlc => ?badFrame, fun hdlc hspec => ?badConfig, fun hdlc hmod hrange hout hbound => ?outOfRange⟩
  case badFrame => exact exec_csum_of_checksumCheck (checksumCheck_of_dlc_gt hdlc)
  case badConfig => exact exec_csum_of_checksumCheck (checksumCheck_of_bad_config hdlc hspec)
  case outOfRange =>
    exact exec_csum_of_checksumCheck (checksumCheck_of_out_of_range hdlc hmod hrange hout hbound)

end Sys2Proof.Machine
end

