-- ==== Sys2Proof/Proofs/Isotp.lean ====
section
/-! Proofs of the statements about TU (42_isotp.md): how `TPFRM` ends on a Consecutive Frame whose sequence number is
not the expected one (R104). -/

namespace Sys2Proof.Machine

section
variable {s : State}

/-- 42_isotp.md R104, R106: of everything a `TPFRM` can do, failing the session is what remains for a sound session
frame in AWAIT_CF with PCI 2 and another sequence number. -/
theorem execTpfrm_of_sequence_mismatch (hdlc : s.frame.dlc.toNat ≤ 8)
    (hframe : isSessionFrame s.frame s.tpCfg = true) (hphase : s.session.phase = .awaitCf)
    (hpci : framePci s.frame = 2) (hsn : frameSn s.frame ≠ s.session.seq) :
    execTpfrm s = .next (doneWith true (s.withSession (failSession .seqMismatch s.session))) := by
  have other {p : Phase} (hne : p ≠ .awaitCf) : s.session.phase ≠ p := fun hp => hne (hp.symm.trans hphase)
  obtain ⟨hbad, _⟩ | ⟨_, _, hignored⟩ | ⟨_, _, hidle, _⟩ | ⟨_, _, _, _, hexpected, _⟩ | ⟨_, _, _, _, _, hfail⟩ :=
    execTpfrm_cases s
  case inl => omega
  case inr.inl =>
    obtain hstray | ⟨hidle, _⟩ | ⟨_, hother⟩ | hcomplete | hfailed := hignored
    · exact absurd hframe (by simp [hstray])
    · exact absurd hidle (other (by decide))
    · exact absurd hpci hother
    · exact absurd hcomplete (other (by decide))
    · exact absurd hfailed (other (by decide))
  case inr.inr.inl => exact absurd hidle (other (by decide))
  case inr.inr.inr.inl => exact absurd hexpected hsn
  case inr.inr.inr.inr => exact hfail

/-- 42_isotp.md R104: failing the session and reporting the frame as consumed update `PHASE`, `ERR` and `CMD_STATUS`,
nothing else. -/
theorem doneWith_withSession_failSession (b : Bool) (e : SessionError) :
    doneWith b (s.withSession (failSession e s.session)) =
      { s with session := { s.session with phase := .failed, err := e }
               status := { code := .ok, consumed := b } } := rfl

end

/-- Settles O45: the frame is a session frame with the PCI of a Consecutive Frame, so the mismatch fails the session,
which updates `PHASE`, `ERR` and the status alone. -/
theorem tpfrmFailsOnASequenceMismatch : Obligations.TpfrmFailsOnASequenceMismatch := by
  unfold Obligations.TpfrmFailsOnASequenceMismatch
  intro s hid hdlc1 hdlc8 hphase hpci hsn
  have hframe : isSessionFrame s.frame s.tpCfg = true := isSessionFrame_iff.2 ⟨hid, hdlc1⟩
  calc exec .tpfrm s
      = execTpfrm s := rfl
    _ = .next (doneWith true (s.withSession (failSession .seqMismatch s.session))) :=
        execTpfrm_of_sequence_mismatch hdlc8 hframe hphase hpci hsn
    _ = _ := congrArg Host.Outcome.next (doneWith_withSession_failSession true .seqMismatch)

end Sys2Proof.Machine
end

