-- ==== Sys2Proof/Proofs/Refusals.lean ====
section
/-! Proofs of the statements about refused commands (60_exceptions.md R123, R124): a command ends by a raise on the
state it began with, or normally, and only the raise leaves another code than `OK`. -/

namespace Sys2Proof.Machine

open Sys2Proof.Spec

section
variable {s t : State}

/-- 00_scope.md R11: the two ends of a command. A raise finds the state as the command found it; the normal end may
find any state `u` the command made. -/
theorem exec_command_next {i : Instr} (hi : isCommand i = true) (h : exec i s = .next t) :
    (∃ c, t = raiseCode c s) ∨ ∃ b u, t = doneWith b u := by
  cases i with
  | rd | wr => cases hi
  | nop | tprst | tptick | fcack => exact .inr ⟨_, _, (Host.Outcome.next.inj h).symm⟩
  | illegal => exact .inl ⟨_, (Host.Outcome.next.inj h).symm⟩
  | xtr =>
    obtain ⟨c, _, hraise⟩ | ⟨_, hdone⟩ := execXtr_next h
    · exact .inl ⟨c, hraise⟩
    · exact .inr ⟨_, _, hdone⟩
  | csum =>
    obtain ⟨c, _, hraise⟩ | ⟨_, hdone⟩ := execCsum_next h
    · exact .inl ⟨c, hraise⟩
    · exact .inr ⟨_, _, hdone⟩
  | tpfrm =>
    obtain hraise | hignored | ⟨_, _, _, _, hfirst⟩ | ⟨_, _, _, _, hconsecutive⟩ | ⟨_, hfail⟩ := execTpfrm_next h
    · exact .inl ⟨_, hraise⟩
    · exact .inr ⟨_, _, hignored⟩
    · exact .inr ⟨_, _, hfirst⟩
    · exact .inr ⟨_, _, hconsecutive⟩
    · exact .inr ⟨_, _, hfail⟩

end

/-- Settles O22: a normal end reports `OK`, so the command ended by a raise, which updates `CMD_STATUS` alone. -/
theorem refusalWritesOnlyTheStatus : Obligations.RefusalWritesOnlyTheStatus := by
  unfold Obligations.RefusalWritesOnlyTheStatus
  intro i s t hi h hcode
  obtain ⟨c, rfl⟩ | ⟨b, u, rfl⟩ := exec_command_next hi h
  case inl => exact raiseCode_eq s c
  case inr =>
    have hok : (doneWith b u).status.code = .ok := by rw [doneWith_status]
    exact absurd hok hcode

end Sys2Proof.Machine
end

/-! Proofs of the statements about the encoding and the bus port (30_encoding.md R63-R66, R73; 20_memory.md R49, R50):
decoding and encoding are inverse on well-formed instructions, and which accesses have a step. -/

namespace Sys2Proof

/-! The bus accesses of an instruction. -/

/-- 20_memory.md R49: the port reads the slot of a 32-bit access at that slot's offset. -/
@[simp] theorem acceptSlot_slotOffset (slot : BitVec 6) : acceptSlot 32 (slotOffset slot) = .ok slot :=
  acceptSlot_ok.2 ⟨rfl, rfl⟩

theorem decode_read_slotOffset (slot : BitVec 6) : decode (.read 32 (slotOffset slot)) = .ok (.rd slot) := by
  simp [decode]

theorem decode_write_slotOffset {slot : BitVec 6} (h : slot ≠ Config.cmdSlot) (v : Word) :
    decode (.write 32 (slotOffset slot) v) = .ok (.wr slot v) := by
  simp [decode, h]

/-- A word that is not illegal is one of the seven command words (30_encoding.md R65, R66). -/
theorem command_word_of_not_illegal {v : Word} (h : isIllegalWord v = false) :
    v = 0 ∨ v = 1 ∨ v = 2 ∨ v = 3 ∨ v = 4 ∨ v = 5 ∨ v = 6 := by
  have hlt : ¬ 7 ≤ v.toNat := by simp [← isIllegalWord_iff_toNat, h]
  bv_omega

/-- 30_encoding.md R63, R65: the instruction a command word selects is well formed, and its encoding is that word. -/
theorem encode_decodeCommand (v : Word) :
    encode (decodeCommand v).toInstr = commandAccess v ∧ (decodeCommand v).toInstr.WellFormed := by
  cases hv : isIllegalWord v with
  | true => rw [decodeCommand_of_isIllegalWord hv]; exact ⟨rfl, hv⟩
  | false => obtain rfl | rfl | rfl | rfl | rfl | rfl | rfl := command_word_of_not_illegal hv <;> exact ⟨rfl, rfl⟩

/-- Settles O3: a command word goes through the command decoder, a register access through its slot; well-formedness
keeps an illegal word out of the command map and `wr` off the slot of `CMD`. -/
theorem decodeEncodeGivesTheInstructionBack : Obligations.DecodeEncodeGivesTheInstructionBack := by
  unfold Obligations.DecodeEncodeGivesTheInstructionBack
  intro i hi
  cases i with
  | rd slot => exact decode_read_slotOffset slot
  | wr slot v => exact decode_write_slotOffset (bne_iff_ne.1 hi) v
  | illegal w => exact (decode_commandAccess w).trans (by rw [decodeCommand_of_isIllegalWord hi, Command.toInstr])
  | nop | xtr | csum | tpfrm | tprst | tptick | fcack => exact decode_commandAccess _

/-- Settles O4: the port accepts only the offset of a slot at 32 bits, so nothing of the access is lost; a write to
`CMD` is the command word its instruction encodes to. -/
theorem acceptedAccessIsTheEncodingOfItsInstruction : Obligations.AcceptedAccessIsTheEncodingOfItsInstruction := by
  unfold Obligations.AcceptedAccessIsTheEncodingOfItsInstruction
  intro a i h
  cases a with
  | read bits off =>
    simp only [decode] at h
    split at h
    · cases h
    next slot hslot =>
      obtain ⟨rfl, rfl⟩ := acceptSlot_ok.1 hslot
      cases h
      exact ⟨rfl, rfl⟩
  | write bits off v =>
    simp only [decode] at h
    split at h
    · cases h
    next slot hslot =>
      obtain ⟨rfl, rfl⟩ := acceptSlot_ok.1 hslot
      split_ifs at h with hcmd
      · cases h; subst hcmd
        exact encode_decodeCommand v
      · cases h
        exact ⟨rfl, bne_iff_ne.2 hcmd⟩

/-- Settles O2: the words and accesses are evaluated. -/
theorem writtenOutWordsDecode : Obligations.WrittenOutWordsDecode := by
  unfold Obligations.WrittenOutWordsDecode
  exact ⟨rfl, rfl, rfl, rfl, rfl, rfl, rfl⟩

end Sys2Proof

namespace Sys2Proof.Machine

open Sys2Proof.Spec

section
variable {s : State} {a : HostAccess} {rest : List HostEvent}

/-! The port, and the step of each event. -/

/-- An access the port turns away at its width or alignment is turned away by the decoder with the same name. -/
theorem decode_error {r : AccessReject} (h : acceptSlot (accessBits a) (accessOffset a) = .error r) :
    decode a = .error r := by
  cases a with
  | read bits off | write bits off v =>
    simp only [accessBits, accessOffset] at h
    simp only [decode, h]

theorem decode_accepted {slot : BitVec 6} (h : acceptSlot (accessBits a) (accessOffset a) = .ok slot) :
    ∃ i, decode a = .ok i := by
  cases a with
  | read bits off =>
    simp only [accessBits, accessOffset] at h
    exact ⟨_, by simp only [decode, h]; rfl⟩
  | write bits off v =>
    simp only [accessBits, accessOffset] at h
    simp only [decode, h]
    split_ifs <;> exact ⟨_, rfl⟩

theorem decode_of_width_ne (h : accessBits a ≠ 32) : decode a = .error .width :=
  decode_error (acceptSlot_width h)

theorem decode_of_misaligned (hbits : accessBits a = 32) (h : (accessOffset a).toNat % 4 ≠ 0) :
    decode a = .error .misaligned :=
  decode_error (hbits ▸ acceptSlot_misaligned h)

theorem decode_of_aligned (hbits : accessBits a = 32) (h : (accessOffset a).toNat % 4 = 0) : ∃ i, decode a = .ok i :=
  decode_accepted (hbits ▸ acceptSlot_aligned h)

theorem step_of_no_event (h : s.bus = []) : step s = .next s := by simp [step, h]

theorem step_assertReset (h : s.bus = .assertReset :: rest) : step s = .next (blockReset (s.withBus rest)) := by
  simp [step, h]

theorem step_releaseReset (h : s.bus = .releaseReset :: rest) :
    step s = .next ((s.withBus rest).withInReset false) := by
  simp [step, h]

/-- The port's answer decides the step of an access. -/
theorem step_access_error {r : Refusal} (h : s.bus = .access a :: rest) (ha : acceptAccess s a = .error r) :
    step s = .refused r := by
  simp [step, h, ha]

theorem step_access_ok {i : Instr} (h : s.bus = .access a :: rest) (hr : s.inReset = false) (hd : decode a = .ok i) :
    step s = exec i (s.withBus rest) := by
  simp [step, h, (acceptAccess_ok s).2 ⟨hr, hd⟩]

/-- 70_reset_and_hazards.md R137: while reset is asserted the port accepts nothing. -/
theorem step_access_inReset (h : s.bus = .access a :: rest) (hr : s.inReset = true) :
    step s = .refused .accessDuringReset :=
  step_access_error h (by simp [acceptAccess, hr])

end

/-- Settles O5: the port accepts the access. -/
theorem stepRunsTheDecodedInstruction : Obligations.StepRunsTheDecodedInstruction := by
  unfold Obligations.StepRunsTheDecodedInstruction
  intro s a rest i hbus hreset hdecode
  exact step_access_ok hbus hreset hdecode

/-- Settles O6: with reset released the port's answer is the decoder's, and no instruction is refused. -/
theorem accessRefusedExactlyWhenNotAcceptable : Obligations.AccessRefusedExactlyWhenNotAcceptable := by
  unfold Obligations.AccessRefusedExactlyWhenNotAcceptable
  intro s a rest hbus
  refine ⟨step_access_inReset hbus, fun hreset hbits => ?width, fun hreset hbits hoff => ?alignment,
    fun hreset hbits hoff r => ?accepted⟩
  case width => exact step_access_error hbus (by simp [acceptAccess, hreset, decode_of_width_ne hbits])
  case alignment => exact step_access_error hbus (by simp [acceptAccess, hreset, decode_of_misaligned hbits hoff])
  case accepted =>
    obtain ⟨i, hdecode⟩ := decode_of_aligned hbits hoff
    rw [step_access_ok hbus hreset hdecode]
    exact exec_not_refused i _ r

/-- Settles O7: an empty queue leaves the state, and a release event clears the reset input. -/
theorem stepWithoutAccess : Obligations.StepWithoutAccess := by
  unfold Obligations.StepWithoutAccess
  exact fun s => ⟨step_of_no_event, fun rest => step_releaseReset⟩

/-- Settles O13: `performCommand` and `exec` give each command the same meaning. -/
theorem wrToCmdPerformsTheCommand : Obligations.WrToCmdPerformsTheCommand := by
  unfold Obligations.WrToCmdPerformsTheCommand
  exact exec_wr_cmdSlot

/-! Block reset (70_reset_and_hazards.md R137, R138). -/

/-- 10_state.md R40: with nothing received `TP_BUFDATA` shows no byte, whatever `BUF` holds. -/
theorem readBufData_of_rxLen_zero {s : State} (h : s.session.rxLen = 0) : readBufData s = some 0 := by
  have hrx : s.session.rxLen.toNat = 0 := by simp [h]
  simp [readBufData, bufLaneExists, bufLane, hrx, lanes]

/-- 70_reset_and_hazards.md R138: the registers are functions of the elements block reset restores; of `BUF` nothing
shows. -/
theorem readReg_eq_resetColumn (r : Reg) {s : State} (hframe : s.frame = State.reset.frame)
    (hfield : s.field = State.reset.field) (hfieldRes : s.fieldRes = State.reset.fieldRes)
    (hcsum : s.csum = State.reset.csum) (hcsumRes : s.csumRes = State.reset.csumRes)
    (htpCfg : s.tpCfg = State.reset.tpCfg) (hbufPtr : s.bufPtr = State.reset.bufPtr)
    (hsession : s.session = State.reset.session) (hfc : s.fc = State.reset.fc)
    (hstatus : s.status = State.reset.status) : readReg r s = some (resetColumn r) := by
  cases r with
  | tpBufdata => exact readBufData_of_rxLen_zero (by rw [hsession]; rfl)
  | _ =>
    simp only [readReg, hframe, hfield, hfieldRes, hcsum, hcsumRes, htpCfg, hbufPtr, hsession, hfc, hstatus]
    rfl

theorem readReg_reset (r : Reg) : readReg r State.reset = some (resetColumn r) :=
  readReg_eq_resetColumn r rfl rfl rfl rfl rfl rfl rfl rfl rfl rfl

theorem readReg_blockReset (r : Reg) (s : State) : readReg r (blockReset s) = some (resetColumn r) :=
  readReg_eq_resetColumn r rfl rfl rfl rfl rfl rfl rfl rfl rfl rfl

/-- Settles O8: the reset state holds the reset column. -/
theorem resetReadsTheResetColumn : Obligations.ResetReadsTheResetColumn := by
  unfold Obligations.ResetReadsTheResetColumn
  exact ⟨readReg_reset, rfl, rfl⟩

/-- Settles O9: an assert event leaves the reset column; while reset is asserted, an access is refused, so a step that
goes on is a release, another assert, or none at all. -/
theorem blockResetRestoresEveryRegister : Obligations.BlockResetRestoresEveryRegister := by
  unfold Obligations.BlockResetRestoresEveryRegister
  refine ⟨fun s rest hbus => ?_, fun s t hreset hrelease h => ?_⟩
  · exact ⟨_, step_assertReset hbus, fun r => readReg_blockReset r _, rfl, rfl, rfl, rfl⟩
  · obtain ⟨_, rfl⟩ | ⟨rest, _, rfl⟩ | ⟨rest, hbus, _⟩ | ⟨a, rest, i, _, _, hreleased, _⟩ := step_next h
    · exact hreset
    · rfl
    · exact absurd hbus (hrelease rest)
    · simp [hreset] at hreleased

/-! The platform's window (20_memory.md R50). -/

theorem windowOffset_inside (off : BitVec 8) : windowOffset (Config.blockBase + off.toNat) = some off := by
  have hoff := off.isLt
  rw [windowOffset, if_pos ⟨by omega, by simp only [Config.windowBytes]; omega⟩]
  simp

theorem windowOffset_outside {addr : Nat} (h : addr < Config.blockBase ∨ Config.blockBase + 256 ≤ addr) :
    windowOffset addr = none := by
  rw [windowOffset, if_neg]
  simp only [Config.windowBytes]
  omega

/-- Settles O18: the window is the 256 addresses from an aligned base. -/
theorem onlyWindowAddressesReachTheBlock : Obligations.OnlyWindowAddressesReachTheBlock := by
  unfold Obligations.OnlyWindowAddressesReachTheBlock
  refine ⟨Nat.mul_mod_right _ _, fun s off bits => ?_, fun s off bits v => ?_, fun s addr bits data h => ?_⟩
  · simp only [State.presentAt, windowOffset_inside]; rfl
  · simp only [State.presentAt, windowOffset_inside]; rfl
  · simp only [State.presentAt, windowOffset_outside h]

/-- Settles O60: the columns are those of the map, and an aligned offset is its register's slot. -/
theorem registerMapIsTheTable : Obligations.RegisterMapIsTheTable := by
  unfold Obligations.RegisterMapIsTheTable
  have hrow : ∀ r, regOffset r = (mapRow r).1 ∧ regAccess r = (mapRow r).2 := fun r => by cases r <;> exact ⟨rfl, rfl⟩
  have hoff : ∀ r, (mapRow r).1 = slotOffset (regSlot r) := fun r =>
    (hrow r).1.symm.trans (regOffset_eq_slotOffset r)
  intro r
  refine ⟨(hrow r).1, (hrow r).2, ?_, fun hcmd v => ?_, fun r' h => ?_⟩
  · rw [hoff]; exact decode_read_slotOffset _
  · rw [hoff]
    exact decode_write_slotOffset (fun h => hcmd (regSlot_injective h)) v
  · rw [hoff, hoff] at h
    exact regSlot_injective (slotOffset_injective h)

end Sys2Proof.Machine

/-! Proofs of the statements about the register window (10_state.md R17-R43; 20_memory.md R51-R54): what the word of
each register shows field by field, what a write stores, and the lines of a host program (30_encoding.md R74, R75). -/

namespace Sys2Proof.Machine

open Sys2Proof.Spec

/-! The fields of the words that are not shown in `SessionRegisters`. -/

theorem idWord_id (x : BitVec 29) : (idWord x).extractLsb' 0 29 = x :=
  extractLsb'_eq_of_bits fun i _ => by rw [idWord_bit, Nat.zero_add]

theorem idWord_reserved (x : BitVec 29) : (idWord x).extractLsb' 29 3 = 0 :=
  extractLsb'_eq_of_bits fun i _ => by
    rw [idWord_bit, BitVec.getLsbD_of_ge _ _ (by omega)]; exact BitVec.getLsbD_zero.symm

section
variable (dlc bus : Byte)

theorem ctlWord_dlc : (ctlWord dlc bus).extractLsb' 0 8 = dlc :=
  extractLsb'_eq_of_bits fun i hi => by rw [ctlWord_bit, if_pos (by omega), Nat.zero_add]

theorem ctlWord_bus : (ctlWord dlc bus).extractLsb' 8 8 = bus :=
  extractLsb'_eq_of_bits fun i hi => by rw [ctlWord_bit, if_neg (by omega), Nat.add_sub_cancel_left]

theorem ctlWord_reserved : (ctlWord dlc bus).extractLsb' 16 16 = 0 :=
  extractLsb'_eq_of_bits fun i hi => by
    rw [ctlWord_bit, if_neg (by omega), BitVec.getLsbD_of_ge _ _ (by omega)]; exact BitVec.getLsbD_zero.symm

end

section
variable (d : FieldRegs)

theorem xdescWord_start : (xdescWord d).extractLsb' 0 8 = d.start :=
  extractLsb'_eq_of_bits fun i hi => by rw [xdescWord_bit, if_pos (by omega), Nat.zero_add]

theorem xdescWord_width : (xdescWord d).extractLsb' 8 8 = d.width :=
  extractLsb'_eq_of_bits fun i hi => by
    rw [xdescWord_bit, if_neg (by omega), if_pos (by omega), Nat.add_sub_cancel_left]

theorem xdescWord_little : (xdescWord d).getLsbD 16 = d.little := xdescWord_bit d 16

theorem xdescWord_signed : (xdescWord d).getLsbD 17 = d.signed := xdescWord_bit d 17

theorem xdescWord_maskEn : (xdescWord d).getLsbD 18 = d.maskEn := xdescWord_bit d 18

theorem xdescWord_reserved : (xdescWord d).extractLsb' 19 13 = 0 :=
  extractLsb'_eq_of_bits fun i hi => by
    rw [xdescWord_bit, if_neg (by omega), if_neg (by omega), if_neg (by omega), if_neg (by omega), if_neg (by omega)]
    exact BitVec.getLsbD_zero.symm

end

section
variable (c : ChecksumRegs)

theorem cdescWord_lo : (cdescWord c).extractLsb' 0 8 = c.lo :=
  extractLsb'_eq_of_bits fun i hi => by rw [cdescWord_bit, if_pos (by omega), Nat.zero_add]

theorem cdescWord_hi : (cdescWord c).extractLsb' 8 8 = c.hi :=
  extractLsb'_eq_of_bits fun i hi => by
    rw [cdescWord_bit, if_neg (by omega), if_pos (by omega), Nat.add_sub_cancel_left]

theorem cdescWord_chk : (cdescWord c).extractLsb' 16 8 = c.chk :=
  extractLsb'_eq_of_bits fun i hi => by
    rw [cdescWord_bit, if_neg (by omega), if_neg (by omega), Nat.add_sub_cancel_left]

theorem cdescWord_reserved : (cdescWord c).extractLsb' 24 8 = 0 :=
  extractLsb'_eq_of_bits fun i hi => by
    rw [cdescWord_bit, if_neg (by omega), if_neg (by omega), BitVec.getLsbD_of_ge _ _ (by omega)]
    exact BitVec.getLsbD_zero.symm

end

section
variable (r : ChecksumResult)

theorem cresWord_expected : (cresWord r).extractLsb' 0 8 = r.expected :=
  extractLsb'_eq_of_bits fun i hi => by rw [cresWord_bit, if_pos (by omega), Nat.zero_add]

theorem cresWord_actual : (cresWord r).extractLsb' 8 8 = r.actual :=
  extractLsb'_eq_of_bits fun i hi => by
    rw [cresWord_bit, if_neg (by omega), if_pos (by omega), Nat.add_sub_cancel_left]

theorem cresWord_ok : (cresWord r).getLsbD 16 = r.ok := cresWord_bit r 16

theorem cresWord_reserved : (cresWord r).extractLsb' 17 15 = 0 :=
  extractLsb'_eq_of_bits fun i hi => by
    rw [cresWord_bit, if_neg (by omega), if_neg (by omega), if_neg (by omega)]; exact BitVec.getLsbD_zero.symm

end

section
variable (c : CmdStatus)

theorem statusWord_code : (statusWord c).extractLsb' 0 4 = c.code.code :=
  extractLsb'_eq_of_bits fun i hi => by rw [statusWord_bit c (by omega), if_pos (by omega), Nat.zero_add]

theorem statusWord_consumed : (statusWord c).getLsbD 4 = c.consumed := statusWord_bit c (i := 4) (by decide)

theorem statusWord_reserved : (statusWord c).extractLsb' 5 27 = 0 :=
  extractLsb'_eq_of_bits fun i hi => by
    rw [statusWord_bit c (by omega), if_neg (by omega), if_neg (by omega)]; exact BitVec.getLsbD_zero.symm

end

/-- A register whose one field sits at bit 0, zeros above: `TP_FCPAD`, `TP_BUFPTR` (10_state.md R34, R39). -/
theorem extractLsb'_zero_append_low {m n : Nat} (x : BitVec n) : ((0#m) ++ x).extractLsb' 0 n = x := by
  apply BitVec.eq_of_getLsbD_eq
  intro i hi
  rw [BitVec.getLsbD_extractLsb', append_bit, Nat.zero_add, if_pos hi, decide_eq_true hi, Bool.true_and]

theorem extractLsb'_zero_append_high {m n : Nat} (x : BitVec n) : ((0#m) ++ x).extractLsb' n m = 0 := by
  apply BitVec.eq_of_getLsbD_eq
  intro i hi
  rw [BitVec.getLsbD_extractLsb', append_bit, if_neg (by omega), zero_bit, Bool.and_false]
  exact BitVec.getLsbD_zero.symm

/-! The byte lanes of the frame registers and of `TP_BUFDATA` (10_state.md R20, R40). -/

theorem payload_low (f : FrameRegs) {k : Nat} (hk : k < 4) : payload f k = lane f.d0 k := if_pos hk

theorem payload_high (f : FrameRegs) (k : Nat) : payload f (4 + k) = lane f.d1 k := by
  rw [payload, if_neg (by omega), Nat.add_sub_cancel_left]

theorem lane_of_readBufData {s : State} {v : Word} (h : readBufData s = some v) {j : Nat} (hj : j < 4) :
    lane v j = bufLane s j := by
  unfold readBufData at h
  split_ifs at h
  obtain rfl := Option.some.inj h
  exact lane_lanes (bufLane s) hj

/-- 10_state.md R18-R43: the word of each register shows its fields at their bits, reserved bits 0. -/
theorem shows_of_readReg {r : Reg} {s : State} {v : Word} (h : readReg r s = some v) : Shows s v r := by
  cases r
  case tpBufdata => exact fun j hj => lane_of_readBufData h hj
  all_goals obtain rfl := Option.some.inj h
  case frameId | tpRspId | tpReqId | fcId => exact ⟨idWord_id _, idWord_reserved _⟩
  case frameCtl | fcCtl => exact ⟨ctlWord_dlc .., ctlWord_bus .., ctlWord_reserved ..⟩
  case frameD0 => exact fun k hk => (payload_low s.frame hk).symm
  case frameD1 => exact fun k _ => (payload_high s.frame k).symm
  case xdesc =>
    exact ⟨xdescWord_start _, xdescWord_width _, xdescWord_little _, xdescWord_signed _, xdescWord_maskEn _,
      xdescWord_reserved _⟩
  case cdesc => exact ⟨cdescWord_lo _, cdescWord_hi _, cdescWord_chk _, cdescWord_reserved _⟩
  case cres => exact ⟨cresWord_expected _, cresWord_actual _, cresWord_ok _, cresWord_reserved _⟩
  case tpFcpad | tpBufptr => exact ⟨extractLsb'_zero_append_low _, extractLsb'_zero_append_high _⟩
  case tpStatus =>
    exact ⟨tpStatusWord_phase .., tpStatusWord_reserved _ _ (by decide),
      tpStatusWord_err .., tpStatusWord_reserved _ _ (by decide),
      tpStatusWord_seq .., tpStatusWord_fcPending .., tpStatusWord_fcOverflow ..,
      tpStatusWord_rxShort .., tpStatusWord_reserved _ _ (by decide)⟩
  case tpLen => exact ⟨lenWord_expLen _, lenWord_reservedMiddle _, lenWord_rxLen _, lenWord_reservedTop _⟩
  case cmdStatus => exact ⟨statusWord_code _, statusWord_consumed _, statusWord_reserved _⟩
  all_goals rfl

/-! Reads (20_memory.md R51, R53). -/

theorem exec_rd_unmapped {slot : BitVec 6} (h : regAt slot = none) (s : State) :
    exec (.rd slot) s = .next (s.withLastRead (some 0)) := by
  simp [exec, execRd, h]

theorem regOffset_eq_slotOffset_iff {r : Reg} {slot : BitVec 6} : regOffset r = slotOffset slot ↔ regSlot r = slot := by
  rw [regOffset_eq_slotOffset]
  exact ⟨slotOffset_injective, congrArg slotOffset⟩

/-- Settles O10: a reserved slot reads 0; a register's slot reads that register's word, which shows its fields. -/
theorem rdReturnsTheRegisterAndChangesNothing : Obligations.RdReturnsTheRegisterAndChangesNothing := by
  unfold Obligations.RdReturnsTheRegisterAndChangesNothing
  intro slot s hrx
  cases hslot : regAt slot with
  | none =>
    have hfree := regAt_eq_none.1 hslot
    exact ⟨0, exec_rd_unmapped hslot s, fun r hr => absurd hr (hfree r), fun _ => rfl, fun _ => rfl⟩
  | some r =>
    obtain rfl := regAt_eq_some.1 hslot
    obtain ⟨v, hv⟩ := readReg_isSome r s hrx
    refine ⟨v, exec_rd_regSlot hv, fun r' hr' => ?_, fun hfree => ?_, fun hcmd => ?_⟩
    · obtain rfl := regSlot_injective (regOffset_eq_slotOffset_iff.1 hr')
      exact ⟨hv, shows_of_readReg hv⟩
    · exact absurd (regOffset_eq_slotOffset r) (hfree r)
    · obtain rfl : Reg.cmd = r := regSlot_injective (regOffset_eq_slotOffset_iff.1 hcmd.symm)
      exact shows_of_readReg hv

/-- Settles O15: the word of `TP_BUFDATA` shows its four lanes; the register is read-only. -/
theorem bufDataShowsOnlyBytesBelowRxLen : Obligations.BufDataShowsOnlyBytesBelowRxLen := by
  unfold Obligations.BufDataShowsOnlyBytesBelowRxLen
  intro s hrx
  obtain ⟨v, hv⟩ := readReg_isSome .tpBufdata s hrx
  exact ⟨⟨v, exec_rd_regSlot hv, shows_of_readReg hv⟩, exec_wr_of_ro rfl s⟩

/-! Writes (20_memory.md R52-R54). -/

theorem ne_cmdSlot_of_unmapped {slot : BitVec 6} (h : regAt slot = none) : slot ≠ Config.cmdSlot := by
  rintro rfl
  exact absurd h (by decide)

theorem exec_wr_unmapped {slot : BitVec 6} (h : regAt slot = none) (v : Word) (s : State) :
    exec (.wr slot v) s = .next s := by
  simp [exec, execWr, h, ne_cmdSlot_of_unmapped h]

/-- Settles O12: nothing sits at a reserved offset, and a read-only register stores nothing. -/
theorem wrToRoOrReservedHasNoEffect : Obligations.WrToRoOrReservedHasNoEffect := by
  unfold Obligations.WrToRoOrReservedHasNoEffect
  intro slot v s hro
  cases hslot : regAt slot with
  | none => exact exec_wr_unmapped hslot v s
  | some r =>
    obtain rfl := regAt_eq_some.1 hslot
    exact exec_wr_of_ro (hro r (regOffset_eq_slotOffset r)) s v

/-- 20_memory.md R54: the fields a write stores do not depend on what they held. -/
theorem writeReg_writeReg (r : Reg) (v : Word) (s : State) : writeReg r v (writeReg r v s) = writeReg r v s := by
  cases r with
  | xmaskLo | xscaleLo | xoffLo => simp [writeReg, State.withField]
  | xmaskHi | xscaleHi | xoffHi => simp [writeReg, State.withField]
  | _ => rfl

/-- Settles O14: writing a register twice stores the same fields twice. -/
theorem registerWriteIsIdempotent : Obligations.RegisterWriteIsIdempotent := by
  unfold Obligations.RegisterWriteIsIdempotent
  intro slot v s hcmd
  cases hslot : regAt slot with
  | none => exact ⟨s, exec_wr_unmapped hslot v s, exec_wr_unmapped hslot v s⟩
  | some r =>
    obtain rfl := regAt_eq_some.1 hslot
    have hr : r ≠ .cmd := by rintro rfl; exact hcmd (by decide)
    refine ⟨writeReg r v s, execWr_regSlot hr v s, ?_⟩
    exact (execWr_regSlot hr v _).trans (by rw [writeReg_writeReg])

/-! What a write to an RW register leaves in the state (20_memory.md R52). -/

theorem holdsFieldsOf_writeReg {r : Reg} (h : regAccess r = .rw) (v : Word) (s : State) :
    HoldsFieldsOf v (writeReg r v s) r := by
  cases r
  case frameD0 => exact fun k hk => payload_low _ hk
  case frameD1 => exact fun k _ => payload_high _ k
  case xdesc => exact ⟨rfl, rfl, rfl, rfl, rfl⟩
  case frameCtl => exact ⟨rfl, rfl⟩
  case cdesc => exact ⟨rfl, rfl, rfl⟩
  case xmaskLo | xscaleLo | xoffLo => exact loHalf_append _ _
  case xmaskHi | xscaleHi | xoffHi => exact hiHalf_append _ _
  all_goals first | rfl | cases h

/-- The bits a register keeps are its low ones: a word that shows the low `n` bits of `v` is `v` under their mask. -/
theorem eq_and_lowMask {x v : Word} (n : Nat) (h : ∀ i, i < 32 → x.getLsbD i = (decide (i < n) && v.getLsbD i)) :
    x = v &&& BitVec.ofNat 32 (2 ^ n - 1) := by
  apply BitVec.eq_of_getLsbD_eq
  intro i hi
  rw [h i hi, BitVec.getLsbD_and, BitVec.getLsbD_ofNat, Nat.testBit_two_pow_sub_one, decide_eq_true hi, Bool.true_and,
    Bool.and_comm]

theorem idWord_extractLsb' (v : Word) : idWord (v.extractLsb' 0 29) = v &&& 0x1FFFFFFF :=
  eq_and_lowMask 29 fun i _ => by rw [idWord_bit, BitVec.getLsbD_extractLsb', Nat.zero_add]

theorem zero_append_extractLsb' (v : Word) {m n : Nat} (h : m + n = 32) :
    ((0#m) ++ v.extractLsb' 0 n).cast h = v &&& BitVec.ofNat 32 (2 ^ n - 1) :=
  eq_and_lowMask n fun i hi => by
    rw [BitVec.getLsbD_cast, append_bit, zero_bit, BitVec.getLsbD_extractLsb', Nat.zero_add]
    split_ifs with hin <;> simp [hin]

theorem ctlWord_extractLsb' (v : Word) : ctlWord (v.extractLsb' 0 8) (v.extractLsb' 8 8) = v &&& 0x0000FFFF :=
  eq_and_lowMask 16 fun i _ => by
    rw [ctlWord_bit, BitVec.getLsbD_extractLsb', BitVec.getLsbD_extractLsb', Nat.zero_add]
    split_ifs with h8
    · simp [h8, show i < 16 by omega]
    · rw [Nat.add_sub_cancel' (by omega), decide_eq_decide.2 (show i - 8 < 8 ↔ i < 16 by omega)]

theorem xdescWord_extractLsb' (v : Word) (d : FieldRegs) :
    xdescWord { d with
      start := v.extractLsb' 0 8, width := v.extractLsb' 8 8
      little := v.getLsbD 16, signed := v.getLsbD 17, maskEn := v.getLsbD 18 } = v &&& 0x0007FFFF :=
  eq_and_lowMask 19 fun i _ => by
    rw [xdescWord_bit, BitVec.getLsbD_extractLsb', BitVec.getLsbD_extractLsb', Nat.zero_add]
    split_ifs with h8 h16 hlittle hsigned hmaskEn
    · simp [h8, show i < 19 by omega]
    · rw [Nat.add_sub_cancel' (by omega)]
      simp [show i - 8 < 8 by omega, show i < 19 by omega]
    · simp [hlittle]
    · simp [hsigned]
    · simp [hmaskEn]
    · simp [show ¬ i < 19 by omega]

theorem cdescWord_extractLsb' (v : Word) (c : ChecksumRegs) :
    cdescWord { c with lo := v.extractLsb' 0 8, hi := v.extractLsb' 8 8, chk := v.extractLsb' 16 8 } =
      v &&& 0x00FFFFFF :=
  eq_and_lowMask 24 fun i _ => by
    rw [cdescWord_bit, BitVec.getLsbD_extractLsb', BitVec.getLsbD_extractLsb', BitVec.getLsbD_extractLsb', Nat.zero_add]
    split_ifs with h8 h16
    · simp [h8, show i < 24 by omega]
    · rw [Nat.add_sub_cancel' (by omega)]
      simp [show i - 8 < 8 by omega, show i < 24 by omega]
    · rw [Nat.add_sub_cancel' (by omega), decide_eq_decide.2 (show i - 16 < 8 ↔ i < 24 by omega)]

/-- A register all of whose bits are one field keeps every bit. -/
theorem and_fullMask (v : Word) : v &&& 0xFFFFFFFF = v := BitVec.and_allOnes

/-- 20_memory.md R52, R53: an RW register reads back what was written, reserved bits dropped. -/
theorem readReg_writeReg_same {r : Reg} (h : regAccess r = .rw) (v : Word) (s : State) :
    readReg r (writeReg r v s) = some (v &&& writableBits r) := by
  cases r
  case frameId | tpRspId | tpReqId => exact congrArg some (idWord_extractLsb' v)
  case frameCtl => exact congrArg some (ctlWord_extractLsb' v)
  case xdesc => exact congrArg some (xdescWord_extractLsb' v s.field)
  case cdesc => exact congrArg some (cdescWord_extractLsb' v s.csum)
  case tpFcpad => exact congrArg some (zero_append_extractLsb' v (m := 24) rfl)
  case tpBufptr => exact congrArg some (zero_append_extractLsb' v (m := 19) rfl)
  case xmaskLo | xscaleLo | xoffLo => exact congrArg some ((loHalf_append _ v).trans (and_fullMask v).symm)
  case xmaskHi | xscaleHi | xoffHi => exact congrArg some ((hiHalf_append v _).trans (and_fullMask v).symm)
  case frameD0 | frameD1 | cbias | cmod | tpTimeout => exact congrArg some (and_fullMask v).symm
  all_goals cases h

/-! The registers that show each element of the state a host write can reach. -/

def frameRegs : List Reg := [.frameId, .frameCtl, .frameD0, .frameD1]
def fieldRegs : List Reg := [.xdesc, .xmaskLo, .xmaskHi, .xscaleLo, .xscaleHi, .xoffLo, .xoffHi]
def csumRegs : List Reg := [.cdesc, .cbias, .cmod]
def tpCfgRegs : List Reg := [.tpRspId, .tpReqId, .tpTimeout, .tpFcpad]

section
variable {r : Reg} (s : State)

theorem readReg_withFrame (f : FrameRegs) (h : r ∉ frameRegs) : readReg r (s.withFrame f) = readReg r s := by
  cases r <;> first | rfl | exact absurd (by decide) h

theorem readReg_withField (f : FieldRegs) (h : r ∉ fieldRegs) : readReg r (s.withField f) = readReg r s := by
  cases r <;> first | rfl | exact absurd (by decide) h

theorem readReg_withCsum (f : ChecksumRegs) (h : r ∉ csumRegs) : readReg r (s.withCsum f) = readReg r s := by
  cases r <;> first | rfl | exact absurd (by decide) h

theorem readReg_withTpCfg (f : TpConfig) (h : r ∉ tpCfgRegs) : readReg r (s.withTpCfg f) = readReg r s := by
  cases r <;> first | rfl | exact absurd (by decide) h

theorem readReg_withBufPtr (p : BitVec 13) (h : r ≠ .tpBufptr) (hd : r ≠ .tpBufdata) :
    readReg r (s.withBufPtr p) = readReg r s := by
  cases r <;> first | rfl | contradiction

end

/-- 20_memory.md R52: a write to one register is not seen through another, `TP_BUFDATA` apart.
A register of another element does not show the element written; one of the same element shows other fields of it. -/
theorem readReg_writeReg_of_ne {r r' : Reg} (hne : r' ≠ r) (hdata : r' ≠ .tpBufdata) (v : Word) (s : State) :
    readReg r' (writeReg r v s) = readReg r' s := by
  cases r
  case frameId | frameCtl | frameD0 | frameD1 =>
    by_cases hr' : r' ∈ frameRegs
    · simp only [frameRegs, List.mem_cons, List.not_mem_nil, or_false] at hr'
      obtain rfl | rfl | rfl | rfl := hr' <;> first | rfl | contradiction
    · exact readReg_withFrame s _ hr'
  case xdesc | xmaskLo | xmaskHi | xscaleLo | xscaleHi | xoffLo | xoffHi =>
    by_cases hr' : r' ∈ fieldRegs
    · simp only [fieldRegs, List.mem_cons, List.not_mem_nil, or_false] at hr'
      obtain rfl | rfl | rfl | rfl | rfl | rfl | rfl := hr' <;>
        first | rfl | contradiction | exact congrArg some (loHalf_append _ _) | exact congrArg some (hiHalf_append _ _)
    · exact readReg_withField s _ hr'
  case cdesc | cbias | cmod =>
    by_cases hr' : r' ∈ csumRegs
    · simp only [csumRegs, List.mem_cons, List.not_mem_nil, or_false] at hr'
      obtain rfl | rfl | rfl := hr' <;> first | rfl | contradiction
    · exact readReg_withCsum s _ hr'
  case tpRspId | tpReqId | tpTimeout | tpFcpad =>
    by_cases hr' : r' ∈ tpCfgRegs
    · simp only [tpCfgRegs, List.mem_cons, List.not_mem_nil, or_false] at hr'
      obtain rfl | rfl | rfl | rfl := hr' <;> first | rfl | contradiction
    · exact readReg_withTpCfg s _ hr'
  case tpBufptr => exact readReg_withBufPtr s _ hne hdata
  all_goals rfl

/-- Settles O11: the write is `writeReg`, whose fields, read-back and frame are the lemmas above. -/
theorem wrStoresTheDefinedFieldsOfAnRwRegister : Obligations.WrStoresTheDefinedFieldsOfAnRwRegister := by
  unfold Obligations.WrStoresTheDefinedFieldsOfAnRwRegister
  intro r v s hrw
  have hcmd : r ≠ .cmd := by rintro rfl; cases hrw
  exact ⟨writeReg r v s, execWr_regSlot hcmd v s, holdsFieldsOf_writeReg hrw v s, readReg_writeReg_same hrw v s,
    fun r' hne hdata => readReg_writeReg_of_ne hne hdata v s, writeReg_keeps r v s⟩

/-! The lines of a host program (30_encoding.md R74, R75). -/

theorem regOffset_eq_mapRow (r : Reg) : regOffset r = (mapRow r).1 := by cases r <;> rfl

/-- A byte moved up by `k` bits shows its bits from `k` on. -/
theorem shifted_byte_bit (b : Byte) {k i : Nat} (hi : i < 32) :
    (b.setWidth 32 <<< k).getLsbD i = (decide (k ≤ i) && b.getLsbD (i - k)) := by
  rw [BitVec.getLsbD_shiftLeft, BitVec.getLsbD_setWidth, decide_eq_true hi, Bool.true_and,
    decide_eq_true (show i - k < 32 by omega), Bool.true_and]
  simp only [← not_lt, decide_not]

theorem unshifted_byte_bit (b : Byte) {i : Nat} (hi : i < 32) : (b.setWidth 32 : Word).getLsbD i = b.getLsbD i := by
  rw [BitVec.getLsbD_setWidth, decide_eq_true hi, Bool.true_and]

theorem lanes_eq_fourBytes (b0 b1 b2 b3 : Byte) : lanes b0 b1 b2 b3 = fourBytes b0 b1 b2 b3 := by
  apply BitVec.eq_of_getLsbD_eq
  intro i hi
  rw [lanes_bit, fourBytes]
  simp only [BitVec.getLsbD_or, shifted_byte_bit _ hi, unshifted_byte_bit _ hi]
  split_ifs with h8 h16 h24
  · simp [show ¬ 8 ≤ i by omega, show ¬ 16 ≤ i by omega, show ¬ 24 ≤ i by omega]
  · simp [show 8 ≤ i by omega, show ¬ 16 ≤ i by omega, show ¬ 24 ≤ i by omega]
  · simp [BitVec.getLsbD_of_ge b0 i (by omega), BitVec.getLsbD_of_ge b1 (i - 8) (by omega), show 16 ≤ i by omega,
      show ¬ 24 ≤ i by omega]
  · simp [BitVec.getLsbD_of_ge b0 i (by omega), BitVec.getLsbD_of_ge b1 (i - 8) (by omega),
      BitVec.getLsbD_of_ge b2 (i - 16) (by omega), show 24 ≤ i by omega]

theorem ctlWord_eq_or (dlc bus : Byte) : ctlWord dlc bus = (dlc.setWidth 32 ||| bus.setWidth 32 <<< 8 : Word) := by
  apply BitVec.eq_of_getLsbD_eq
  intro i hi
  rw [ctlWord_bit, BitVec.getLsbD_or, shifted_byte_bit _ hi, unshifted_byte_bit _ hi]
  split_ifs with h8
  · simp [show ¬ 8 ≤ i by omega]
  · simp [show 8 ≤ i by omega]

theorem cdesc_eq_or (lo hi chk : Byte) :
    ((0#8) ++ chk ++ hi ++ lo : Word) = lo.setWidth 32 ||| hi.setWidth 32 <<< 8 ||| chk.setWidth 32 <<< 16 :=
  (lanes_eq_fourBytes lo hi chk 0).trans (by simp [fourBytes])

/-- A flag at bit `k` of a word. -/
theorem flagAt_bit (b : Bool) {k i : Nat} (hi : i < 32) :
    (((if b then 1 <<< k else 0 : Nat) : Word)).getLsbD i = (decide (i = k) && b) := by
  rw [BitVec.natCast_eq_ofNat, BitVec.getLsbD_ofNat, decide_eq_true hi, Bool.true_and]
  cases b with
  | false => simp
  | true => rw [if_pos rfl, Nat.one_shiftLeft, Nat.testBit_two_pow, Bool.and_true, decide_eq_decide.2 eq_comm]

theorem descWord_eq_or (start width : Byte) (endian signed maskEn : Bool) :
    descWord start width endian signed maskEn =
      fieldWord start width endian signed ||| ((if maskEn then 1 <<< 18 else 0 : Nat) : Word) := by
  apply BitVec.eq_of_getLsbD_eq
  intro i hi
  refine (xdescWord_bit ⟨start, width, endian, signed, maskEn, 0, 0, 0⟩ i).trans ?_
  simp only [fieldWord, BitVec.getLsbD_or, shifted_byte_bit _ hi, unshifted_byte_bit _ hi, flagAt_bit _ hi]
  split_ifs with h8 h16 hlittle hsigned hmaskEn
  · simp [show ¬ 8 ≤ i by omega, show i ≠ 16 by omega, show i ≠ 17 by omega, show i ≠ 18 by omega]
  · simp [show 8 ≤ i by omega, show i ≠ 16 by omega, show i ≠ 17 by omega, show i ≠ 18 by omega]
  · simp [hlittle]
  · simp [hsigned]
  · simp [hmaskEn]
  · simp [hlittle, hsigned, hmaskEn, BitVec.getLsbD_of_ge width (i - 8) (by omega),
      BitVec.getLsbD_of_ge start i (by omega)]

theorem descWord_unmasked (start width : Byte) (endian signed : Bool) :
    descWord start width endian signed false = fieldWord start width endian signed :=
  (descWord_eq_or start width endian signed false).trans (by simp)

theorem lineWrite_eq (r : Reg) (v : Word) : lineWrite r v = .write 32 (mapRow r).1 v := by
  rw [lineWrite, regOffset_eq_mapRow]

theorem lineRead_eq (r : Reg) : lineRead r = .read 32 (mapRow r).1 := by
  rw [lineRead, regOffset_eq_mapRow]

/-- 30_encoding.md R74, R75: the accesses of every line are those of the expansion tables. -/
theorem expand_eq_expansion (l : HostLine) : l.expand = expansion l := by
  cases l <;> simp only [HostLine.expand, expansion, lineWrite_eq, lineRead_eq]
  case frame => rw [ctlWord_eq_or, lanes_eq_fourBytes, lanes_eq_fourBytes]; rfl
  case desc => rw [descWord_unmasked]; rfl
  case descm => rw [descWord_eq_or, if_pos rfl]; rfl
  case spec => rw [cdesc_eq_or]; rfl
  all_goals rfl

/-- 30_encoding.md R74: the step of a `WR` line stores the value. -/
theorem step_lineWrite {s : State} {r : Reg} {v : Word} {rest : List HostEvent}
    (hbus : s.bus = .access (lineWrite r v) :: rest) (hreset : s.inReset = false) (hcmd : r ≠ .cmd) :
    step s = .next (writeReg r v (s.withBus rest)) := by
  have hdecode : decode (lineWrite r v) = .ok (.wr (regSlot r) v) := by
    rw [lineWrite, regOffset_eq_slotOffset]
    exact decode_write_slotOffset (fun h => hcmd (regSlot_injective h)) v
  rw [step_access_ok hbus hreset hdecode]
  exact execWr_regSlot hcmd v _

/-- 30_encoding.md R75: the frame registers after a `FRAME` line. -/
def lineFrame (arbId : Word) (busNo dlc : Byte) (b : List Byte) : FrameRegs :=
  { id := arbId.extractLsb' 0 29
    dlc := (ctlWord dlc busNo).extractLsb' 0 8
    bus := (ctlWord dlc busNo).extractLsb' 8 8
    d0 := lanes (b.getD 0 0) (b.getD 1 0) (b.getD 2 0) (b.getD 3 0)
    d1 := lanes (b.getD 4 0) (b.getD 5 0) (b.getD 6 0) (b.getD 7 0) }

/-- The four accesses of a `FRAME` line load the frame registers one after the other. -/
theorem run_frame_line {s : State} (arbId : Word) (busNo dlc : Byte) (b : List Byte) (hbus : s.bus = [])
    (hreset : s.inReset = false) :
    Sys2Proof.core.run 4 (s.issue (.frame arbId busNo dlc b)) = .next (s.withFrame (lineFrame arbId busNo dlc b)) := by
  have hs : s = s.withBus [] := by rw [← hbus]; rfl
  rw [State.issue, hbus, hs]
  refine Eq.trans (run_succ_next 3 (step_lineWrite (r := .frameId) rfl hreset (by decide))) ?_
  refine Eq.trans (run_succ_next 2 (step_lineWrite (r := .frameCtl) rfl hreset (by decide))) ?_
  refine Eq.trans (run_succ_next 1 (step_lineWrite (r := .frameD0) rfl hreset (by decide))) ?_
  exact run_succ_next 0 (step_lineWrite (r := .frameD1) rfl hreset (by decide))

/-- 10_state.md R20: the payload of frame registers packed from a list of bytes, 0 where it ends. -/
theorem payload_of_lanes {f : FrameRegs} {b : List Byte}
    (h0 : f.d0 = lanes (b.getD 0 0) (b.getD 1 0) (b.getD 2 0) (b.getD 3 0))
    (h1 : f.d1 = lanes (b.getD 4 0) (b.getD 5 0) (b.getD 6 0) (b.getD 7 0)) {k : Nat} (hk : k < 8) :
    payload f k = b.getD k 0 := by
  by_cases h4 : k < 4
  · rw [payload_low _ h4, h0]
    exact lane_lanes (fun j => b.getD j 0) h4
  · obtain ⟨j, rfl⟩ := Nat.exists_eq_add_of_le (not_lt.1 h4)
    rw [payload_high, h1]
    exact lane_lanes (fun j => b.getD (4 + j) 0) (by omega)

/-- Settles O19: the lines expand to the accesses of the tables; the four steps of a `FRAME` line are its four
writes. -/
theorem frameLineLoadsTheFrameRegisters : Obligations.FrameLineLoadsTheFrameRegisters := by
  unfold Obligations.FrameLineLoadsTheFrameRegisters
  refine ⟨fun l s => ⟨expand_eq_expansion l, ?_⟩, fun r v s => ?_, fun s arbId busNo dlc b hbus hreset => ?_⟩
  · rw [State.issue, expand_eq_expansion]; rfl
  · simp [HostLine.holds]
  · exact ⟨_, run_frame_line arbId busNo dlc b hbus hreset, rfl, rfl, ctlWord_dlc .., ctlWord_bus ..,
      fun k hk => payload_of_lanes rfl rfl hk⟩

end Sys2Proof.Machine

/-! Proofs of the statements about the commands (20_memory.md R61; 60_exceptions.md R123-R125; 42_isotp.md R101-R110):
how each command ends, what it leaves unchanged, and TU's answer to each frame and tick. -/

namespace Sys2Proof.Machine

open Sys2Proof.Spec

/-! Commands whose whole effect is one update. -/

/-- Settles O20: `NOP` is the normal end of a command. -/
theorem nopWritesOkStatusOnly : Obligations.NopWritesOkStatusOnly := by
  unfold Obligations.NopWritesOkStatusOnly
  exact fun s => congrArg Host.Outcome.next (doneWith_eq s false)

/-- Settles O47: `FCACK` updates the two flags, then ends normally. -/
theorem fcackClearsTheFlagsAndKeepsTheFrame : Obligations.FcackClearsTheFlagsAndKeepsTheFrame := by
  unfold Obligations.FcackClearsTheFlagsAndKeepsTheFrame
  exact fun s => congrArg Host.Outcome.next (doneWith_eq _ false)

/-- Settles O48: `TPRST` installs the idle session, then ends normally. -/
theorem tprstEmptiesTheSessionOnly : Obligations.TprstEmptiesTheSessionOnly := by
  unfold Obligations.TprstEmptiesTheSessionOnly
  exact fun s => congrArg Host.Outcome.next (doneWith_eq _ false)

section
variable {s t : State}

/-! How each command ends (60_exceptions.md R123). -/

theorem execTpfrm_of_dlc_gt (h : Config.maxDlc < s.frame.dlc.toNat) :
    execTpfrm s = .next (raiseCode .badFrame s) := by
  rw [execTpfrm, if_pos h]

theorem fieldCheck_code {f : FrameRegs} {d : FieldRegs} {c : StatusCode} (h : fieldCheck f d = some c) :
    c = .badFrame ∨ c = .outOfRange := by
  obtain ⟨_, hc⟩ | ⟨_, _, hc⟩ | ⟨_, _, _, hc⟩ := fieldCheck_cases f d <;> rw [hc] at h <;> cases h
  · exact .inl rfl
  · exact .inr rfl

theorem checksumCheck_code {f : FrameRegs} {c : ChecksumRegs} {code : StatusCode} (h : checksumCheck f c = some code) :
    code = .badFrame ∨ code = .badConfig ∨ code = .outOfRange := by
  obtain ⟨_, hc⟩ | ⟨_, _, hc⟩ | ⟨_, _, _, hc⟩ | ⟨_, _, _, _, hc⟩ := checksumCheck_cases f c <;> rw [hc] at h <;> cases h
  · exact .inl rfl
  · exact .inr (.inl rfl)
  · exact .inr (.inr rfl)

theorem execXtr_status (h : execXtr s = .next t) :
    t.status = okStatus ∨ t.status = refusedStatus .badFrame ∨ t.status = refusedStatus .outOfRange := by
  obtain ⟨c, hc, rfl⟩ | ⟨_, rfl⟩ := execXtr_next h
  · obtain rfl | rfl := fieldCheck_code hc
    · exact .inr (.inl rfl)
    · exact .inr (.inr rfl)
  · exact .inl rfl

theorem execCsum_status (h : execCsum s = .next t) :
    t.status = okStatus ∨ t.status = refusedStatus .badFrame ∨ t.status = refusedStatus .badConfig ∨
      t.status = refusedStatus .outOfRange := by
  obtain ⟨c, hc, rfl⟩ | ⟨_, rfl⟩ := execCsum_next h
  · obtain rfl | rfl | rfl := checksumCheck_code hc
    · exact .inr (.inl rfl)
    · exact .inr (.inr (.inl rfl))
    · exact .inr (.inr (.inr rfl))
  · exact .inl rfl

theorem execTpfrm_status (h : execTpfrm s = .next t) :
    t.status.code = .ok ∨ t.status = refusedStatus .badFrame := by
  obtain rfl | rfl | ⟨_, _, m, _, rfl⟩ | ⟨_, _, m, _, rfl⟩ | ⟨_, rfl⟩ := execTpfrm_next h
  · exact .inr rfl
  all_goals exact .inl rfl

end

/-- Settles O23: the frame's length is the first check of each of the three commands. -/
theorem dlcAboveEightIsBadFrame : Obligations.DlcAboveEightIsBadFrame := by
  unfold Obligations.DlcAboveEightIsBadFrame
  intro s h
  exact ⟨exec_xtr_of_fieldCheck (fieldCheck_of_dlc_gt h), exec_csum_of_checksumCheck (checksumCheck_of_dlc_gt h),
    (execTpfrm_of_dlc_gt h).trans (congrArg Host.Outcome.next (raiseCode_eq s .badFrame))⟩

/-- Settles O24: the codes are those each command's end lemma lists; a register access ends without a status. -/
theorem statusIsWrittenByCommandsOnly : Obligations.StatusIsWrittenByCommandsOnly := by
  unfold Obligations.StatusIsWrittenByCommandsOnly
  refine ⟨fun i s t h hi => ?commands, fun slot s t h => ?reads, fun slot v s t hcmd h => ?writes⟩
  case commands =>
    cases i with
    | rd | wr => cases hi
    | nop | tprst | tptick | fcack =>
      obtain rfl := Host.Outcome.next.inj h
      simp
    | illegal w =>
      obtain rfl := Host.Outcome.next.inj h
      simp
    | xtr => obtain ht | ht | ht := execXtr_status h <;> simp [ht, okStatus, refusedStatus]
    | csum => obtain ht | ht | ht | ht := execCsum_status h <;> simp [ht, okStatus, refusedStatus]
    | tpfrm => obtain ht | ht := execTpfrm_status h <;> simp [ht, refusedStatus]
  case reads =>
    obtain ⟨v, rfl⟩ := execRd_next h
    rfl
  case writes =>
    have hkeeps := congrArg State.status (execWr_keeps hcmd h)
    exact hkeeps

/-! What a tick of TU can touch (42_isotp.md R110). -/

theorem tickSession_keeps (T : Word) (x : Session) :
    tickSession T x =
      { x with phase := (tickSession T x).phase, err := (tickSession T x).err, tmr := (tickSession T x).tmr } := by
  obtain ⟨_, h⟩ | ⟨_, _, _, h⟩ | ⟨_, _, h⟩ := tickSession_cases T x <;> rw [h]

/-- Settles O25: each way a command can end updates the elements of its column only. -/
theorem commandsWriteOnlyTheirOwnState : Obligations.CommandsWriteOnlyTheirOwnState := by
  unfold Obligations.CommandsWriteOnlyTheirOwnState
  intro s t
  refine ⟨fun h => ?xtr, fun h => ?csum, fun h => ?tpfrm, fun h => ?tprst, fun h => ?tptick, fun h => ?fcack⟩
  case xtr => obtain ⟨_, _, rfl⟩ | ⟨_, rfl⟩ := execXtr_next h <;> rfl
  case csum => obtain ⟨_, _, rfl⟩ | ⟨_, rfl⟩ := execCsum_next h <;> rfl
  case tpfrm =>
    obtain rfl | rfl | ⟨_, _, _, _, rfl⟩ | ⟨_, _, _, _, rfl⟩ | ⟨_, rfl⟩ := execTpfrm_next h <;> rfl
  case tprst | fcack =>
    obtain rfl := Host.Outcome.next.inj h
    rfl
  case tptick =>
    obtain rfl := Host.Outcome.next.inj h
    exact congrArg (fun x => doneWith false (s.withSession x)) (tickSession_keeps s.tpCfg.timeout s.session)

/-! What `TPFRM` does with each frame (42_isotp.md R101-R106). -/

section
variable {s t : State}

theorem isSessionFrame_eq_false {f : FrameRegs} {c : TpConfig} (h : f.id ≠ c.rspId ∨ f.dlc.toNat = 0) :
    isSessionFrame f c = false := by
  rw [← Bool.not_eq_true, isSessionFrame_iff]
  rintro ⟨hid, hdlc⟩
  obtain hne | hzero := h
  · exact hne hid
  · omega

/-- The longest payload passes the check of the frame's length (00_scope.md R6). -/
theorem not_maxDlc_lt {n : Nat} (h : n ≤ 8) : ¬ Config.maxDlc < n := not_lt.2 h

theorem execTpfrm_of_no_session_frame (hdlc : s.frame.dlc.toNat ≤ 8) (h : isSessionFrame s.frame s.tpCfg = false) :
    execTpfrm s = .next (doneWith false s) := by
  rw [execTpfrm, if_neg (not_maxDlc_lt hdlc), if_pos h]

section
variable (hdlc : s.frame.dlc.toNat ≤ 8) (hframe : isSessionFrame s.frame s.tpCfg = true)
include hdlc hframe

theorem execTpfrm_firstFrame (hphase : s.session.phase = .idle) (hpci : framePci s.frame = 1)
    (hlen : 2 ≤ s.frame.dlc.toNat) : execTpfrm s = acceptFirstFrame s := by
  rw [execTpfrm, if_neg (not_maxDlc_lt hdlc), if_neg (by simp [hframe]), hphase]
  exact if_pos ⟨hpci, hlen⟩

theorem execTpfrm_consecutive (hphase : s.session.phase = .awaitCf) (hpci : framePci s.frame = 2)
    (hsn : frameSn s.frame = s.session.seq) : execTpfrm s = acceptConsecutive s := by
  rw [execTpfrm, if_neg (not_maxDlc_lt hdlc), if_neg (by simp [hframe]), hphase]
  exact (if_pos hpci).trans (if_pos hsn)

end

/-- 42_isotp.md R102, R105: the frames that change nothing but the status. -/
theorem execTpfrm_ignored (hdlc : s.frame.dlc.toNat ≤ 8)
    (h : isSessionFrame s.frame s.tpCfg = false ∨
      (s.session.phase = .idle ∧ ¬ (framePci s.frame = 1 ∧ 2 ≤ s.frame.dlc.toNat)) ∨
      (s.session.phase = .awaitCf ∧ framePci s.frame ≠ 2) ∨
      s.session.phase = .complete ∨ s.session.phase = .failed) :
    execTpfrm s = .next (doneWith false s) := by
  cases hframe : isSessionFrame s.frame s.tpCfg with
  | false => exact execTpfrm_of_no_session_frame hdlc hframe
  | true =>
    rw [execTpfrm, if_neg (not_maxDlc_lt hdlc), if_neg (by simp [hframe])]
    obtain hother | ⟨hphase, hff⟩ | ⟨hphase, hpci⟩ | hphase | hphase := h
    · exact absurd hframe (by simp [hother])
    · rw [hphase]; exact if_neg hff
    · rw [hphase]; exact if_neg hpci
    · rw [hphase]
    · rw [hphase]

end

/-- Settles O42: the cases are those of `execTpfrm_ignored`. -/
theorem tpfrmIgnoresOtherFrames : Obligations.TpfrmIgnoresOtherFrames := by
  unfold Obligations.TpfrmIgnoresOtherFrames
  intro s hdlc h
  refine (execTpfrm_ignored hdlc ?_).trans (congrArg Host.Outcome.next (doneWith_eq s false))
  obtain hid | hempty | ⟨hphase, hff⟩ | ⟨hphase, hpci⟩ | hphase | hphase := h
  · exact .inl (isSessionFrame_eq_false (.inl hid))
  · exact .inl (isSessionFrame_eq_false (.inr hempty))
  · exact .inr (.inl ⟨hphase, fun ⟨hpci, hlen⟩ => hff.elim (fun hne => hne hpci) (fun hlt => by omega)⟩)
  · exact .inr (.inr (.inl ⟨hphase, hpci⟩))
  · exact .inr (.inr (.inr (.inl hphase)))
  · exact .inr (.inr (.inr (.inr hphase)))

theorem toNat_ofNat_of_lt {w n : Nat} (h : n < 2 ^ w) : (BitVec.ofNat w n).toNat = n := by
  rw [BitVec.toNat_ofNat, Nat.mod_eq_of_lt h]

/-- 30_encoding.md R71: the first word of the flow-control frame, PCI 3 with flag 0, block size 0, separation 0. -/
theorem lanes_flowControl (pad : Byte) : lanes 0x30 0x00 0x00 pad = pad ++ (0x000030 : BitVec 24) := by
  revert pad; decide

/-- Settles O43: the frame is accepted in IDLE; the bytes fit, and the session and the flow-control frame are those the
model builds from the frame. -/
theorem tpfrmAcceptsAFirstFrame : Obligations.TpfrmAcceptsAFirstFrame := by
  unfold Obligations.TpfrmAcceptsAFirstFrame
  intro s hwf hid hlen hdlc hphase hpci
  obtain ⟨m, hnext, _, hread⟩ := acceptFirstFrame_next s hwf hdlc
  have hframe : isSessionFrame s.frame s.tpCfg = true := isSessionFrame_iff.2 ⟨hid, by omega⟩
  refine ⟨_, (execTpfrm_firstFrame hdlc hframe hphase hpci hlen).trans hnext, rfl, rfl, rfl, rfl, rfl, rfl, ?rxLen,
    hread, ?fc⟩
  case rxLen =>
    exact toNat_ofNat_of_lt (by omega)
  case fc =>
    exact congrArg (fun d0 => ({ generateFc s.tpCfg s.frame.bus s.fc with d0 := d0 } : FcOut)) (lanes_flowControl _)

section
variable (x : Session) (n : Nat)

/-! What a Consecutive Frame does to the session (42_isotp.md R103), whether it completes it or not. -/

theorem consecutiveSession_err : (consecutiveSession x n).err = x.err := by
  obtain ⟨_, h⟩ | ⟨_, h⟩ := consecutiveSession_cases x n <;> rw [h]

theorem consecutiveSession_expLen : (consecutiveSession x n).expLen = x.expLen := by
  obtain ⟨_, h⟩ | ⟨_, h⟩ := consecutiveSession_cases x n <;> rw [h]

theorem consecutiveSession_tmr : (consecutiveSession x n).tmr = 0 := by
  obtain ⟨_, h⟩ | ⟨_, h⟩ := consecutiveSession_cases x n <;> rw [h]

theorem consecutiveSession_seq : (consecutiveSession x n).seq = x.seq + 1 := by
  obtain ⟨_, h⟩ | ⟨_, h⟩ := consecutiveSession_cases x n <;> rw [h]

variable {x n}

theorem consecutiveSession_complete (h : x.expLen.toNat ≤ x.rxLen.toNat + n) :
    (consecutiveSession x n).phase = .complete ∧ (consecutiveSession x n).rxLen.toNat = x.expLen.toNat := by
  obtain ⟨_, heq⟩ | ⟨hlt, _⟩ := consecutiveSession_cases x n
  · have hexp := x.expLen.isLt
    rw [heq]
    exact ⟨rfl, by simp only [BitVec.toNat_setWidth]; omega⟩
  · omega

theorem consecutiveSession_incomplete (h : x.rxLen.toNat + n < x.expLen.toNat) :
    (consecutiveSession x n).phase = x.phase ∧ (consecutiveSession x n).rxLen.toNat = x.rxLen.toNat + n := by
  obtain ⟨hle, _⟩ | ⟨_, heq⟩ := consecutiveSession_cases x n
  · omega
  · have hexp := x.expLen.isLt
    rw [heq]
    exact ⟨rfl, toNat_ofNat_of_lt (by omega)⟩

end

/-- Settles O44: the frame is accepted in AWAIT_CF; its bytes have room, so they are appended, and the session advances
or is complete. -/
theorem tpfrmAppendsTheExpectedConsecutiveFrame : Obligations.TpfrmAppendsTheExpectedConsecutiveFrame := by
  unfold Obligations.TpfrmAppendsTheExpectedConsecutiveFrame
  intro s hwf hid hlen hdlc hphase hpci hsn hroom
  have hframe : isSessionFrame s.frame s.tpCfg = true := isSessionFrame_iff.2 ⟨hid, hlen⟩
  obtain ⟨_, hover, _⟩ | ⟨_, m, hnext, _, hread⟩ := acceptConsecutive_cases s hwf
  · exact absurd hroom (not_le.2 hover)
  refine ⟨_, (execTpfrm_consecutive hdlc hframe hphase hpci hsn).trans hnext, rfl, consecutiveSession_err ..,
    consecutiveSession_expLen .., consecutiveSession_tmr .., ?seq, hread, ?complete⟩
  case seq => exact (congrArg BitVec.toNat (consecutiveSession_seq ..)).trans (BitVec.toNat_add _ _)
  case complete =>
    split_ifs with hdone
    · exact consecutiveSession_complete hdone
    · obtain ⟨hp, hrx⟩ := consecutiveSession_incomplete (not_le.1 hdone)
      exact ⟨hp.trans hphase, hrx⟩

/-- Settles O46: an ignored or refused frame leaves TU as it was; an accepted First Frame and a failure change the
phase, an accepted Consecutive Frame changes `SEQ`. -/
theorem consumedSaysWhetherTuChanged : Obligations.ConsumedSaysWhetherTuChanged := by
  unfold Obligations.ConsumedSaysWhetherTuChanged
  intro s t h
  obtain rfl | rfl | ⟨hphase, _, m, _, rfl⟩ | ⟨_, _, m, _, rfl⟩ | ⟨hphase, rfl⟩ := execTpfrm_next h
  · simp
  · simp
  · refine iff_of_true rfl fun ⟨hsession, _⟩ => ?_
    exact absurd (hphase.symm.trans (congrArg Session.phase hsession).symm) (by simp [firstFrameSession])
  · refine iff_of_true rfl fun ⟨hsession, _⟩ => ?_
    have hseq : s.session.seq + 1 = s.session.seq :=
      (consecutiveSession_seq _ _).symm.trans (congrArg Session.seq hsession)
    exact absurd hseq (by generalize s.session.seq = q; revert q; decide)
  · refine iff_of_true rfl fun ⟨hsession, _⟩ => ?_
    exact absurd (hphase.symm.trans (congrArg Session.phase hsession).symm) (by simp [failSession])

/-! Ticks (42_isotp.md R110). -/

theorem exec_tptick (s : State) :
    exec .tptick s = .next { s with session := tickSession s.tpCfg.timeout s.session, status := okStatus } :=
  congrArg Host.Outcome.next (doneWith_eq _ false)

/-- Settles O49: the three cases of a tick. -/
theorem tptickCountsOnlyInAwaitCf : Obligations.TptickCountsOnlyInAwaitCf := by
  unfold Obligations.TptickCountsOnlyInAwaitCf
  intro s
  refine ⟨_, exec_tptick s, rfl, ?_⟩
  obtain ⟨hphase, h⟩ | ⟨hphase, hT, hmet, h⟩ | ⟨hphase, hunmet, h⟩ := tickSession_cases s.tpCfg.timeout s.session
  · exact ⟨fun _ => h, fun hp => absurd hp hphase⟩
  · refine ⟨fun hp => absurd hphase hp, fun _ => ?_⟩
    rw [h, if_pos ⟨hT, hmet⟩]
    exact ⟨tickTimer_toNat _, rfl, rfl, rfl, rfl, rfl⟩
  · refine ⟨fun hp => absurd hphase hp, fun _ => ?_⟩
    rw [h, if_neg hunmet]
    exact ⟨tickTimer_toNat _, rfl, rfl, rfl, hphase, rfl⟩

/-- `n` commands `TPTICK` apply `n` ticks to the session, with the deadline the configuration holds throughout. -/
theorem ticks_session (n : Nat) : ∀ s : State,
    ∃ t, ticks n s = .next t ∧ t.session = (tickSession s.tpCfg.timeout)^[n] s.session := by
  induction n with
  | zero => exact fun s => ⟨s, rfl, rfl⟩
  | succ n ih => exact fun s => ih (doneWith false (s.withSession (tickSession s.tpCfg.timeout s.session)))

/-- A session waiting with its timer at `n` below the deadline, or failed at the deadline (42_isotp.md R110). -/
theorem tickSession_iterate {T : Word} {x : Session} (hphase : x.phase = .awaitCf) (htmr : x.tmr = 0) (hT : T ≠ 0)
    (n : Nat) :
    (n < T.toNat → (tickSession T)^[n] x = { x with tmr := BitVec.ofNat 32 n }) ∧
    (T.toNat ≤ n → (tickSession T)^[n] x = { x with phase := .failed, err := .timeout, tmr := T }) := by
  have hpos : T.toNat ≠ 0 := fun h => hT (BitVec.eq_of_toNat_eq h)
  have hlt := T.isLt
  induction n with
  | zero =>
    exact ⟨fun _ => congrArg (fun w => ({ x with tmr := w } : Session)) htmr,
      fun h => absurd (Nat.le_zero.1 h) hpos⟩
  | succ n ih =>
    rw [Function.iterate_succ_apply']
    by_cases hn : n < T.toNat
    · have htick : tickTimer (BitVec.ofNat 32 n) = BitVec.ofNat 32 (n + 1) := by
        apply BitVec.eq_of_toNat_eq
        rw [tickTimer_toNat, toNat_ofNat_of_lt (by omega), toNat_ofNat_of_lt (by omega)]
        omega
      have hcount : (BitVec.ofNat 32 (n + 1)).toNat = n + 1 := toNat_ofNat_of_lt (by omega)
      rw [ih.1 hn]
      obtain ⟨hp, _⟩ | ⟨_, _, hmet, h⟩ | ⟨_, hunmet, h⟩ :=
        tickSession_cases T { x with tmr := BitVec.ofNat 32 n }
      · exact absurd hphase hp
      · simp only [htick, hcount] at hmet h
        rw [h]
        refine ⟨fun hbelow => by omega, fun _ => ?_⟩
        rw [show BitVec.ofNat 32 (n + 1) = T from BitVec.eq_of_toNat_eq (by omega)]
      · simp only [htick, hcount] at hunmet h
        rw [h]
        exact ⟨fun _ => rfl, fun hle => absurd ⟨hT, hle⟩ hunmet⟩
    · rw [ih.2 (not_lt.1 hn)]
      exact ⟨fun h => by omega, fun _ => rfl⟩

/-- Settles O50: `n` commands are `n` ticks of the session, counted up to the deadline. -/
theorem timeoutComesExactlyAtTheDeadline : Obligations.TimeoutComesExactlyAtTheDeadline := by
  unfold Obligations.TimeoutComesExactlyAtTheDeadline
  intro s n hphase htmr hT
  obtain ⟨t, hticks, hsession⟩ := ticks_session n s
  exact ⟨t, hticks, hsession ▸ tickSession_iterate hphase htmr hT n⟩

end Sys2Proof.Machine

/-! Proofs of the statements about every step (42_isotp.md R98-R100, R107, R108; 70_reset_and_hazards.md R148): where
the model faults, how TU's state can change in one step, and the invariant of sound states. -/

namespace Sys2Proof.Machine

open Sys2Proof.Spec

section
variable {s t : State}

/-! Where the model faults (42_isotp.md R100). -/

theorem acceptFirstFrame_ne_fault (h : s.frame.dlc.toNat ≤ 8) (f : Fault) : acceptFirstFrame s ≠ .fault f := by
  obtain ⟨m, hm⟩ := Memory.writeAll_some_of_le (m := s.buf) (a := 0)
    (bs := payloadBytes s.frame 2 (s.frame.dlc.toNat - 2)) (by simp [Config.bufCapacity]; omega)
  simp [acceptFirstFrame, hm]

theorem acceptConsecutive_eq_fault_iff :
    acceptConsecutive s = .fault .bufferOverrun ↔
      2 ≤ s.frame.dlc.toNat ∧ 4101 < s.session.rxLen.toNat + (s.frame.dlc.toNat - 1) := by
  have hnone : s.buf.writeAll s.session.rxLen.toNat (payloadBytes s.frame 1 (s.frame.dlc.toNat - 1)) = none ↔
      2 ≤ s.frame.dlc.toNat ∧ 4101 < s.session.rxLen.toNat + (s.frame.dlc.toNat - 1) := by
    rw [Memory.writeAll_eq_none, ← List.length_pos_iff, payloadBytes_length]
    exact and_congr_left fun _ => by omega
  rw [← hnone, acceptConsecutive]
  cases s.buf.writeAll s.session.rxLen.toNat (payloadBytes s.frame 1 (s.frame.dlc.toNat - 1)) <;> simp

theorem exec_tpfrm_eq_fault_iff :
    exec .tpfrm s = .fault .bufferOverrun ↔
      2 ≤ s.frame.dlc.toNat ∧ s.frame.dlc.toNat ≤ 8 ∧ s.frame.id = s.tpCfg.rspId ∧ s.session.phase = .awaitCf ∧
        framePci s.frame = 2 ∧ frameSn s.frame = s.session.seq ∧
        4101 < s.session.rxLen.toNat + (s.frame.dlc.toNat - 1) := by
  constructor
  · intro h
    obtain ⟨_, heq⟩ | ⟨_, heq, _⟩ | ⟨hdlc, _, _, _, _, heq⟩ | ⟨hdlc, hframe, hphase, hpci, hsn, heq⟩ |
      ⟨_, _, _, _, _, heq⟩ :=
      execTpfrm_cases s <;> replace h := heq.symm.trans h
    · cases h
    · cases h
    · exact absurd h (acceptFirstFrame_ne_fault hdlc _)
    · obtain ⟨hlen, hover⟩ := acceptConsecutive_eq_fault_iff.1 h
      exact ⟨hlen, hdlc, (isSessionFrame_iff.1 hframe).1, hphase, hpci, hsn, hover⟩
    · cases h
  · rintro ⟨hlen, hdlc, hid, hphase, hpci, hsn, hover⟩
    exact (execTpfrm_consecutive hdlc (isSessionFrame_iff.2 ⟨hid, by omega⟩) hphase hpci hsn).trans
      (acceptConsecutive_eq_fault_iff.2 ⟨hlen, hover⟩)

theorem exec_command_ne_fault {i : Instr} (hi : isCommand i = true) (htpfrm : i ≠ .tpfrm) (f : Fault) :
    exec i s ≠ .fault f := by
  cases i with
  | rd | wr => cases hi
  | tpfrm => exact absurd rfl htpfrm
  | nop | tprst | tptick | fcack | illegal => exact nofun
  | xtr =>
    change execXtr s ≠ _
    unfold execXtr
    split <;> exact nofun
  | csum =>
    change execCsum s ≠ _
    unfold execCsum
    split <;> exact nofun

theorem readBufData_eq_none_iff :
    readBufData s = none ↔ ∃ j, j < 4 ∧ 4101 ≤ s.bufPtr.toNat + j ∧ s.bufPtr.toNat + j < s.session.rxLen.toNat := by
  have hlane : ∀ j, bufLaneExists s j = true ↔
      ¬ (4101 ≤ s.bufPtr.toNat + j ∧ s.bufPtr.toNat + j < s.session.rxLen.toNat) := fun j => by
    rw [bufLaneExists, decide_eq_true_iff, Config.bufCapacity]
    omega
  have hall : readBufData s = none ↔ ¬ ∀ j, j < 4 → bufLaneExists s j = true := by
    rw [readBufData]
    split_ifs with h
    · simp only [Bool.and_eq_true] at h
      obtain ⟨⟨⟨h0, h1⟩, h2⟩, h3⟩ := h
      simp only [false_iff, not_not]
      intro j hj
      interval_cases j <;> assumption
    · simp only [true_iff]
      intro hj
      exact h (by simp [hj 0, hj 1, hj 2, hj 3])
  rw [hall]
  simp only [hlane]
  push Not
  rfl

theorem readReg_eq_none_iff {r : Reg} : readReg r s = none ↔ r = .tpBufdata ∧ readBufData s = none := by
  cases r <;> simp [readReg]

theorem exec_rd_eq_fault_iff {slot : BitVec 6} :
    exec (.rd slot) s = .fault .bufferOverrun ↔
      slot = regSlot .tpBufdata ∧
        ∃ j, j < 4 ∧ 4101 ≤ s.bufPtr.toNat + j ∧ s.bufPtr.toNat + j < s.session.rxLen.toNat := by
  rw [← readBufData_eq_none_iff]
  cases hslot : regAt slot with
  | none =>
    rw [exec_rd_unmapped hslot]
    refine iff_of_false nofun fun ⟨h, _⟩ => ?_
    rw [h, regAt_regSlot] at hslot
    cases hslot
  | some r =>
    obtain rfl := regAt_eq_some.1 hslot
    have hfault : exec (.rd (regSlot r)) s = .fault .bufferOverrun ↔ readReg r s = none := by
      cases hread : readReg r s <;> simp [exec, execRd, hread]
    rw [hfault, readReg_eq_none_iff]
    exact and_congr_left fun _ => ⟨congrArg regSlot, fun h => regSlot_injective h⟩

theorem isCommand_toInstr (c : Command) : isCommand c.toInstr = true := by cases c <;> rfl

/-- 30_encoding.md R65: the one word that selects `TPFRM`. -/
theorem decodeCommand_eq_tpfrm {v : Word} (h : (decodeCommand v).toInstr = .tpfrm) : v = 3 := by
  obtain ⟨hencode, _⟩ := encode_decodeCommand v
  rw [h] at hencode
  injection hencode with _ _ hword
  exact hword.symm

theorem exec_wr_eq_fault_iff {slot : BitVec 6} {v : Word} :
    exec (.wr slot v) s = .fault .bufferOverrun ↔
      (slot = Config.cmdSlot ∧ v = 3) ∧ exec .tpfrm s = .fault .bufferOverrun := by
  by_cases hslot : slot = Config.cmdSlot
  · subst hslot
    rw [exec_wr_cmdSlot]
    by_cases hv : v = 3
    · subst hv
      simp only [true_and]
      rfl
    · refine iff_of_false ?_ fun ⟨⟨_, h⟩, _⟩ => hv h
      exact exec_command_ne_fault (isCommand_toInstr _) (fun h => hv (decodeCommand_eq_tpfrm h)) _
  · refine iff_of_false ?_ fun ⟨⟨h, _⟩, _⟩ => hslot h
    rw [exec, execWr, if_neg hslot]
    split <;> exact nofun

end

/-- Settles O53: of the commands only `TPFRM` can fault, by itself or written to `CMD`; of the registers only
`TP_BUFDATA`. -/
theorem bufferOverrunFaultsExactlyBeyondCapacity : Obligations.BufferOverrunFaultsExactlyBeyondCapacity := by
  unfold Obligations.BufferOverrunFaultsExactlyBeyondCapacity
  intro i s
  rw [← exec_tpfrm_eq_fault_iff]
  cases i with
  | tpfrm => simp
  | rd slot => rw [exec_rd_eq_fault_iff]; simp
  | wr slot v => rw [exec_wr_eq_fault_iff]; simp
  | nop | xtr | csum | tprst | tptick | fcack | illegal =>
    exact iff_of_false (exec_command_ne_fault (by rfl) (by nofun) _) (by simp)

/-! How one step can change TU's state (42_isotp.md R98). -/

/-- The instructions that change the session, `BUF` or the FC registers, and how. -/
inductive TuChange (s t : State) : Instr → Prop
  /-- 42_isotp.md R101 -/
  | firstFrame (phase : s.session.phase = .idle) (dlc : s.frame.dlc.toNat ≤ 8)
      (buf : s.buf.writeAll 0 (payloadBytes s.frame 2 (s.frame.dlc.toNat - 2)) = some t.buf)
      (session : t.session = firstFrameSession s.frame) (fc : t.fc = generateFc s.tpCfg s.frame.bus s.fc) :
      TuChange s t .tpfrm
  /-- 42_isotp.md R103 -/
  | consecutive (phase : s.session.phase = .awaitCf) (dlc : s.frame.dlc.toNat ≤ 8)
      (buf : s.buf.writeAll s.session.rxLen.toNat (payloadBytes s.frame 1 (s.frame.dlc.toNat - 1)) = some t.buf)
      (session : t.session = consecutiveSession s.session (s.frame.dlc.toNat - 1)) (fc : t.fc = s.fc) :
      TuChange s t .tpfrm
  /-- 42_isotp.md R104 -/
  | mismatch (phase : s.session.phase = .awaitCf) (buf : t.buf = s.buf)
      (session : t.session = failSession .seqMismatch s.session) (fc : t.fc = s.fc) : TuChange s t .tpfrm
  /-- 42_isotp.md R109 -/
  | emptied (buf : t.buf = s.buf) (session : t.session = Session.idleSession) (fc : t.fc = s.fc) : TuChange s t .tprst
  /-- 42_isotp.md R110 -/
  | ticked (buf : t.buf = s.buf) (session : t.session = tickSession s.tpCfg.timeout s.session) (fc : t.fc = s.fc) :
      TuChange s t .tptick
  /-- 42_isotp.md R108 -/
  | acknowledged (buf : t.buf = s.buf) (session : t.session = s.session)
      (fc : t.fc = { s.fc with pending := false, overflow := false }) : TuChange s t .fcack

/-- TU's state is as before. -/
structure TuKept (s t : State) : Prop where
  session : t.session = s.session
  buf : t.buf = s.buf
  fc : t.fc = s.fc

section
variable {s t : State}

/-- Everything an instruction an access decodes to can do to TU (20_memory.md R61). -/
theorem exec_tu {i : Instr} (hi : i.WellFormed) (h : exec i s = .next t) : TuKept s t ∨ TuChange s t i := by
  cases i with
  | nop | illegal =>
    obtain rfl := Host.Outcome.next.inj h
    exact .inl ⟨rfl, rfl, rfl⟩
  | xtr => obtain ⟨_, _, rfl⟩ | ⟨_, rfl⟩ := execXtr_next h <;> exact .inl ⟨rfl, rfl, rfl⟩
  | csum => obtain ⟨_, _, rfl⟩ | ⟨_, rfl⟩ := execCsum_next h <;> exact .inl ⟨rfl, rfl, rfl⟩
  | rd slot =>
    obtain ⟨v, rfl⟩ := execRd_next h
    exact .inl ⟨rfl, rfl, rfl⟩
  | wr slot v =>
    rw [execWr_keeps (bne_iff_ne.1 hi) h]
    exact .inl ⟨rfl, rfl, rfl⟩
  | tprst =>
    obtain rfl := Host.Outcome.next.inj h
    exact .inr (.emptied rfl rfl rfl)
  | tptick =>
    obtain rfl := Host.Outcome.next.inj h
    exact .inr (.ticked rfl rfl rfl)
  | fcack =>
    obtain rfl := Host.Outcome.next.inj h
    exact .inr (.acknowledged rfl rfl rfl)
  | tpfrm =>
    obtain rfl | rfl | ⟨hphase, hdlc, m, hm, rfl⟩ | ⟨hphase, hdlc, m, hm, rfl⟩ | ⟨hphase, rfl⟩ := execTpfrm_next h
    · exact .inl ⟨rfl, rfl, rfl⟩
    · exact .inl ⟨rfl, rfl, rfl⟩
    · exact .inr (.firstFrame hphase hdlc hm rfl rfl)
    · exact .inr (.consecutive hphase hdlc hm rfl rfl)
    · exact .inr (.mismatch hphase rfl rfl rfl)

/-- Taking an event from the queue changes nothing of TU. -/
theorem TuChange.of_withBus {i : Instr} {b : List HostEvent} (h : TuChange (s.withBus b) t i) : TuChange s t i := by
  cases h with
  | firstFrame phase dlc buf session fc => exact .firstFrame phase dlc buf session fc
  | consecutive phase dlc buf session fc => exact .consecutive phase dlc buf session fc
  | mismatch phase buf session fc => exact .mismatch phase buf session fc
  | emptied buf session fc => exact .emptied buf session fc
  | ticked buf session fc => exact .ticked buf session fc
  | acknowledged buf session fc => exact .acknowledged buf session fc

/-- An access decodes to a well-formed instruction (30_encoding.md R63). -/
theorem wellFormed_of_decode {a : HostAccess} {i : Instr} (h : decode a = .ok i) : i.WellFormed :=
  (acceptedAccessIsTheEncodingOfItsInstruction a i h).2

/-- Everything one step can do to TU: a block reset, nothing, or the instruction it performs. -/
theorem step_tu (h : step s = .next t) :
    (∃ rest, s.bus = .assertReset :: rest ∧ t = blockReset (s.withBus rest)) ∨ TuKept s t ∨
      ∃ i, Performs s i ∧ TuChange s t i := by
  obtain ⟨_, rfl⟩ | hreset | ⟨rest, _, rfl⟩ | ⟨a, rest, i, hbus, hdecode, _, hexec⟩ := step_next h
  · exact .inr (.inl ⟨rfl, rfl, rfl⟩)
  · exact .inl hreset
  · exact .inr (.inl ⟨rfl, rfl, rfl⟩)
  · obtain ⟨hsession, hbuf, hfc⟩ | hchange := exec_tu (wellFormed_of_decode hdecode) hexec
    · exact .inr (.inl ⟨hsession, hbuf, hfc⟩)
    · exact .inr (.inr ⟨i, ⟨a, rest, hbus, hdecode⟩, hchange.of_withBus⟩)

end

/-- Settles O51: of what a step can do to TU, each change of the phase is a row of the table. -/
theorem phaseChangesOnlyByTheTransitionTable : Obligations.PhaseChangesOnlyByTheTransitionTable := by
  unfold Obligations.PhaseChangesOnlyByTheTransitionTable
  intro s t h hne
  obtain ⟨rest, hbus, rfl⟩ | ⟨hsession, _, _⟩ | ⟨i, hi, hchange⟩ := step_tu h
  · exact .inr (.inr (.inr (.inr ⟨rfl, .inr ⟨rest, hbus⟩⟩)))
  · exact absurd (congrArg Session.phase hsession) hne
  cases hchange with
  | firstFrame hphase _ _ hsession => exact .inl ⟨hphase, congrArg Session.phase hsession, hi⟩
  | consecutive hphase _ _ hsession =>
    obtain hdone | hmore := le_or_gt s.session.expLen.toNat (s.session.rxLen.toNat + (s.frame.dlc.toNat - 1))
    · exact .inr (.inl ⟨hphase, hsession ▸ (consecutiveSession_complete hdone).1, hi⟩)
    · exact absurd (hsession ▸ (consecutiveSession_incomplete hmore).1) hne
  | mismatch hphase _ hsession =>
    exact .inr (.inr (.inl ⟨hphase, congrArg Session.phase hsession, congrArg Session.err hsession, hi⟩))
  | emptied _ hsession => exact .inr (.inr (.inr (.inr ⟨congrArg Session.phase hsession, .inl hi⟩)))
  | ticked _ hsession =>
    obtain ⟨_, htick⟩ | ⟨hphase, _, _, htick⟩ | ⟨_, _, htick⟩ := tickSession_cases s.tpCfg.timeout s.session <;>
      rw [htick] at hsession
    · exact absurd (congrArg Session.phase hsession) hne
    · exact .inr (.inr (.inr (.inl ⟨hphase, congrArg Session.phase hsession, congrArg Session.err hsession, hi⟩)))
    · exact absurd (congrArg Session.phase hsession) hne
  | acknowledged _ hsession => exact absurd (congrArg Session.phase hsession) hne

/-- Settles O52: of what a step can do to TU, only the First Frame, `FCACK` and block reset touch the FC registers. -/
theorem fcRegistersAreWrittenByFirstFramesOnly : Obligations.FcRegistersAreWrittenByFirstFramesOnly := by
  unfold Obligations.FcRegistersAreWrittenByFirstFramesOnly
  intro s t h hne
  obtain ⟨rest, hbus, _⟩ | ⟨_, _, hfc⟩ | ⟨i, hi, hchange⟩ := step_tu h
  · exact .inr (.inr ⟨rest, hbus⟩)
  · exact absurd hfc hne
  cases hchange with
  | firstFrame hphase _ _ hsession hfc =>
    exact .inl ⟨hphase, congrArg Session.phase hsession, hi, congrArg FcOut.pending hfc⟩
  | acknowledged _ _ hfc => exact .inr (.inl ⟨hi, hfc⟩)
  | consecutive _ _ _ _ hfc | mismatch _ _ _ hfc | emptied _ _ hfc | ticked _ _ hfc => exact absurd hfc hne

/-! The session table (42_isotp.md R99), one line at a time, and what keeps it. -/

section
variable {x : Session}

theorem sessionInv_idle : SessionInv Session.idleSession := rfl

theorem sessionInv_awaitCf_iff (h : x.phase = .awaitCf) :
    SessionInv x ↔ x.err = .none ∧ (x.rxLen.toNat < x.expLen.toNat ∨ (x.rxLen.toNat ≤ 6 ∧ x.seq = 1)) := by
  simp only [SessionInv, h]

theorem sessionInv_complete_iff (h : x.phase = .complete) :
    SessionInv x ↔ x.err = .none ∧ x.rxLen.toNat = x.expLen.toNat ∧ x.tmr = 0 := by
  simp only [SessionInv, h]

theorem sessionInv_failed_iff (h : x.phase = .failed) :
    SessionInv x ↔ (x.err = .seqMismatch ∨ x.err = .timeout) ∧
      (x.rxLen.toNat < x.expLen.toNat ∨ (x.rxLen.toNat ≤ 6 ∧ x.seq = 1)) := by
  simp only [SessionInv, h]

/-- 42_isotp.md R100: `RX_LEN` stays within the longest message. -/
theorem SessionInv.rxLen_le (h : SessionInv x) : x.rxLen.toNat ≤ 4095 := by
  have hexp := x.expLen.isLt
  cases hphase : x.phase with
  | idle =>
    simp only [SessionInv, hphase] at h
    simp [h, Session.idleSession]
  | awaitCf => have := ((sessionInv_awaitCf_iff hphase).1 h).2; omega
  | complete => have := ((sessionInv_complete_iff hphase).1 h).2.1; omega
  | failed => have := ((sessionInv_failed_iff hphase).1 h).2; omega

/-- 42_isotp.md R101: at most six bytes come with a First Frame. -/
theorem sessionInv_firstFrameSession {f : FrameRegs} (h : f.dlc.toNat ≤ 8) : SessionInv (firstFrameSession f) := by
  have hrx : (firstFrameSession f).rxLen.toNat = f.dlc.toNat - 2 := toNat_ofNat_of_lt (by omega)
  exact (sessionInv_awaitCf_iff rfl).2 ⟨rfl, .inr ⟨by omega, rfl⟩⟩

theorem SessionInv.consecutiveSession (hx : SessionInv x) (h : x.phase = .awaitCf) (n : Nat) :
    SessionInv (consecutiveSession x n) := by
  have herr : x.err = .none := ((sessionInv_awaitCf_iff h).1 hx).1
  obtain hdone | hmore := le_or_gt x.expLen.toNat (x.rxLen.toNat + n)
  · obtain ⟨hphase, hrx⟩ := consecutiveSession_complete hdone
    rw [sessionInv_complete_iff hphase, hrx, consecutiveSession_err, consecutiveSession_expLen]
    exact ⟨herr, rfl, consecutiveSession_tmr x n⟩
  · obtain ⟨hphase, hrx⟩ := consecutiveSession_incomplete hmore
    rw [sessionInv_awaitCf_iff (hphase.trans h), hrx, consecutiveSession_err, consecutiveSession_expLen]
    exact ⟨herr, .inl hmore⟩

theorem SessionInv.failSession (hx : SessionInv x) (h : x.phase = .awaitCf) : SessionInv (failSession .seqMismatch x) :=
  (sessionInv_failed_iff rfl).2 ⟨.inl rfl, ((sessionInv_awaitCf_iff h).1 hx).2⟩

theorem SessionInv.tickSession (hx : SessionInv x) (T : Word) : SessionInv (tickSession T x) := by
  obtain ⟨_, htick⟩ | ⟨hphase, _, _, htick⟩ | ⟨hphase, _, htick⟩ := tickSession_cases T x <;> rw [htick]
  · exact hx
  · exact (sessionInv_failed_iff rfl).2 ⟨.inr rfl, ((sessionInv_awaitCf_iff hphase).1 hx).2⟩
  · exact (sessionInv_awaitCf_iff (x := { x with tmr := tickTimer x.tmr }) hphase).2
      ((sessionInv_awaitCf_iff hphase).1 hx)

end

/-! The flow-control frame in the FC registers (42_isotp.md R107). -/

theorem generateFc_frame (c : TpConfig) (bus : Byte) (fc : FcOut) :
    (generateFc c bus fc).dlc = 8 ∧ (generateFc c bus fc).d0.extractLsb' 0 24 = 0x000030 := by
  refine ⟨rfl, ?_⟩
  change (lanes 0x30 0x00 0x00 c.fcPad).extractLsb' 0 24 = 0x000030
  generalize c.fcPad = pad
  revert pad; decide

section
variable {s t : State}

/-! The status and the result of CU (00_scope.md R11; 10_state.md R31). -/

theorem exec_consumed {i : Instr} (hi : i.WellFormed) (hs : s.status.consumed = true → s.status.code = .ok)
    (h : exec i s = .next t) : t.status.consumed = true → t.status.code = .ok := by
  cases hcmd : isCommand i with
  | true =>
    obtain ⟨c, rfl⟩ | ⟨b, u, rfl⟩ := exec_command_next hcmd h
    · exact nofun
    · exact fun _ => rfl
  | false =>
    obtain ⟨_, hreads, hwrites⟩ := statusIsWrittenByCommandsOnly
    cases i with
    | rd slot => rwa [hreads slot s t h]
    | wr slot v => rwa [hwrites slot v s t (bne_iff_ne.1 hi) h]
    | _ => cases hcmd

theorem exec_checksumOk {i : Instr} (hi : i.WellFormed)
    (hs : s.csumRes.ok = true → s.csumRes.expected = s.csumRes.actual) (h : exec i s = .next t) :
    t.csumRes.ok = true → t.csumRes.expected = t.csumRes.actual := by
  cases i with
  | nop | illegal | tprst | tptick | fcack =>
    obtain rfl := Host.Outcome.next.inj h
    exact hs
  | csum =>
    obtain ⟨_, _, rfl⟩ | ⟨_, rfl⟩ := execCsum_next h
    · exact hs
    · exact beq_iff_eq.1
  | xtr => obtain ⟨_, _, rfl⟩ | ⟨_, rfl⟩ := execXtr_next h <;> exact hs
  | tpfrm =>
    obtain rfl | rfl | ⟨_, _, _, _, rfl⟩ | ⟨_, _, _, _, rfl⟩ | ⟨_, rfl⟩ := execTpfrm_next h <;> exact hs
  | rd slot =>
    obtain ⟨v, rfl⟩ := execRd_next h
    exact hs
  | wr slot v =>
    rw [execWr_keeps (bne_iff_ne.1 hi) h]
    exact hs

/-! The invariant of sound states. -/

theorem SoundState.of_tuKept (hs : SoundState s) (h : TuKept s t)
    (hconsumed : t.status.consumed = true → t.status.code = .ok)
    (hchecksum : t.csumRes.ok = true → t.csumRes.expected = t.csumRes.actual) : SoundState t where
  session := h.session ▸ hs.session
  buf := h.buf ▸ hs.buf
  fcOverflow := h.fc ▸ hs.fcOverflow
  fcFrame := h.fc ▸ h.session ▸ hs.fcFrame
  consumed := hconsumed
  checksumOk := hchecksum

theorem SoundState.of_tuChange {i : Instr} (hs : SoundState s) (h : TuChange s t i)
    (hconsumed : t.status.consumed = true → t.status.code = .ok)
    (hchecksum : t.csumRes.ok = true → t.csumRes.expected = t.csumRes.actual) : SoundState t := by
  suffices hparts : SessionInv t.session ∧ t.buf.wf = true ∧ (t.fc.overflow = true → t.fc.pending = true) ∧
      (t.session.phase ≠ .idle → t.fc.dlc = 8 ∧ t.fc.d0.extractLsb' 0 24 = 0x000030) by
    obtain ⟨hsession, hbuf, hoverflow, hframe⟩ := hparts
    exact ⟨hsession, hbuf, hoverflow, hframe, hconsumed, hchecksum⟩
  have hawait : s.session.phase = .awaitCf → s.fc.dlc = 8 ∧ s.fc.d0.extractLsb' 0 24 = 0x000030 :=
    fun hp => hs.fcFrame (by rw [hp]; nofun)
  cases h with
  | firstFrame _ hdlc hbuf hsession hfc =>
    rw [hsession, hfc]
    exact ⟨sessionInv_firstFrameSession hdlc, (Memory.writeAll_spec hs.buf hbuf).1, fun _ => rfl,
      fun _ => generateFc_frame ..⟩
  | consecutive hphase _ hbuf hsession hfc =>
    rw [hsession, hfc]
    exact ⟨hs.session.consecutiveSession hphase _, (Memory.writeAll_spec hs.buf hbuf).1, hs.fcOverflow,
      fun _ => hawait hphase⟩
  | mismatch hphase hbuf hsession hfc =>
    rw [hsession, hbuf, hfc]
    exact ⟨hs.session.failSession hphase, hs.buf, hs.fcOverflow, fun _ => hawait hphase⟩
  | emptied hbuf hsession hfc =>
    rw [hsession, hbuf, hfc]
    exact ⟨sessionInv_idle, hs.buf, hs.fcOverflow, fun hne => absurd rfl hne⟩
  | ticked hbuf hsession hfc =>
    rw [hsession, hbuf, hfc]
    refine ⟨hs.session.tickSession _, hs.buf, hs.fcOverflow, fun hne => hs.fcFrame fun hidle => hne ?_⟩
    obtain ⟨_, htick⟩ | ⟨hphase, _⟩ | ⟨hphase, _⟩ := tickSession_cases s.tpCfg.timeout s.session
    · rw [htick, hidle]
    all_goals exact absurd (hidle.symm.trans hphase) nofun
  | acknowledged hbuf hsession hfc =>
    rw [hsession, hbuf, hfc]
    exact ⟨hs.session, hs.buf, nofun, hs.fcFrame⟩

/-- 70_reset_and_hazards.md R138: block reset leaves a sound state, whatever was before. -/
theorem soundState_blockReset (s : State) : SoundState (blockReset s) where
  session := rfl
  buf := drawnBuf_wf s.draws
  fcOverflow := nofun
  fcFrame := fun h => absurd rfl h
  consumed := nofun
  checksumOk := nofun

end

/-- Settles O54: after reset the session is idle, `BUF` lists nothing and no flag is set. -/
theorem resetSatisfiesTheSessionInvariants : Obligations.ResetSatisfiesTheSessionInvariants where
  session := rfl
  buf := reset_buf_wf
  fcOverflow := nofun
  fcFrame := fun h => absurd rfl h
  consumed := nofun
  checksumOk := nofun

/-- Settles O55: an instruction keeps TU's state or changes it in one of the ways that keep the session table. -/
theorem everyStepKeepsTheSessionInvariants : Obligations.EveryStepKeepsTheSessionInvariants := by
  unfold Obligations.EveryStepKeepsTheSessionInvariants
  intro s t hs h
  obtain ⟨_, rfl⟩ | ⟨rest, _, rfl⟩ | ⟨rest, _, rfl⟩ | ⟨a, rest, i, _, hdecode, _, hexec⟩ := step_next h
  · exact hs
  · exact soundState_blockReset _
  · exact ⟨hs.session, hs.buf, hs.fcOverflow, hs.fcFrame, hs.consumed, hs.checksumOk⟩
  · have hi := wellFormed_of_decode hdecode
    have hconsumed := exec_consumed hi (s := s.withBus rest) hs.consumed hexec
    have hchecksum := exec_checksumOk hi (s := s.withBus rest) hs.checksumOk hexec
    obtain ⟨hsession, hbuf, hfc⟩ | hchange := exec_tu hi hexec
    · exact hs.of_tuKept ⟨hsession, hbuf, hfc⟩ hconsumed hchecksum
    · exact hs.of_tuChange hchange.of_withBus hconsumed hchecksum

/-! Runs from sound states (42_isotp.md R100; 70_reset_and_hazards.md R148). -/

section
variable {s t : State}

/-- 42_isotp.md R100: with `RX_LEN` at most 4095, or 4094 where a Consecutive Frame may come, every byte an instruction
asks for exists. -/
theorem SoundState.exec_ne_fault (hs : SoundState s) (i : Instr) (f : Fault) : exec i s ≠ .fault f := by
  cases f
  rw [Ne, bufferOverrunFaultsExactlyBeyondCapacity i s]
  have hrx := hs.session.rxLen_le
  rintro (⟨_, _, hdlc, _, hphase, _, _, hover⟩ | ⟨_, j, _, hcap, hvisible⟩)
  · have hexp := s.session.expLen.isLt
    obtain ⟨_, hroom⟩ := (sessionInv_awaitCf_iff hphase).1 hs.session
    omega
  · omega

theorem SoundState.withBus (hs : SoundState s) (b : List HostEvent) : SoundState (s.withBus b) :=
  ⟨hs.session, hs.buf, hs.fcOverflow, hs.fcFrame, hs.consumed, hs.checksumOk⟩

theorem SoundState.step_ne_fault (hs : SoundState s) (f : Fault) : step s ≠ .fault f := by
  obtain ⟨_, h⟩ | ⟨_, _, h⟩ | ⟨_, _, h⟩ | ⟨_, _, _, _, _, h⟩ | ⟨_, rest, i, _, _, h⟩ := step_cases s <;> rw [h]
  case inr.inr.inr.inr => exact (hs.withBus rest).exec_ne_fault i f
  all_goals exact nofun

/-- No command and no register access touches the queue or the reset input. -/
theorem exec_keeps_host {i : Instr} (hi : i.WellFormed) (h : exec i s = .next t) :
    t.bus = s.bus ∧ t.inReset = s.inReset := by
  cases i with
  | nop | illegal | tprst | tptick | fcack =>
    obtain rfl := Host.Outcome.next.inj h
    exact ⟨rfl, rfl⟩
  | csum => obtain ⟨_, _, rfl⟩ | ⟨_, rfl⟩ := execCsum_next h <;> exact ⟨rfl, rfl⟩
  | xtr => obtain ⟨_, _, rfl⟩ | ⟨_, rfl⟩ := execXtr_next h <;> exact ⟨rfl, rfl⟩
  | tpfrm =>
    obtain rfl | rfl | ⟨_, _, _, _, rfl⟩ | ⟨_, _, _, _, rfl⟩ | ⟨_, rfl⟩ := execTpfrm_next h <;> exact ⟨rfl, rfl⟩
  | rd slot =>
    obtain ⟨v, rfl⟩ := execRd_next h
    exact ⟨rfl, rfl⟩
  | wr slot v =>
    rw [execWr_keeps (bne_iff_ne.1 hi) h]
    exact ⟨rfl, rfl⟩

/-- An event that CFD performs while reset is released: a 32-bit aligned access (20_memory.md R49). -/
def Acceptable (ev : HostEvent) : Prop :=
  ∃ a, ev = .access a ∧ accessBits a = 32 ∧ (accessOffset a).toNat % 4 = 0

/-- With only acceptable events queued a sound state goes on, and the same holds again. -/
theorem SoundState.step_goes_on (hs : SoundState s) (hreset : s.inReset = false)
    (hbus : ∀ ev ∈ s.bus, Acceptable ev) :
    ∃ t, step s = .next t ∧ t.inReset = false ∧ ∀ ev ∈ t.bus, Acceptable ev := by
  cases hevents : s.bus with
  | nil => exact ⟨s, step_of_no_event hevents, hreset, hbus⟩
  | cons ev rest =>
    rw [hevents] at hbus
    obtain ⟨a, rfl, hbits, halign⟩ := hbus ev List.mem_cons_self
    obtain ⟨i, hdecode⟩ := decode_of_aligned hbits halign
    have hstep : step s = exec i (s.withBus rest) := step_access_ok hevents hreset hdecode
    cases hexec : exec i (s.withBus rest) with
    | next t =>
      obtain ⟨htbus, htreset⟩ := exec_keeps_host (wellFormed_of_decode hdecode) hexec
      refine ⟨t, hstep.trans hexec, htreset.trans hreset, fun ev hev => hbus ev (List.mem_cons_of_mem _ ?_)⟩
      exact (htbus.trans (withBus_bus s rest)) ▸ hev
    | fault f => exact absurd hexec ((hs.withBus rest).exec_ne_fault i f)
    | refused r => exact absurd hexec (exec_not_refused i _ r)

/-- 42_isotp.md R100, run by run: a sound state stays sound, and a sound state does not fault. -/
theorem SoundState.run_ne_fault (k : Nat) : ∀ {s : State}, SoundState s → ∀ f, Sys2Proof.core.run k s ≠ .fault f := by
  induction k with
  | zero => exact fun _ _ => nofun
  | succ k ih =>
    intro s hs f
    cases hstep : step s with
    | next t => rw [run_succ_next k hstep]; exact ih (everyStepKeepsTheSessionInvariants s t hs hstep) f
    | fault g => exact absurd hstep (hs.step_ne_fault g)
    | refused r => rw [run_succ_refused k hstep]; exact nofun

theorem SoundState.run_goes_on (k : Nat) : ∀ {s : State}, SoundState s → s.inReset = false →
    (∀ ev ∈ s.bus, Acceptable ev) → ∃ t, Sys2Proof.core.run k s = .next t := by
  induction k with
  | zero => exact fun _ _ _ => ⟨_, rfl⟩
  | succ k ih =>
    intro s hs hreset hbus
    obtain ⟨t, hstep, htreset, htbus⟩ := hs.step_goes_on hreset hbus
    rw [run_succ_next k hstep]
    exact ih (everyStepKeepsTheSessionInvariants s t hs hstep) htreset htbus

end

/-- Settles O56: the invariant is carried along the run. -/
theorem noStepLeavesTheBuffer : Obligations.NoStepLeavesTheBuffer := by
  unfold Obligations.NoStepLeavesTheBuffer
  exact fun k s hs => ⟨hs.run_ne_fault k, hs.run_goes_on k⟩

end Sys2Proof.Machine

/-! Proofs of the statements about runs of TU (42_isotp.md R111, R113, R114): what `BUF` holds beyond `RX_LEN` never
shows, a session generates one flow-control frame, and the frames of a message deliver it. -/

namespace Sys2Proof.Machine

open Sys2Proof.Spec

/-! States that look the same to the host (70_reset_and_hazards.md R139). -/

section
variable {s t : State}

theorem SameView.refl (h : s.buf.wf = true) : SameView s s := ⟨rfl, fun _ _ => rfl, h, h⟩

/-- A view is another memory under the same registers. -/
theorem SameView.eq_withBuf (h : SameView s t) : t = s.withBuf t.buf := h.rest

/-- An update that does not look at `BUF` and shows no more of it keeps the view. -/
theorem SameView.map {f : State → State} (h : SameView s t) (hbuf : ∀ u, (f u).buf = u.buf)
    (hcomm : ∀ u m, f (u.withBuf m) = (f u).withBuf m)
    (hrx : (f s).session.rxLen.toNat ≤ s.session.rxLen.toNat) : SameView (f s) (f t) where
  rest := by
    have hft : f t = (f s).withBuf t.buf := (congrArg f h.eq_withBuf).trans (hcomm s t.buf)
    rw [hbuf t]
    exact hft
  visible := fun a ha => by
    rw [hbuf s, hbuf t]
    exact h.visible a (by omega)
  left := (congrArg Memory.wf (hbuf s)).trans h.left
  right := (congrArg Memory.wf (hbuf t)).trans h.right

/-- Two memories under the same new session look alike if they agree below its `RX_LEN`. -/
theorem sameView_withBuf {u : State} {m m' : Memory} (hm : m.wf = true) (hm' : m'.wf = true)
    (h : ∀ a, a < u.session.rxLen.toNat → m'.read a = m.read a) : SameView (u.withBuf m) (u.withBuf m') :=
  ⟨rfl, h, hm, hm'⟩

/-- 10_state.md R40: `TP_BUFDATA` shows nothing at or beyond `RX_LEN`. -/
theorem SameView.readReg (h : SameView s t) (r : Reg) : readReg r t = readReg r s := by
  rw [h.eq_withBuf]
  cases r with
  | tpBufdata =>
    have hlane : ∀ j, bufLane (s.withBuf t.buf) j = bufLane s j := fun j => by
      by_cases hj : s.bufPtr.toNat + j < s.session.rxLen.toNat
      · exact (if_pos hj).trans ((h.visible _ hj).trans (if_pos hj).symm)
      · exact (if_neg hj).trans (if_neg hj).symm
    have hexists : ∀ j, bufLaneExists (s.withBuf t.buf) j = bufLaneExists s j := fun _ => rfl
    simp only [Machine.readReg, readBufData, hlane, hexists]
  | _ => rfl

theorem writeReg_withBuf (r : Reg) (v : Word) (s : State) (m : Memory) :
    writeReg r v (s.withBuf m) = (writeReg r v s).withBuf m := by
  cases r <;> rfl

theorem writeReg_buf (r : Reg) (v : Word) (s : State) : (writeReg r v s).buf = s.buf := by
  rw [writeReg_keeps]

theorem writeReg_session (r : Reg) (v : Word) (s : State) : (writeReg r v s).session = s.session := by
  rw [writeReg_keeps]

/-! Each instruction keeps the view. -/

theorem SameView.raiseCode (h : SameView s t) (c : StatusCode) : SameView (raiseCode c s) (raiseCode c t) :=
  h.map (fun _ => rfl) (fun _ _ => rfl) le_rfl

theorem SameView.doneWith (h : SameView s t) (b : Bool) : SameView (doneWith b s) (doneWith b t) :=
  h.map (fun _ => rfl) (fun _ _ => rfl) le_rfl

theorem SameView.execXtr (h : SameView s t) : SameOutcome (execXtr s) (execXtr t) := by
  have hcheck : fieldCheck t.frame t.field = fieldCheck s.frame s.field := by rw [h.eq_withBuf]; rfl
  rw [Machine.execXtr, Machine.execXtr, hcheck]
  cases fieldCheck s.frame s.field with
  | some c => exact h.raiseCode c
  | none =>
    refine SameView.doneWith ?_ false
    exact h.map (f := fun u => writeFieldResult (rawWord u.frame u.field)
      (physValue (rawWord u.frame u.field) u.field) u) (fun _ => rfl) (fun _ _ => rfl) le_rfl

theorem SameView.execCsum (h : SameView s t) : SameOutcome (execCsum s) (execCsum t) := by
  have hcheck : checksumCheck t.frame t.csum = checksumCheck s.frame s.csum := by rw [h.eq_withBuf]; rfl
  rw [Machine.execCsum, Machine.execCsum, hcheck]
  cases checksumCheck s.frame s.csum with
  | some c => exact h.raiseCode c
  | none =>
    refine SameView.doneWith ?_ false
    exact h.map (f := fun u => u.withCsumRes
      { expected := checksumExpected u.frame u.csum, actual := payload u.frame u.csum.chk.toNat
        ok := checksumExpected u.frame u.csum == payload u.frame u.csum.chk.toNat })
      (fun _ => rfl) (fun _ _ => rfl) le_rfl

/-- 42_isotp.md R101: all the bytes a First Frame leaves visible are its own. -/
theorem SameView.acceptFirstFrame (h : SameView s t) (hdlc : s.frame.dlc.toNat ≤ 8) :
    SameOutcome (acceptFirstFrame s) (acceptFirstFrame t) := by
  have ht := h.eq_withBuf
  obtain ⟨m, hm, hwf, hread⟩ := acceptFirstFrame_next s h.left hdlc
  obtain ⟨m', hm', hwf', hread'⟩ := acceptFirstFrame_next (s.withBuf t.buf) h.right hdlc
  rw [ht, hm, hm']
  refine SameView.doneWith ?_ true
  refine sameView_withBuf
    (u := (s.withSession (firstFrameSession s.frame)).withFc (generateFc s.tpCfg s.frame.bus s.fc)) hwf hwf'
    fun a ha => ?_
  have hrx : (firstFrameSession s.frame).rxLen.toNat = s.frame.dlc.toNat - 2 := toNat_ofNat_of_lt (by omega)
  have hvisible : a < s.frame.dlc.toNat - 2 := lt_of_lt_of_eq ha hrx
  calc m'.read a
      = payload s.frame (2 + a) := (hread' a).trans (if_pos hvisible)
    _ = m.read a := ((hread a).trans (if_pos hvisible)).symm

/-- 42_isotp.md R103: the bytes a Consecutive Frame leaves visible were visible, or are its own. -/
theorem SameView.acceptConsecutive (h : SameView s t) : SameOutcome (acceptConsecutive s) (acceptConsecutive t) := by
  have ht := h.eq_withBuf
  rw [ht]
  obtain ⟨hlen, hover, hfault⟩ | ⟨hroom, m, hm, hwf, hread⟩ := acceptConsecutive_cases s h.left <;>
  obtain ⟨hlen', hover', hfault'⟩ | ⟨hroom', m', hm', hwf', hread'⟩ := acceptConsecutive_cases (s.withBuf t.buf) h.right
  · rw [hfault, hfault']; rfl
  · exact absurd ⟨hlen, hover⟩ hroom'
  · exact absurd ⟨hlen', hover'⟩ hroom
  rw [hm, hm']
  refine SameView.doneWith ?_ true
  refine sameView_withBuf (u := s.withSession (consecutiveSession s.session (s.frame.dlc.toNat - 1))) hwf hwf'
    fun a ha => ?_
  have hbound : a < s.session.rxLen.toNat + (s.frame.dlc.toNat - 1) := by
    obtain hdone | hmore := le_or_gt s.session.expLen.toNat (s.session.rxLen.toNat + (s.frame.dlc.toNat - 1))
    · have hrx := (consecutiveSession_complete hdone).2
      simp only [withSession_session] at ha
      omega
    · have hrx := (consecutiveSession_incomplete hmore).2
      simp only [withSession_session] at ha
      omega
  by_cases hnew : s.session.rxLen.toNat ≤ a ∧ a < s.session.rxLen.toNat + (s.frame.dlc.toNat - 1)
  · exact ((hread' a).trans (if_pos hnew)).trans ((hread a).trans (if_pos hnew)).symm
  · calc m'.read a
        = t.buf.read a := (hread' a).trans (if_neg hnew)
      _ = s.buf.read a := h.visible a (by omega)
      _ = m.read a := ((hread a).trans (if_neg hnew)).symm

theorem SameView.execTpfrm (h : SameView s t) : SameOutcome (execTpfrm s) (execTpfrm t) := by
  have ht := h.eq_withBuf
  obtain ⟨hdlc, heq⟩ | ⟨hdlc, heq, hwhy⟩ | ⟨hdlc, hframe, hphase, hpci, hlen, heq⟩ |
    ⟨hdlc, hframe, hphase, hpci, hsn, heq⟩ | ⟨hdlc, hframe, hphase, hpci, hsn, heq⟩ := execTpfrm_cases s <;> rw [heq]
  · rw [ht, execTpfrm_of_dlc_gt (s := s.withBuf t.buf) hdlc, ← ht]
    exact h.raiseCode _
  · rw [ht, execTpfrm_ignored (s := s.withBuf t.buf) hdlc hwhy, ← ht]
    exact h.doneWith false
  · rw [ht, execTpfrm_firstFrame (s := s.withBuf t.buf) hdlc hframe hphase hpci hlen, ← ht]
    exact h.acceptFirstFrame hdlc
  · rw [ht, execTpfrm_consecutive (s := s.withBuf t.buf) hdlc hframe hphase hpci hsn, ← ht]
    exact h.acceptConsecutive
  · rw [ht, execTpfrm_of_sequence_mismatch (s := s.withBuf t.buf) hdlc hframe hphase hpci hsn, ← ht]
    refine SameView.doneWith ?_ true
    exact h.map (f := fun u => u.withSession (failSession .seqMismatch u.session)) (fun _ => rfl) (fun _ _ => rfl)
      le_rfl

theorem SameView.execRd (h : SameView s t) (slot : BitVec 6) : SameOutcome (execRd slot s) (execRd slot t) := by
  have hlast : ∀ v, SameView (s.withLastRead v) (t.withLastRead v) := fun v =>
    h.map (f := fun u => u.withLastRead v) (fun _ => rfl) (fun _ _ => rfl) le_rfl
  rw [Machine.execRd, Machine.execRd]
  cases regAt slot with
  | none => exact hlast _
  | some r =>
    simp only [h.readReg r]
    cases Machine.readReg r s with
    | none => rfl
    | some v => exact hlast _

/-- Every instruction an access decodes to keeps the view. -/
theorem SameView.exec {i : Instr} (hi : i.WellFormed) (h : SameView s t) : SameOutcome (exec i s) (exec i t) := by
  cases i with
  | nop => exact h.doneWith false
  | illegal => exact h.raiseCode _
  | xtr => exact h.execXtr
  | csum => exact h.execCsum
  | tpfrm => exact h.execTpfrm
  | tprst =>
    exact SameView.doneWith (h.map (f := fun u => u.withSession Session.idleSession) (fun _ => rfl) (fun _ _ => rfl)
      (Nat.zero_le _)) false
  | tptick =>
    refine SameView.doneWith (h.map (f := fun u => u.withSession (tickSession u.tpCfg.timeout u.session)) (fun _ => rfl)
      (fun _ _ => rfl) (le_of_eq ?_)) false
    exact congrArg (fun x => x.rxLen.toNat) (tickSession_keeps s.tpCfg.timeout s.session)
  | fcack =>
    exact SameView.doneWith (h.map (f := fun u => u.withFc { u.fc with pending := false, overflow := false })
      (fun _ => rfl) (fun _ _ => rfl) le_rfl) false
  | rd slot => exact h.execRd slot
  | wr slot v =>
    have hslot : slot ≠ Config.cmdSlot := bne_iff_ne.1 hi
    cases hr : regAt slot with
    | none => rw [exec_wr_unmapped hr, exec_wr_unmapped hr]; exact h
    | some r =>
      obtain rfl := regAt_eq_some.1 hr
      have hcmd : r ≠ .cmd := by rintro rfl; exact hslot (by decide)
      rw [Machine.exec, Machine.exec, execWr_regSlot hcmd, execWr_regSlot hcmd]
      exact h.map (fun u => writeReg_buf r v u) (fun u m => writeReg_withBuf r v u m)
        (le_of_eq (by rw [writeReg_session]))

theorem SameView.withBus (h : SameView s t) (b : List HostEvent) : SameView (s.withBus b) (t.withBus b) :=
  h.map (f := fun u => u.withBus b) (fun _ => rfl) (fun _ _ => rfl) le_rfl

/-- One step keeps the view; the bytes a block reset draws do not depend on those that stood in `BUF`
(70_reset_and_hazards.md R139). -/
theorem SameView.step (h : SameView s t) : SameOutcome (step s) (step t) := by
  have ht := h.eq_withBuf
  have hbus : t.bus = s.bus := by rw [ht]; rfl
  obtain ⟨he, heq⟩ | ⟨rest, he, heq⟩ | ⟨rest, he, heq⟩ | ⟨a, rest, r, he, ha, heq⟩ | ⟨a, rest, i, he, ha, heq⟩ :=
    step_cases s <;> rw [heq]
  · rw [step_of_no_event (hbus.trans he)]; exact h
  · rw [step_assertReset (hbus.trans he), ht]
    exact SameView.refl (drawnBuf_wf _)
  · rw [step_releaseReset (hbus.trans he)]
    exact (h.withBus rest).map (f := fun u => u.withInReset false) (fun _ => rfl) (fun _ _ => rfl) le_rfl
  · rw [step_access_error (hbus.trans he) (r := r) (by rw [ht]; exact ha)]; rfl
  · obtain ⟨hreset, hdecode⟩ := (acceptAccess_ok s).1 ha
    rw [step_access_ok (hbus.trans he) (by rw [ht]; exact hreset) hdecode]
    exact (h.withBus rest).exec (wellFormed_of_decode hdecode)

end

/-- Settles O57: every step keeps the view, so every run does. -/
theorem hiddenBufferBytesNeverShow : Obligations.HiddenBufferBytesNeverShow := by
  unfold Obligations.HiddenBufferBytesNeverShow
  intro k
  induction k with
  | zero => exact fun s t h => h
  | succ k ih =>
    intro s t h
    have hstep := h.step
    cases hs : step s <;> cases ht : step t <;> rw [hs, ht] at hstep
    case next.next s' t' =>
      rw [run_succ_next k hs, run_succ_next k ht]
      exact ih s' t' hstep
    case fault.fault f g => rw [run_succ_fault k hs, run_succ_fault k ht]; exact hstep
    case refused.refused q r => rw [run_succ_refused k hs, run_succ_refused k ht]; exact hstep
    all_goals exact hstep.elim

/-! Flow-control frames (42_isotp.md R113). -/

/-- One step generates a flow-control frame, as `generatedFrames` counts it. -/
def Generates (s t : State) : Prop :=
  (s.session.phase = .idle ∧ t.session.phase = .awaitCf) ∨ (t.fc ≠ s.fc ∧ t.fc.pending = true)

section
variable {s t : State}

theorem generatedFrames_of_generates (k : Nat) (h : step s = .next t) (hg : Generates s t) :
    generatedFrames (k + 1) s = 1 + generatedFrames k t := by
  simp only [generatedFrames, h]
  exact congrArg (· + generatedFrames k t) (if_pos hg)

theorem generatedFrames_of_not_generates (k : Nat) (h : step s = .next t) (hg : ¬ Generates s t) :
    generatedFrames (k + 1) s = generatedFrames k t := by
  simp only [generatedFrames, h]
  exact (congrArg (· + generatedFrames k t) (if_neg hg)).trans (Nat.zero_add _)

/-- The next event, if there is one, does not reset the session. -/
def NoSessionReset (s : State) : Prop := ∀ ev ∈ s.bus.take 1, resetsSession ev = false

theorem NoSessionReset.not_assertReset (h : NoSessionReset s) (rest : List HostEvent) : s.bus ≠ .assertReset :: rest :=
  fun hbus => absurd (h .assertReset (by simp [hbus])) (by simp [resetsSession])

theorem NoSessionReset.not_performs_tprst (h : NoSessionReset s) : ¬ Performs s .tprst :=
  fun ⟨a, rest, hbus, hdecode⟩ => absurd (h (.access a) (by simp [hbus])) (by simp [resetsSession, hdecode])

/-- 42_isotp.md R98: without a reset no session returns to IDLE. -/
theorem NoSessionReset.phase_ne_idle (h : NoSessionReset s) (hstep : step s = .next t)
    (hphase : s.session.phase ≠ .idle) : t.session.phase ≠ .idle := by
  intro hidle
  obtain ⟨hp, _⟩ | ⟨_, hp, _⟩ | ⟨_, hp, _⟩ | ⟨_, hp, _⟩ | ⟨_, hreset | ⟨rest, hbus⟩⟩ :=
    phaseChangesOnlyByTheTransitionTable s t hstep (hidle ▸ hphase.symm)
  · exact hphase hp
  · exact absurd (hidle.symm.trans hp) nofun
  · exact absurd (hidle.symm.trans hp) nofun
  · exact absurd (hidle.symm.trans hp) nofun
  · exact h.not_performs_tprst hreset
  · exact h.not_assertReset rest hbus

/-- 42_isotp.md R113: a step generates a frame exactly if it takes the session out of IDLE. -/
theorem NoSessionReset.generates_iff (h : NoSessionReset s) (hstep : step s = .next t) :
    Generates s t ↔ s.session.phase = .idle ∧ t.session.phase ≠ .idle := by
  constructor
  · rintro (⟨hs, ht⟩ | ⟨hfc, hpending⟩)
    · exact ⟨hs, by rw [ht]; nofun⟩
    · obtain ⟨hs, ht, _⟩ | ⟨_, hack⟩ | ⟨rest, hbus⟩ := fcRegistersAreWrittenByFirstFramesOnly s t hstep hfc
      · exact ⟨hs, by rw [ht]; nofun⟩
      · rw [hack] at hpending
        cases hpending
      · exact absurd hbus (h.not_assertReset rest)
  · rintro ⟨hs, ht⟩
    obtain ⟨_, hp, _⟩ | ⟨hp, _⟩ | ⟨hp, _⟩ | ⟨hp, _⟩ | ⟨hp, _⟩ :=
      phaseChangesOnlyByTheTransitionTable s t hstep (hs ▸ ht)
    · exact .inl ⟨hs, hp⟩
    · exact absurd (hs.symm.trans hp) nofun
    · exact absurd (hs.symm.trans hp) nofun
    · exact absurd (hs.symm.trans hp) nofun
    · exact absurd hp ht

/-- A step takes at most its event from the queue. -/
theorem step_bus (h : step s = .next t) : t.bus = s.bus.tail := by
  obtain ⟨hbus, rfl⟩ | ⟨rest, hbus, rfl⟩ | ⟨rest, hbus, rfl⟩ | ⟨a, rest, i, hbus, hdecode, _, hexec⟩ := step_next h
  · rw [hbus]; rfl
  · rw [hbus]; rfl
  · rw [hbus]; rfl
  · rw [hbus, (exec_keeps_host (wellFormed_of_decode hdecode) hexec).1]; rfl

theorem noSessionReset_of_take {k : Nat} (h : ∀ ev ∈ s.bus.take (k + 1), resetsSession ev = false) :
    NoSessionReset s := fun ev hev => h ev (List.take_subset_take_left s.bus (by omega) hev)

theorem take_of_step {k : Nat} (hstep : step s = .next t) (h : ∀ ev ∈ s.bus.take (k + 1), resetsSession ev = false) :
    ∀ ev ∈ t.bus.take k, resetsSession ev = false := by
  intro ev hev
  rw [step_bus hstep] at hev
  cases hbus : s.bus with
  | nil => simp [hbus] at hev
  | cons e rest =>
    rw [hbus] at hev h
    exact h ev (List.mem_cons_of_mem _ hev)

end

/-- 42_isotp.md R113: a session that left IDLE generates no further frame. -/
theorem generatedFrames_of_phase_ne_idle (k : Nat) : ∀ s : State, (∀ ev ∈ s.bus.take k, resetsSession ev = false) →
    s.session.phase ≠ .idle → generatedFrames k s = 0 := by
  induction k with
  | zero => exact fun _ _ _ => rfl
  | succ k ih =>
    intro s hevents hphase
    have hno := noSessionReset_of_take hevents
    cases hstep : step s with
    | next t =>
      have hquiet : ¬ Generates s t := fun hg => hphase ((hno.generates_iff hstep).1 hg).1
      rw [generatedFrames_of_not_generates k hstep hquiet]
      exact ih t (take_of_step hstep hevents) (hno.phase_ne_idle hstep hphase)
    | fault f => simp only [generatedFrames, hstep]
    | refused r => simp only [generatedFrames, hstep]

/-- 42_isotp.md R113: from IDLE one frame, at the step that leaves IDLE, if there is one. -/
theorem generatedFrames_of_idle (k : Nat) : ∀ s : State, (∀ ev ∈ s.bus.take k, resetsSession ev = false) →
    s.session.phase = .idle →
    generatedFrames k s ≤ 1 ∧
      ∀ t, Sys2Proof.core.run k s = .next t → t.session.phase ≠ .idle → generatedFrames k s = 1 := by
  induction k with
  | zero =>
    intro s _ hphase
    exact ⟨Nat.zero_le 1, fun t hrun hne => absurd (Host.Outcome.next.inj hrun ▸ hphase) hne⟩
  | succ k ih =>
    intro s hevents hphase
    have hno := noSessionReset_of_take hevents
    cases hstep : step s with
    | next u =>
      have hrest := take_of_step hstep hevents
      by_cases hu : u.session.phase = .idle
      · have hquiet : ¬ Generates s u := fun hg => ((hno.generates_iff hstep).1 hg).2 hu
        rw [generatedFrames_of_not_generates k hstep hquiet, run_succ_next k hstep]
        exact ih u hrest hu
      · have hone : generatedFrames (k + 1) s = 1 := by
          rw [generatedFrames_of_generates k hstep ((hno.generates_iff hstep).2 ⟨hphase, hu⟩),
            generatedFrames_of_phase_ne_idle k u hrest hu]
        exact ⟨hone.le, fun _ _ _ => hone⟩
    | fault f =>
      rw [run_succ_fault k hstep]
      simp only [generatedFrames, hstep]
      exact ⟨Nat.zero_le 1, fun _ hrun => by cases hrun⟩
    | refused r =>
      rw [run_succ_refused k hstep]
      simp only [generatedFrames, hstep]
      exact ⟨Nat.zero_le 1, fun _ hrun => by cases hrun⟩

/-- Settles O58: none once the session left IDLE, and from IDLE the one of the step that leaves it. -/
theorem atMostOneFlowControlFramePerSession : Obligations.AtMostOneFlowControlFramePerSession := by
  unfold Obligations.AtMostOneFlowControlFramePerSession
  intro k s hevents
  by_cases hphase : s.session.phase = .idle
  · obtain ⟨hle, hone⟩ := generatedFrames_of_idle k s hevents hphase
    exact ⟨hle, fun hne => absurd hphase hne, fun t hrun _ => hone t hrun⟩
  · have hzero := generatedFrames_of_phase_ne_idle k s hevents hphase
    exact ⟨by omega, fun _ => hzero, fun _ _ hidle => absurd hidle hphase⟩

/-! Reassembly (42_isotp.md R101, R103, R111). -/

section
variable {s t : State}

theorem payload_frameOf (s : State) (b : List Byte) {k : Nat} (hk : k < 8) : payload (frameOf s b) k = b.getD k 0 :=
  payload_of_lanes rfl rfl hk

theorem frameOf_dlc (s : State) {b : List Byte} (h : b.length ≤ 8) : (frameOf s b).dlc.toNat = b.length :=
  toNat_ofNat_of_lt (by omega)

/-- 30_encoding.md R69, R70: the PCI byte splits into its nibbles. -/
theorem pciByte_high (p : Nat) {n : Nat} (hn : n < 16) :
    (BitVec.ofNat 8 (16 * p + n)).extractLsb' 4 4 = BitVec.ofNat 4 p := by
  apply BitVec.eq_of_toNat_eq
  simp only [BitVec.extractLsb'_toNat, BitVec.toNat_ofNat, Nat.shiftRight_eq_div_pow]
  omega

theorem pciByte_low (p n : Nat) : (BitVec.ofNat 8 (16 * p + n)).extractLsb' 0 4 = BitVec.ofNat 4 n := by
  apply BitVec.eq_of_toNat_eq
  simp only [BitVec.extractLsb'_toNat, BitVec.toNat_ofNat, Nat.shiftRight_eq_div_pow]
  omega

/-- 30_encoding.md R70: the 12-bit length of a First Frame. -/
theorem ffLength_toNat {n : Nat} (h : n ≤ 4095) :
    (BitVec.ofNat 4 (n / 256) ++ BitVec.ofNat 8 (n % 256) : BitVec 12).toNat = n := by
  rw [BitVec.toNat_append, toNat_ofNat_of_lt (by omega), toNat_ofNat_of_lt (by omega),
    ← Nat.shiftLeft_add_eq_or_of_lt (by omega), Nat.shiftLeft_eq]
  omega

/-- `TPFRM` keeps the canonical form of `BUF`. -/
theorem exec_tpfrm_buf_wf (hwf : s.buf.wf = true) (h : exec .tpfrm s = .next t) : t.buf.wf = true := by
  obtain rfl | rfl | ⟨_, _, m, hm, rfl⟩ | ⟨_, _, m, hm, rfl⟩ | ⟨_, rfl⟩ := execTpfrm_next h
  · exact hwf
  · exact hwf
  · exact (Memory.writeAll_spec hwf hm).1
  · exact (Memory.writeAll_spec hwf hm).1
  · exact hwf

/-- TU has taken the first `n` bytes of a message and waits for the Consecutive Frame counted `k`. -/
structure Receiving (msg : List Byte) (n k : Nat) (s : State) : Prop where
  buf : s.buf.wf = true
  phase : s.session.phase = .awaitCf
  seq : s.session.seq.toNat = k % 16
  expLen : s.session.expLen.toNat = msg.length
  rxLen : s.session.rxLen.toNat = n
  bytes : ∀ a, a < n → s.buf.read a = msg.getD a 0

/-- TU holds the whole message. -/
structure Received (msg : List Byte) (s : State) : Prop where
  phase : s.session.phase = .complete
  rxLen : s.session.rxLen.toNat = msg.length
  bytes : ∀ a, a < msg.length → s.buf.read a = msg.getD a 0

/-- 42_isotp.md R101: the First Frame of a message is taken. -/
theorem deliver_firstFrame {msg : List Byte} (hwf : s.buf.wf = true) (hidle : s.session.phase = .idle)
    (hlong : 6 < msg.length) (hshort : msg.length ≤ 4095) :
    ∃ t, exec .tpfrm (s.withFrame (frameOf s (ffBytes msg))) = .next t ∧ Receiving msg 6 1 t := by
  have hlen : (ffBytes msg).length = 8 := by simp [ffBytes]; omega
  have hdlc : (frameOf s (ffBytes msg)).dlc.toNat = 8 := (frameOf_dlc s hlen.le).trans hlen
  have hbyte0 : payload (frameOf s (ffBytes msg)) 0 = BitVec.ofNat 8 (16 * 1 + msg.length / 256) :=
    payload_frameOf s _ (by omega)
  have hbyte1 : payload (frameOf s (ffBytes msg)) 1 = BitVec.ofNat 8 (msg.length % 256) :=
    payload_frameOf s _ (by omega)
  obtain ⟨t, hexec, _, hphase, _, hseq, _, hexp, hrx, hread, _⟩ :=
    tpfrmAcceptsAFirstFrame (s.withFrame (frameOf s (ffBytes msg))) hwf rfl (by rw [withFrame_frame]; omega)
      (by rw [withFrame_frame]; omega) hidle (by rw [withFrame_frame, hbyte0]; exact pciByte_high _ (by omega))
  rw [withFrame_frame, hbyte0, hbyte1, pciByte_low] at hexp
  refine ⟨t, hexec, exec_tpfrm_buf_wf (s := s.withFrame (frameOf s (ffBytes msg))) hwf hexec, hphase, by rw [hseq]; rfl,
    ?_, ?_, fun a ha => ?_⟩
  · rw [hexp]; exact ffLength_toNat hshort
  · rw [hrx, withFrame_frame, hdlc]
  · rw [hread a, withFrame_frame, hdlc, if_pos ha, payload_frameOf s _ (by omega)]
    simp [ffBytes, Nat.add_comm 2 a, List.getD_eq_getElem?_getD, ha]

/-- The bytes of a message that the next chunk brings. -/
theorem getD_of_prefix_drop {msg c : List Byte} {n a : Nat} (h : c <+: msg.drop n) (hn : n ≤ a)
    (ha : a < n + c.length) : msg.getD a 0 = c.getD (a - n) 0 := by
  obtain ⟨tail, htail⟩ := h
  have hsplit : msg[a]? = (msg.drop n)[a - n]? := by rw [List.getElem?_drop, Nat.add_sub_cancel' hn]
  rw [List.getD_eq_getElem?_getD, hsplit, ← htail, List.getElem?_append_left (by omega), List.getD_eq_getElem?_getD]

/-- 42_isotp.md R103: the Consecutive Frame that carries the next bytes is taken; the message is whole or goes on. -/
theorem deliver_consecutive {msg c : List Byte} {n k : Nat} (hs : Receiving msg n k s) (hn : n < msg.length)
    (hshort : msg.length ≤ 4095) (hc : c.length ≤ 7) (hnext : c <+: msg.drop n) :
    ∃ t, exec .tpfrm (s.withFrame (frameOf s (BitVec.ofNat 8 (0x20 + k % 16) :: c))) = .next t ∧
      (msg.length ≤ n + c.length → Received msg t) ∧
      (n + c.length < msg.length → Receiving msg (n + c.length) (k + 1) t) := by
  obtain ⟨hwf, hphase, hseq, hexp, hrx, hbytes⟩ := hs
  generalize hb : BitVec.ofNat 8 (0x20 + k % 16) :: c = b
  have hlen : b.length = c.length + 1 := by rw [← hb]; rfl
  have hdlc : (frameOf s b).dlc.toNat = c.length + 1 := (frameOf_dlc s (by omega)).trans hlen
  have hbyte0 : payload (frameOf s b) 0 = BitVec.ofNat 8 (16 * 2 + k % 16) := by
    rw [payload_frameOf s _ (by omega), ← hb]; rfl
  have hsn : (payload (frameOf s b) 0).extractLsb' 0 4 = s.session.seq := by
    rw [hbyte0, pciByte_low]
    exact BitVec.eq_of_toNat_eq ((toNat_ofNat_of_lt (by omega)).trans hseq.symm)
  obtain ⟨t, hexec, _, _, htexp, _, htseq, hread, hdone⟩ :=
    tpfrmAppendsTheExpectedConsecutiveFrame (s.withFrame (frameOf s b)) hwf rfl (by rw [withFrame_frame]; omega)
      (by rw [withFrame_frame]; omega) hphase (by rw [withFrame_frame, hbyte0]; exact pciByte_high _ (by omega))
      (by rw [withFrame_frame]; exact hsn) (by rw [withFrame_frame, withFrame_session]; omega)
  simp only [withFrame_frame, withFrame_session, withFrame_buf, hdlc, hrx, hexp, hseq, Nat.add_sub_cancel]
    at htexp htseq hread hdone
  have hall : ∀ a, a < n + c.length → t.buf.read a = msg.getD a 0 := fun a ha => by
    rw [hread a]
    split_ifs with hnew
    · rw [payload_frameOf s _ (by omega), getD_of_prefix_drop hnext hnew.1 ha, ← hb, Nat.add_comm 1]
      rfl
    · exact hbytes a (by omega)
  refine ⟨t, hexec, fun hwhole => ?_, fun hmore => ?_⟩
  · rw [if_pos hwhole] at hdone
    exact ⟨hdone.1, hdone.2, fun a ha => hall a (by omega)⟩
  · rw [if_neg (not_le.2 hmore)] at hdone
    exact ⟨exec_tpfrm_buf_wf (s := s.withFrame (frameOf s b)) hwf hexec, hdone.1, by rw [htseq]; omega,
      by rw [htexp, hexp], hdone.2, hall⟩

/-- The chunks that remain of a message complete it. -/
theorem deliver_chunks {msg : List Byte} (hshort : msg.length ≤ 4095) :
    ∀ (chunks : List (List Byte)) (s : State) (n k : Nat), Receiving msg n k s → n < msg.length →
      chunks.flatten = msg.drop n → (∀ c ∈ chunks, 1 ≤ c.length ∧ c.length ≤ 7) →
      ∃ t, deliverAll s (cfBytes k chunks) = .next t ∧ Received msg t := by
  intro chunks
  induction chunks with
  | nil =>
    intro s n k _ hn hflat _
    have := congrArg List.length hflat
    simp at this
    omega
  | cons c cs ih =>
    intro s n k hs hn hflat hc
    obtain ⟨_, hc7⟩ := hc c List.mem_cons_self
    have hprefix : c <+: msg.drop n := ⟨cs.flatten, by rw [← hflat, List.flatten_cons]⟩
    have hrest : cs.flatten = msg.drop (n + c.length) := by
      rw [← List.drop_drop, ← hflat, List.flatten_cons, List.drop_left]
    obtain ⟨t, hexec, hwhole, hmore⟩ := deliver_consecutive hs hn hshort hc7 hprefix
    have hdeliver : deliverAll s (cfBytes k (c :: cs)) = deliverAll t (cfBytes (k + 1) cs) := by
      simp only [cfBytes, deliverAll, hexec]
    rw [hdeliver]
    obtain hle | hlt := le_or_gt msg.length (n + c.length)
    · have hcs : cs = [] := by
        cases cs with
        | nil => rfl
        | cons d ds =>
          have hd := (hc d (by simp)).1
          have := congrArg List.length hrest
          simp at this
          omega
      subst hcs
      exact ⟨t, rfl, hwhole hle⟩
    · exact ih t (n + c.length) (k + 1) (hmore hlt) hlt hrest fun d hd => hc d (List.mem_cons_of_mem _ hd)

end

/-- Settles O59: the First Frame brings six bytes, each Consecutive Frame the next ones. -/
theorem reassemblyDeliversTheMessage : Obligations.ReassemblyDeliversTheMessage := by
  unfold Obligations.ReassemblyDeliversTheMessage
  intro s msg chunks hs hidle hlong hshort hflat hchunks
  obtain ⟨t, hexec, hreceiving⟩ := deliver_firstFrame hs.buf hidle hlong hshort
  obtain ⟨u, hdeliver, hphase, hrx, hbytes⟩ := deliver_chunks hshort chunks t 6 1 hreceiving hlong hflat hchunks
  have hfirst : deliverAll s (ffBytes msg :: cfBytes 1 chunks) = deliverAll t (cfBytes 1 chunks) := by
    simp only [deliverAll, hexec]
  exact ⟨u, hfirst.trans hdeliver, hphase, hrx, hbytes⟩

end Sys2Proof.Machine

/-! Proofs of the statements about the operands and results of CU and XU (41_checksum.md R93, R97; 40_extractor.md
R77-R80, R85, R87): what the commands read, and the field bit by bit. -/

namespace Sys2Proof.Machine

open Sys2Proof.Spec

/-! CU (41_checksum.md R90-R97). -/

section
variable {f f' : FrameRegs} {c : ChecksumRegs} {s : State}

theorem checksumCheck_congr (h : f.dlc = f'.dlc) : checksumCheck f c = checksumCheck f' c := by
  rw [checksumCheck, checksumCheck, h]

theorem exec_csum_of_pass (h : checksumCheck s.frame s.csum = none) :
    exec .csum s = .next (doneWith false (s.withCsumRes
      { expected := checksumExpected s.frame s.csum, actual := payload s.frame s.csum.chk.toNat
        ok := checksumExpected s.frame s.csum == payload s.frame s.csum.chk.toNat })) := by
  change execCsum s = _
  rw [execCsum, h]

/-- 41_checksum.md R89: a spec that passes the checks lies within the payload. -/
theorem bounds_of_checksumCheck (h : checksumCheck f c = none) :
    c.hi.toNat ≤ f.dlc.toNat ∧ c.chk.toNat < f.dlc.toNat := by
  obtain ⟨_, hc⟩ | ⟨_, _, hc⟩ | ⟨_, _, _, hc⟩ | ⟨_, _, hhi, hchk, _⟩ := checksumCheck_cases f c
  · cases hc.symm.trans h
  · cases hc.symm.trans h
  · cases hc.symm.trans h
  · exact ⟨hhi, hchk⟩

/-- 41_checksum.md R90: the sum reads the identifier, the DLC and the payload below `HI`. -/
theorem sumS_congr (hdlc : f.dlc = f'.dlc) (hid : f.id = f'.id) (h : ∀ k, k < c.hi.toNat → payload f k = payload f' k) :
    sumS f c = sumS f' c := by
  have hbytes : ∑ k ∈ Finset.Ico c.lo.toNat c.hi.toNat, ((payload f k).toNat : Int) =
      ∑ k ∈ Finset.Ico c.lo.toNat c.hi.toNat, ((payload f' k).toNat : Int) :=
    Finset.sum_congr rfl fun k hk => by rw [h k (Finset.mem_Ico.1 hk).2]
  rw [sumS, sumS, hdlc, hid, hbytes]

end

/-- Settles O41: the checks read the DLC and the spec; past them the range and the check byte lie below the DLC. -/
theorem csumReadsOnlyItsOperands : Obligations.CsumReadsOnlyItsOperands := by
  unfold Obligations.CsumReadsOnlyItsOperands
  intro s s' hdlc hid hcsum hpayload
  have hcheck : checksumCheck s'.frame s'.csum = checksumCheck s.frame s.csum := by
    rw [← hcsum, checksumCheck_congr hdlc]
  cases h : checksumCheck s.frame s.csum with
  | some code =>
    refine ⟨_, _, exec_csum_of_checksumCheck h, exec_csum_of_checksumCheck (hcheck.trans h), rfl, fun hok => ?_⟩
    obtain rfl | rfl | rfl := checksumCheck_code h <;> cases hok
  | none =>
    obtain ⟨hhi, hchk⟩ := bounds_of_checksumCheck h
    have hsum : sumS s.frame s.csum = sumS s'.frame s.csum :=
      sumS_congr hdlc hid fun k hk => hpayload k (by omega)
    have hexpected : checksumExpected s.frame s.csum = checksumExpected s'.frame s'.csum := by
      rw [← hcsum, checksumExpected_eq_fmod, checksumExpected_eq_fmod, hsum]
    have hactual : payload s.frame s.csum.chk.toNat = payload s'.frame s'.csum.chk.toNat := by
      rw [← hcsum]
      exact hpayload _ hchk
    refine ⟨_, _, exec_csum_of_pass h, exec_csum_of_pass (hcheck.trans h), rfl, fun _ => ?_⟩
    simp only [doneWith_csumRes, withCsumRes_csumRes, hexpected, hactual]

/-- The low eight bits see an integer modulo 256. -/
theorem ofInt_eight_eq {a b : Int} (h : a % 256 = b % 256) : BitVec.ofInt 8 a = BitVec.ofInt 8 b := by
  apply BitVec.eq_of_toNat_eq
  rw [BitVec.toNat_ofInt, BitVec.toNat_ofInt]
  exact congrArg Int.toNat h

/-- A truncating remainder by a multiple of 256 keeps an integer modulo 256. -/
theorem tmod_emod_256 (x : Int) {M : Int} (h : 256 ∣ M) : Int.tmod x M % 256 = x % 256 := by
  obtain ⟨q, rfl⟩ := h
  rw [Int.tmod_def, mul_assoc, Int.sub_mul_emod_self_left]

/-- Wrapping to 32 bits keeps an integer modulo 256. -/
theorem wrap32_emod_256 (x : Int) : (BitVec.ofInt 32 x).toInt % 256 = x % 256 := by
  rw [BitVec.toInt_ofInt, ← Int.emod_emod_of_dvd _ (show (256 : Int) ∣ ((2 ^ 32 : Nat) : Int) by decide), Int.bmod_emod,
    Int.emod_emod_of_dvd _ (show (256 : Int) ∣ ((2 ^ 32 : Nat) : Int) by decide)]

/-- A sum in the range 0..2^31-1 does not wrap. -/
theorem wrap32_of_lt {x : Int} (h0 : 0 ≤ x) (h1 : x < 2 ^ 31) : (BitVec.ofInt 32 x).toInt = x := by
  rw [BitVec.toInt_ofInt]
  exact Int.bmod_eq_of_le (by omega) (by omega)

/-- Settles O40: modulo 256 neither the wrap nor the truncation shows if 256 divides the modulus; and a sum that does
not wrap and is not negative has the same remainder either way. -/
theorem csumAgreesWithWrappingTruncatingArithmetic : Obligations.CsumAgreesWithWrappingTruncatingArithmetic := by
  unfold Obligations.CsumAgreesWithWrappingTruncatingArithmetic
  intro s hlegal h
  refine ⟨_, exec_csum_of_specLegal hlegal, (checksumExpected_eq_fmod s.frame s.csum).trans (ofInt_eight_eq ?_)⟩
  rw [Int.fmod_eq_emod_of_nonneg _ (Int.natCast_nonneg _)]
  obtain ⟨hdvd, _⟩ | ⟨h0, h1⟩ := h
  · have hdvd' : (256 : Int) ∣ (s.csum.modulus.toNat : Int) := Int.natCast_dvd_natCast.2 hdvd
    rw [tmod_emod_256 _ hdvd', wrap32_emod_256, Int.emod_emod_of_dvd _ hdvd']
  · rw [wrap32_of_lt h0 h1, Int.tmod_eq_emod_of_nonneg h0]

/-! The payload as one number (40_extractor.md R78). -/

/-- `n` bytes as one number, byte 0 most significant. -/
def bytesNumber (b : Nat → Byte) (n : Nat) : Nat :=
  ((List.range n).map fun k => (b k).toNat * 2 ^ (8 * (n - 1 - k))).sum

theorem payloadNumber_eq_bytesNumber (f : FrameRegs) (little : Bool) :
    payloadNumber f little = bytesNumber (srcByte f little) f.dlc.toNat := rfl

/-- One more byte moves the others up by eight bits. -/
theorem bytesNumber_succ (b : Nat → Byte) (n : Nat) :
    bytesNumber b (n + 1) = 2 ^ 8 * bytesNumber b n + (b n).toNat := by
  have hshift : ((List.range n).map fun k => (b k).toNat * 2 ^ (8 * (n - k))) =
      (List.range n).map fun k => 2 ^ 8 * ((b k).toNat * 2 ^ (8 * (n - 1 - k))) := by
    refine List.map_congr_left fun k hk => ?_
    have hk' : 8 * (n - k) = 8 + 8 * (n - 1 - k) := by have := List.mem_range.1 hk; omega
    rw [hk', Nat.pow_add]
    ring
  simp only [bytesNumber, Nat.add_sub_cancel, List.range_succ, List.map_append, List.sum_append, List.map_singleton,
    List.sum_singleton, Nat.sub_self, Nat.mul_zero, Nat.pow_zero, Nat.mul_one, hshift, List.sum_map_mul_left]

/-- Bit `i` of the number stands in byte `i div 8` from the end. -/
theorem bytesNumber_testBit (b : Nat → Byte) (n : Nat) : ∀ i, i < 8 * n →
    (bytesNumber b n).testBit i = (b (n - 1 - i / 8)).getLsbD (i % 8) := by
  induction n with
  | zero => intro i hi; omega
  | succ n ih =>
    intro i hi
    rw [bytesNumber_succ, Nat.testBit_two_pow_mul_add _ (b n).isLt]
    split_ifs with hlow
    · rw [show n + 1 - 1 - i / 8 = n by omega, Nat.mod_eq_of_lt hlow]
      rfl
    · rw [ih (i - 8) (by omega), show n - 1 - (i - 8) / 8 = n + 1 - 1 - i / 8 by omega,
        show (i - 8) % 8 = i % 8 by omega]

section
variable (f : FrameRegs) (d : FieldRegs)

/-- 00_scope.md R8: bit `p` in payload numbering is bit `8 * DLC - 1 - p` of the payload as one number. -/
theorem payloadNumber_testBit (little : Bool) {i : Nat} (hi : i < 8 * f.dlc.toNat) :
    (payloadNumber f little).testBit i = srcBit f little (8 * f.dlc.toNat - 1 - i) := by
  rw [payloadNumber_eq_bytesNumber, bytesNumber_testBit _ _ _ hi, srcBit, srcByte,
    show f.dlc.toNat - 1 - i / 8 = (8 * f.dlc.toNat - 1 - i) / 8 by omega,
    show i % 8 = 7 - (8 * f.dlc.toNat - 1 - i) % 8 by omega]
  cases little <;> rfl

/-- 40_extractor.md R78: the bits of the extracted field. -/
theorem fieldBits_testBit (h : FieldLegal f d) {j : Nat} (hj : j < d.width.toNat) :
    (fieldBits f d).testBit j = srcBit f d.little (d.start.toNat + d.width.toNat - 1 - j) := by
  obtain ⟨_, hwidth, hrange⟩ := h
  rw [fieldBits, Nat.testBit_mod_two_pow, Nat.testBit_div_two_pow, decide_eq_true hj, Bool.true_and,
    payloadNumber_testBit f d.little (by omega)]
  congr 1
  omega

/-- 40_extractor.md R79: the bits after the mask. -/
theorem maskedBits_testBit (h : FieldLegal f d) {j : Nat} (hj : j < d.width.toNat) :
    (maskedBits f d).testBit j = fieldBit f d j := by
  rw [maskedBits, fieldBit]
  split_ifs with hmask
  · rw [Nat.testBit_and, fieldBits_testBit f d h hj, Nat.testBit_mod_two_pow, decide_eq_true hj, hmask]
    rfl
  · have hoff : d.maskEn = false := Bool.eq_false_of_not_eq_true hmask
    rw [fieldBits_testBit f d h hj, hoff]
    simp

/-- The masked field as a word of its width. -/
def fieldVec : BitVec d.width.toNat := BitVec.ofNat d.width.toNat (maskedBits f d)

theorem fieldVec_toNat : (fieldVec f d).toNat = maskedBits f d := toNat_ofNat_of_lt (maskedBits_lt f d)

theorem fieldVec_bit (h : FieldLegal f d) {j : Nat} (hj : j < d.width.toNat) :
    (fieldVec f d).getLsbD j = fieldBit f d j := by
  rw [fieldVec, BitVec.getLsbD_ofNat, decide_eq_true hj, Bool.true_and, maskedBits_testBit f d h hj]

/-- 40_extractor.md R80: the raw word is the field, extended by its sign or by zeros. -/
theorem rawWord_eq_extend :
    rawWord f d = if d.signed then (fieldVec f d).signExtend 64 else (fieldVec f d).setWidth 64 := by
  have hmsb : (fieldVec f d).msb = (maskedBits f d).testBit (d.width.toNat - 1) := by
    rw [BitVec.msb_eq_getLsbD_last, ← fieldVec_toNat]
    rfl
  have hint : fieldValue f d = if d.signed then (fieldVec f d).toInt else ((fieldVec f d).toNat : Int) := by
    rw [BitVec.toInt_eq_msb_cond, hmsb, fieldVec_toNat, fieldValue]
    cases d.signed <;> simp
  rw [rawWord, hint]
  split_ifs
  · rfl
  · rw [BitVec.ofInt_natCast, BitVec.ofNat_toNat]

end

/-- 40_extractor.md R84: `XTR` past its check. -/
theorem exec_xtr_of_pass {s : State} (h : fieldCheck s.frame s.field = none) :
    exec .xtr s = .next (doneWith false (writeFieldResult (rawWord s.frame s.field)
      (physValue (rawWord s.frame s.field) s.field) s)) := by
  change execXtr s = _
  rw [execXtr, h]

theorem fieldCheck_of_legal {f : FrameRegs} {d : FieldRegs} (h : FieldLegal f d) : fieldCheck f d = none := by
  obtain ⟨hdlc, hwidth, hrange⟩ := h
  obtain ⟨_, _⟩ | ⟨_, _, _⟩ | ⟨_, _, _, hc⟩ := fieldCheck_cases f d
  · omega
  · omega
  · exact hc

/-- Settles O27: the raw word extends the masked field, whose bits are those of the payload. -/
theorem xtrRawHoldsTheFieldBits : Obligations.XtrRawHoldsTheFieldBits := by
  unfold Obligations.XtrRawHoldsTheFieldBits
  intro s hlegal
  refine ⟨_, exec_xtr_of_pass (fieldCheck_of_legal hlegal), rfl, fun j hj => ?_⟩
  change (rawWord s.frame s.field).getLsbD j = _
  have hwidth := hlegal.2.1
  rw [rawWord_eq_extend]
  cases hsigned : s.field.signed with
  | true =>
    have hmsb : (fieldVec s.frame s.field).msb = fieldBit s.frame s.field (s.field.width.toNat - 1) :=
      (BitVec.msb_eq_getLsbD_last _).trans (fieldVec_bit _ _ hlegal (by omega))
    rw [if_pos rfl, BitVec.getLsbD_signExtend, decide_eq_true hj, Bool.true_and, Bool.true_and, hmsb]
    split_ifs with hin
    · exact fieldVec_bit _ _ hlegal hin
    · rfl
  | false =>
    rw [if_neg Bool.false_ne_true, BitVec.getLsbD_setWidth, decide_eq_true hj, Bool.true_and, Bool.false_and]
    split_ifs with hin
    · exact fieldVec_bit _ _ hlegal hin
    · exact BitVec.getLsbD_of_ge _ _ (by omega)

/-- Settles O31: the field's bits are those of the integer, so extending them gives the integer back. -/
theorem xtrRecoversAnIntegerPlacedInTheField : Obligations.XtrRecoversAnIntegerPlacedInTheField := by
  unfold Obligations.XtrRecoversAnIntegerPlacedInTheField
  intro s r hlegal hmask hunsigned hsigned hbits
  refine ⟨_, exec_xtr_of_pass (fieldCheck_of_legal hlegal), ?_⟩
  change rawWord s.frame s.field = _
  have hwidth := hlegal.2.1
  have hvec : fieldVec s.frame s.field = BitVec.ofInt s.field.width.toNat r := by
    apply BitVec.eq_of_getLsbD_eq
    intro j hj
    have hbit := hbits (s.field.width.toNat - 1 - j) (by omega)
    rw [show s.field.start.toNat + (s.field.width.toNat - 1 - j) = s.field.start.toNat + s.field.width.toNat - 1 - j by
      omega, show s.field.width.toNat - 1 - (s.field.width.toNat - 1 - j) = j by omega] at hbit
    rw [fieldVec_bit _ _ hlegal hj, fieldBit, hbit, hmask]
    simp
  rw [rawWord_eq_extend, hvec]
  cases hs : s.field.signed with
  | true =>
    obtain ⟨hlo, hhi⟩ := hsigned hs
    rw [if_pos rfl, BitVec.signExtend, BitVec.toInt_ofInt_eq_self (by omega) hlo hhi]
  | false =>
    obtain ⟨hlo, hhi⟩ := hunsigned hs
    rw [if_neg Bool.false_ne_true, ← BitVec.ofNat_toNat, BitVec.toNat_ofInt, Nat.cast_pow, Nat.cast_ofNat,
      Int.emod_eq_of_lt hlo hhi, ← BitVec.ofInt_natCast, Int.toNat_of_nonneg hlo]

/-! What `XTR` reads (40_extractor.md R85). -/

section
variable {f f' : FrameRegs} (d : FieldRegs)

theorem fieldCheck_congr (h : f.dlc = f'.dlc) : fieldCheck f d = fieldCheck f' d := by
  rw [fieldCheck, fieldCheck, h]

/-- The payload number reads the payload below the DLC, in either byte order. -/
theorem payloadNumber_congr (little : Bool) (hdlc : f.dlc = f'.dlc)
    (h : ∀ k, k < f.dlc.toNat → payload f k = payload f' k) : payloadNumber f little = payloadNumber f' little := by
  rw [payloadNumber, payloadNumber, ← hdlc]
  refine congrArg List.sum (List.map_congr_left fun k hk => ?_)
  have hk' : k < f.dlc.toNat := List.mem_range.1 hk
  rw [srcByte, srcByte, ← hdlc, h k hk', h (f.dlc.toNat - 1 - k) (by omega)]

theorem rawWord_congr (hdlc : f.dlc = f'.dlc) (h : ∀ k, k < f.dlc.toNat → payload f k = payload f' k) :
    rawWord f d = rawWord f' d := by
  have hfield : fieldBits f d = fieldBits f' d := by
    rw [fieldBits, fieldBits, payloadNumber_congr d.little hdlc h, hdlc]
  have hmasked : maskedBits f d = maskedBits f' d := by rw [maskedBits, maskedBits, hfield]
  rw [rawWord, rawWord, fieldValue, fieldValue, hmasked]

end

section
variable (raw : DWord) (v : F64) (s : State)

theorem writeFieldResult_fieldRes :
    (writeFieldResult raw v s).fieldRes = { raw := raw, phys := f64Pack (nanPattern (Config.nanDraw s.draws)) v } := rfl

theorem writeFieldResult_draws : (writeFieldResult raw v s).draws = if v = .nan then s.draws + 1 else s.draws := rfl

theorem doneWith_draws (b : Bool) : (doneWith b s).draws = s.draws := rfl

end

/-- Settles O30: the check reads the DLC and the descriptor, the raw word the payload below the DLC, the physical value
the raw word, the descriptor and the draw. -/
theorem xtrReadsOnlyItsOperands : Obligations.XtrReadsOnlyItsOperands := by
  unfold Obligations.XtrReadsOnlyItsOperands
  intro s s' hdlc hfield hdraws hpayload
  have hcheck : fieldCheck s'.frame s'.field = fieldCheck s.frame s.field := by
    rw [← hfield, fieldCheck_congr _ hdlc]
  cases h : fieldCheck s.frame s.field with
  | some code =>
    refine ⟨_, _, exec_xtr_of_fieldCheck h, exec_xtr_of_fieldCheck (hcheck.trans h), rfl, fun hok => ?_⟩
    obtain rfl | rfl := fieldCheck_code h <;> cases hok
  | none =>
    have hraw : rawWord s'.frame s'.field = rawWord s.frame s.field := by
      rw [← hfield, rawWord_congr _ hdlc hpayload]
    refine ⟨_, _, exec_xtr_of_pass h, exec_xtr_of_pass (hcheck.trans h), ?_, fun _ => ?_⟩
    · rw [doneWith_status, doneWith_status]
    · rw [hraw, ← hfield, doneWith_fieldRes, doneWith_fieldRes, doneWith_draws, doneWith_draws,
        writeFieldResult_fieldRes, writeFieldResult_fieldRes, writeFieldResult_draws, writeFieldResult_draws, hdraws]
      exact ⟨rfl, rfl⟩

end Sys2Proof.Machine

/-! Proofs of the statements about binary64 (30_encoding.md R68; 40_extractor.md R81-R83): the rounding, what a pattern
encodes, the special values, and the physical value of `XTR`. -/

namespace Sys2Proof.Machine

open Sys2Proof.Spec

/-! Rounding to a multiple of a power of two (40_extractor.md R82). -/

section
variable {n d q : Nat}

theorem roundNearestEven_le (h : n ≤ q * 2 ^ d) : roundNearestEven n d ≤ q := by
  obtain ⟨_, hlow, _⟩ := roundNearestEven_spec n d
  have hpos : 0 < 2 ^ d := Nat.two_pow_pos d
  have hle : 2 * roundNearestEven n d * 2 ^ d ≤ (2 * q + 1) * 2 ^ d := by
    calc 2 * roundNearestEven n d * 2 ^ d ≤ 2 * n + 2 ^ d := hlow
      _ ≤ 2 * (q * 2 ^ d) + 2 ^ d := by omega
      _ = (2 * q + 1) * 2 ^ d := by ring
  have := Nat.le_of_mul_le_mul_right hle hpos
  omega

theorem le_roundNearestEven (h : q * 2 ^ d ≤ n) : q ≤ roundNearestEven n d := by
  obtain ⟨hhigh, _, _⟩ := roundNearestEven_spec n d
  have hpos : 0 < 2 ^ d := Nat.two_pow_pos d
  have hle : 2 * q * 2 ^ d ≤ (2 * roundNearestEven n d + 1) * 2 ^ d := by
    calc 2 * q * 2 ^ d = 2 * (q * 2 ^ d) := by ring
      _ ≤ 2 * n := by omega
      _ ≤ (2 * roundNearestEven n d + 1) * 2 ^ d := hhigh
  have := Nat.le_of_mul_le_mul_right hle hpos
  omega

/-- No other multiple of `2 ^ d` is nearer, and one as near leaves an even quotient. -/
theorem roundNearestEven_nearest (n d q : Nat) :
    ((n : Int) - (roundNearestEven n d * 2 ^ d : Nat)).natAbs ≤ ((n : Int) - (q * 2 ^ d : Nat)).natAbs ∧
    (((n : Int) - (roundNearestEven n d * 2 ^ d : Nat)).natAbs = ((n : Int) - (q * 2 ^ d : Nat)).natAbs →
      q = roundNearestEven n d ∨ roundNearestEven n d % 2 = 0) := by
  obtain ⟨hhigh, hlow, htie⟩ := roundNearestEven_spec n d
  have hpos : 0 < 2 ^ d := Nat.two_pow_pos d
  generalize roundNearestEven n d = r at *
  have hhigh' : 2 * n ≤ 2 * (r * 2 ^ d) + 2 ^ d := hhigh.trans_eq (by ring)
  have hlow' : 2 * (r * 2 ^ d) ≤ 2 * n + 2 ^ d := le_trans (le_of_eq (by ring)) hlow
  have htie' : 2 * n = 2 * (r * 2 ^ d) + 2 ^ d ∨ 2 * (r * 2 ^ d) = 2 * n + 2 ^ d → r % 2 = 0 := fun h =>
    htie (h.imp (fun h => h.trans (by ring)) (fun h => Eq.trans (by ring) h))
  obtain hlt | rfl | hgt := lt_trichotomy q r
  · have hstep : q * 2 ^ d + 2 ^ d ≤ r * 2 ^ d :=
      (Nat.succ_mul q (2 ^ d)).symm.trans_le (Nat.mul_le_mul_right _ hlt)
    exact ⟨by omega, fun h => .inr (htie' (by omega))⟩
  · exact ⟨le_rfl, fun _ => .inl rfl⟩
  · have hstep : r * 2 ^ d + 2 ^ d ≤ q * 2 ^ d :=
      (Nat.succ_mul r (2 ^ d)).symm.trans_le (Nat.mul_le_mul_right _ hgt)
    exact ⟨by omega, fun h => .inr (htie' (by omega))⟩

end

/-! The magnitude a rounding gives, before the overflow test. -/

/-- How many low bits a rounding drops. -/
def droppedBits (n sh : Nat) : Nat := max sh (excessBits n)

/-- The rounded magnitude, in units of 2^-1074. -/
def roundedMag (n sh : Nat) : Nat := roundNearestEven n (droppedBits n sh) * 2 ^ (droppedBits n sh - sh)

theorem f64One_eq : f64One = 2 ^ 1074 := by rw [f64One, Nat.one_shiftLeft]

theorem f64Overflow_eq : f64Overflow = 2 ^ 2098 := by rw [f64Overflow, Nat.one_shiftLeft]

theorem f64Round_eq (neg : Bool) (n sh : Nat) :
    f64Round neg n sh = if 2 ^ 2098 ≤ roundedMag n sh then .inf neg else .fin neg (roundedMag n sh) := by
  rw [roundedMag, ← Nat.shiftLeft_eq, ← f64Overflow_eq]
  rfl

theorem f64Round_fin {neg : Bool} {n sh : Nat} (h : roundedMag n sh < 2 ^ 2098) :
    f64Round neg n sh = .fin neg (roundedMag n sh) := by
  rw [f64Round_eq, if_neg (not_le.2 h)]

theorem f64Round_eq_fin {neg neg' : Bool} {n sh m : Nat} (h : f64Round neg n sh = .fin neg' m) :
    neg' = neg ∧ m = roundedMag n sh ∧ m < 2 ^ 2098 := by
  rw [f64Round_eq] at h
  split_ifs at h with hover
  obtain ⟨rfl, rfl⟩ := F64.fin.inj h
  exact ⟨rfl, rfl, not_le.1 hover⟩

section
variable (n sh : Nat)

theorem sh_le_droppedBits : sh ≤ droppedBits n sh := le_max_left ..

/-- The rounded magnitude is a multiple of the unit of its last place. -/
theorem roundedMag_mul : roundedMag n sh * 2 ^ sh = roundNearestEven n (droppedBits n sh) * 2 ^ droppedBits n sh := by
  rw [roundedMag, mul_assoc, ← pow_add, Nat.sub_add_cancel (sh_le_droppedBits n sh)]

/-- 53 bits are left of a magnitude (30_encoding.md R68). -/
theorem lt_significand : n < 2 ^ 53 * 2 ^ droppedBits n sh :=
  calc n < 2 ^ (53 + excessBits n) := (excessBits_spec n).1
    _ ≤ 2 ^ (53 + droppedBits n sh) := Nat.pow_le_pow_right Nat.two_pos (Nat.add_le_add_left (le_max_right ..) 53)
    _ = 2 ^ 53 * 2 ^ droppedBits n sh := pow_add ..

theorem quotient_le : roundNearestEven n (droppedBits n sh) ≤ 2 ^ 53 := roundNearestEven_le (lt_significand n sh).le

variable {n sh}

/-- Where more bits are dropped than the scale asks, the significand has its top bit. -/
theorem significand_le (h : sh < droppedBits n sh) : 2 ^ 52 * 2 ^ droppedBits n sh ≤ n := by
  have hd : droppedBits n sh = excessBits n := by unfold droppedBits at h ⊢; omega
  rw [hd, ← pow_add]
  exact (excessBits_spec n).2 (by omega)

theorem le_quotient (h : sh < droppedBits n sh) : 2 ^ 52 ≤ roundNearestEven n (droppedBits n sh) :=
  le_roundNearestEven (significand_le h)

end

/-- A significand rounded up to 2^53 is one of 2^52 with the next exponent. -/
theorem representable_of_le {q k : Nat} (h : q ≤ 2 ^ 53) : Representable (q * 2 ^ k) := by
  obtain hlt | rfl := lt_or_eq_of_le h
  · exact ⟨q, k, hlt, rfl⟩
  · exact ⟨2 ^ 52, k + 1, by decide, by ring⟩

theorem representable_roundedMag (n sh : Nat) : Representable (roundedMag n sh) :=
  representable_of_le (quotient_le n sh)

/-- An even quotient is an even significand, or a subnormal fraction. -/
theorem evenSignificand_roundedMag {n sh : Nat} (h : roundNearestEven n (droppedBits n sh) % 2 = 0) :
    EvenSignificand (roundedMag n sh) := by
  obtain hlt | heq := lt_or_eq_of_le (quotient_le n sh)
  · refine ⟨_, droppedBits n sh - sh, hlt, rfl, h, ?_⟩
    obtain hmore | hsame := lt_or_eq_of_le (sh_le_droppedBits n sh)
    · exact .inl (le_quotient hmore)
    · exact .inr (by omega)
  · refine ⟨2 ^ 52, droppedBits n sh - sh + 1, by decide, ?_, by decide, .inl le_rfl⟩
    rw [roundedMag, heq]
    ring

/-- A representable magnitude is a multiple of the unit in the last place of the rounding, or lies below the range of
its significands. -/
theorem representable_cases {m : Nat} (hm : Representable m) (n sh : Nat) :
    (∃ q, m * 2 ^ sh = q * 2 ^ droppedBits n sh) ∨
    (sh < droppedBits n sh ∧ m * 2 ^ sh < 2 ^ 52 * 2 ^ droppedBits n sh) := by
  obtain ⟨q, e, hq, rfl⟩ := hm
  have hprod : q * 2 ^ e * 2 ^ sh = q * 2 ^ (e + sh) := by rw [mul_assoc, ← pow_add]
  rw [hprod]
  obtain hle | hlt := le_or_gt (droppedBits n sh) (e + sh)
  · refine .inl ⟨q * 2 ^ (e + sh - droppedBits n sh), ?_⟩
    rw [mul_assoc, ← pow_add, Nat.sub_add_cancel hle]
  · refine .inr ⟨by omega, ?_⟩
    obtain ⟨k, hk⟩ := Nat.exists_eq_add_of_lt hlt
    calc q * 2 ^ (e + sh) < 2 ^ 53 * 2 ^ (e + sh) := Nat.mul_lt_mul_of_pos_right hq (Nat.two_pow_pos _)
      _ = 2 ^ 52 * 2 ^ (e + sh + 1) := by ring
      _ ≤ 2 ^ 52 * 2 ^ droppedBits n sh := Nat.mul_le_mul_left _ (Nat.pow_le_pow_right Nat.two_pos hlt)

/-- 40_extractor.md R82: no representable magnitude is nearer, and a tie goes to an even one. -/
theorem roundedMag_nearest (n sh : Nat) {m : Nat} (hm : Representable m) :
    distance n sh (roundedMag n sh) ≤ distance n sh m ∧
    (distance n sh (roundedMag n sh) = distance n sh m →
      m = roundedMag n sh ∨ EvenSignificand (roundedMag n sh)) := by
  rw [distance, distance, roundedMag_mul]
  obtain ⟨q, hq⟩ | ⟨hmore, hbelow⟩ := representable_cases hm n sh
  · rw [hq]
    obtain ⟨hle, htie⟩ := roundNearestEven_nearest n (droppedBits n sh) q
    refine ⟨hle, fun heq => (htie heq).imp (fun hsame => ?_) evenSignificand_roundedMag⟩
    have hmul : m * 2 ^ sh = roundedMag n sh * 2 ^ sh := by rw [hq, hsame, roundedMag_mul]
    exact Nat.eq_of_mul_eq_mul_right (Nat.two_pow_pos sh) hmul
  · obtain ⟨hle, _⟩ := roundNearestEven_nearest n (droppedBits n sh) (2 ^ 52)
    have hin := significand_le hmore
    generalize 2 ^ 52 * 2 ^ droppedBits n sh = b at *
    generalize m * 2 ^ sh = a at *
    exact ⟨by omega, fun heq => by omega⟩

/-- Settles O32: the rounded magnitude is representable and nearest; each operation on finite operands is one
rounding. -/
theorem roundingIsToNearestTiesToEven : Obligations.RoundingIsToNearestTiesToEven := by
  unfold Obligations.RoundingIsToNearestTiesToEven
  refine ⟨fun neg n sh m h => ?_, fun i => by rw [f64OfInt, f64One_eq], fun a b m n => rfl, fun a b m n hsum => ?_⟩
  · obtain ⟨_, rfl, hlt⟩ := f64Round_eq_fin h
    exact ⟨representable_roundedMag n sh, hlt, fun m' hm' => roundedMag_nearest n sh hm'⟩
  · have hsum' : signedMag a m + signedMag b n ≠ 0 := hsum
    simp only [f64Add]
    rw [if_neg hsum']
    rfl

/-! Overflow (40_extractor.md R83). -/

/-- With the last place at 2 P, the quotient reaches 2^53 from the midpoint on: a tie there goes up, since 2^53 - 1 is
odd. -/
theorem quotient_overflow_iff {n d P : Nat} (hP : 2 ^ d = 2 * P) :
    2 ^ 53 ≤ roundNearestEven n d ↔ (2 ^ 54 - 1) * P ≤ n := by
  obtain ⟨hhigh, hlow, htie⟩ := roundNearestEven_spec n d
  have hpos : 0 < P := by have := Nat.two_pow_pos d; omega
  rw [hP] at hhigh hlow htie
  generalize roundNearestEven n d = q at *
  constructor
  · intro hq
    have hscaled : 2 * 2 ^ 53 * (2 * P) ≤ 2 * q * (2 * P) := Nat.mul_le_mul_right _ (Nat.mul_le_mul_left 2 hq)
    omega
  · intro hn
    by_contra hq
    have hscaled : (2 * q + 1) * (2 * P) ≤ (2 ^ 54 - 1) * (2 * P) := Nat.mul_le_mul_right _ (by omega)
    have heven : q % 2 = 0 := htie (.inl (by omega))
    have hodd : 2 * q + 1 = 2 ^ 54 - 1 := Nat.eq_of_mul_eq_mul_right (show 0 < 2 * P by omega) (by omega)
    omega

/-- The rounded magnitude reaches 2^1024 exactly from the midpoint above the largest finite value on. -/
theorem roundedMag_overflow_iff (n sh : Nat) : 2 ^ 2098 ≤ roundedMag n sh ↔ (2 ^ 54 - 1) * 2 ^ (2044 + sh) ≤ n := by
  have hscale : 2 ^ 2098 ≤ roundedMag n sh ↔
      2 ^ 54 * 2 ^ (2044 + sh) ≤ roundNearestEven n (droppedBits n sh) * 2 ^ droppedBits n sh := by
    rw [← roundedMag_mul, ← Nat.mul_le_mul_right_iff (Nat.two_pow_pos sh), ← pow_add, ← pow_add,
      show 54 + (2044 + sh) = 2098 + sh by omega]
  rw [hscale]
  have hlt := lt_significand n sh
  have hquot := quotient_le n sh
  have hsh := sh_le_droppedBits n sh
  obtain hsmall | heq | hlarge := lt_trichotomy (droppedBits n sh) (2045 + sh)
  · have hpow : 2 ^ droppedBits n sh ≤ 2 ^ (2044 + sh) := Nat.pow_le_pow_right Nat.two_pos (by omega)
    have hpos : 0 < 2 ^ (2044 + sh) := Nat.two_pow_pos _
    have hq : roundNearestEven n (droppedBits n sh) * 2 ^ droppedBits n sh ≤ 2 ^ 53 * 2 ^ (2044 + sh) :=
      Nat.mul_le_mul hquot hpow
    generalize 2 ^ droppedBits n sh = D at *
    generalize 2 ^ (2044 + sh) = P at *
    exact iff_of_false (by omega) (by omega)
  · have hP : 2 ^ droppedBits n sh = 2 * 2 ^ (2044 + sh) := by rw [heq, ← pow_succ']; congr 1; omega
    rw [← quotient_overflow_iff hP, hP, ← mul_assoc, Nat.mul_le_mul_right_iff (Nat.two_pow_pos _)]
    omega
  · have hpow : 2 ^ 2 * 2 ^ (2044 + sh) ≤ 2 ^ droppedBits n sh := by
      rw [← pow_add]
      exact Nat.pow_le_pow_right Nat.two_pos (by omega)
    have hin := significand_le (n := n) (sh := sh) (by omega)
    have hq : 2 ^ 52 * 2 ^ droppedBits n sh ≤ roundNearestEven n (droppedBits n sh) * 2 ^ droppedBits n sh :=
      Nat.mul_le_mul_right _ (le_quotient (by omega))
    generalize 2 ^ droppedBits n sh = D at *
    generalize 2 ^ (2044 + sh) = P at *
    exact iff_of_true (by omega) (by omega)

/-- Settles O33: the rounding is infinite exactly where the rounded magnitude reaches 2^1024. -/
theorem roundingOverflowsToSignedInfinity : Obligations.RoundingOverflowsToSignedInfinity := by
  unfold Obligations.RoundingOverflowsToSignedInfinity
  intro neg n sh
  rw [← roundedMag_overflow_iff, f64Round_eq]
  split_ifs with h
  · exact ⟨iff_of_true rfl h, fun hne => absurd rfl hne⟩
  · exact ⟨iff_of_false nofun h, fun _ => ⟨_, rfl⟩⟩

/-! Exact results (40_extractor.md R82). -/

/-- A representable magnitude is a multiple of the unit of its last place. -/
theorem excessBits_le {q k : Nat} (h : q < 2 ^ 53) : excessBits (q * 2 ^ k) ≤ k := by
  by_contra hlt
  have hlow := (excessBits_spec (q * 2 ^ k)).2 (by omega)
  have hhigh : q * 2 ^ k < 2 ^ (53 + k) := by
    rw [pow_add]
    exact Nat.mul_lt_mul_of_pos_right h (Nat.two_pow_pos k)
  have := (Nat.pow_lt_pow_iff_right (show 1 < 2 by decide)).1 (lt_of_le_of_lt hlow hhigh)
  omega

/-- Rounding a representable magnitude changes nothing. -/
theorem roundedMag_exact {m : Nat} (hm : Representable m) (sh : Nat) : roundedMag (m * 2 ^ sh) sh = m := by
  have hmultiple : ∃ c, m * 2 ^ sh = c * 2 ^ droppedBits (m * 2 ^ sh) sh := by
    obtain ⟨q, e, hq, rfl⟩ := hm
    rw [mul_assoc, ← pow_add]
    have hd : droppedBits (q * 2 ^ (e + sh)) sh ≤ e + sh := max_le (Nat.le_add_left sh e) (excessBits_le hq)
    exact ⟨q * 2 ^ (e + sh - droppedBits (q * 2 ^ (e + sh)) sh), by rw [mul_assoc, ← pow_add, Nat.sub_add_cancel hd]⟩
  obtain ⟨c, hc⟩ := hmultiple
  have hquot : roundNearestEven (m * 2 ^ sh) (droppedBits (m * 2 ^ sh) sh) = c :=
    le_antisymm (roundNearestEven_le hc.le) (le_roundNearestEven hc.ge)
  have hscaled : roundedMag (m * 2 ^ sh) sh * 2 ^ sh = m * 2 ^ sh := by
    rw [roundedMag_mul, hquot]
    exact hc.symm
  exact Nat.eq_of_mul_eq_mul_right (Nat.two_pow_pos sh) hscaled

theorem f64Round_exact {m : Nat} (hm : Representable m) (hlt : m < 2 ^ 2098) (neg : Bool) (sh : Nat) :
    f64Round neg (m * 2 ^ sh) sh = .fin neg m := by
  have hexact := roundedMag_exact hm sh
  rw [f64Round_fin (by rwa [hexact]), hexact]

theorem f64Round_exact_zero {m : Nat} (hm : Representable m) (hlt : m < 2 ^ 2098) (neg : Bool) :
    f64Round neg m 0 = .fin neg m := by
  have h := f64Round_exact hm hlt neg 0
  rwa [pow_zero, mul_one] at h

theorem representable_zero : Representable 0 := ⟨0, 0, by decide, rfl⟩

theorem f64Round_zero (neg : Bool) : f64Round neg 0 0 = .fin neg 0 :=
  f64Round_exact_zero representable_zero (Nat.two_pow_pos _) neg

/-- Settles O35: an integer up to 2^53 is a significand, so its rounding is exact. -/
theorem conversionIsExactUpToTwoToThe53 : Obligations.ConversionIsExactUpToTwoToThe53 := by
  unfold Obligations.ConversionIsExactUpToTwoToThe53
  intro i hi
  rw [f64OfInt, f64One_eq]
  refine f64Round_exact_zero (representable_of_le hi) ?_ _
  calc i.natAbs * 2 ^ 1074 ≤ 2 ^ 53 * 2 ^ 1074 := Nat.mul_le_mul_right _ hi
    _ = 2 ^ (53 + 1074) := (pow_add ..).symm
    _ < 2 ^ 2098 := Nat.pow_lt_pow_right (by decide) (by decide)

/-! Special values (40_extractor.md R83). -/

theorem f64OfInt_zero : f64OfInt 0 = .fin false 0 := by
  rw [f64OfInt, Int.natAbs_zero, Nat.zero_mul, f64Round_zero]
  rfl

/-- An exact cancellation is +0.0. -/
theorem f64Add_cancel (a : Bool) (m : Nat) : f64Add (.fin a m) (.fin (!a) m) = .fin false 0 := by
  have hsum : signedMag a m + signedMag (!a) m = 0 := by cases a <;> simp [signedMag]
  simp only [f64Add, hsum]
  rw [if_pos trivial, Int.natAbs_zero, Bool.and_not_self, f64Round_zero]

theorem f64Add_zeros (a b : Bool) : f64Add (.fin a 0) (.fin b 0) = .fin (a && b) 0 := by
  have hsum : signedMag a 0 + signedMag b 0 = 0 := by cases a <;> cases b <;> rfl
  simp only [f64Add, hsum]
  rw [if_pos trivial, Int.natAbs_zero, f64Round_zero]

/-- Settles O36: the arms of `f64Mul` and `f64Add`; the sums that are 0 are the two lemmas above. -/
theorem specialValuesFollowIeee754 : Obligations.SpecialValuesFollowIeee754 := by
  unfold Obligations.SpecialValuesFollowIeee754
  refine ⟨fun a b => ⟨rfl, rfl⟩, fun a b m hm => ⟨if_neg hm.ne', if_neg hm.ne'⟩, fun a b => rfl,
    fun a b m => ⟨rfl, rfl⟩, fun a => ⟨?_, if_pos rfl⟩, fun x => ?_, f64OfInt_zero, fun a m _ => f64Add_cancel a m,
    f64Add_zeros⟩
  · exact if_neg (Bool.not_ne_self a).symm
  · cases x <;> exact ⟨rfl, rfl, rfl, rfl⟩

/-! What a pattern encodes (30_encoding.md R68). -/

/-- The exponent field of a pattern. -/
def exponentField (w : DWord) : Nat := (w.extractLsb' 52 11).toNat

/-- The fraction field of a pattern. -/
def fractionField (w : DWord) : Nat := (w.extractLsb' 0 52).toNat

section
variable (w : DWord)

theorem exponentField_lt : exponentField w < 2 ^ 11 := (w.extractLsb' 52 11).isLt

theorem fractionField_lt : fractionField w < 2 ^ 52 := (w.extractLsb' 0 52).isLt

theorem exponentField_eq : exponentField w = w.toNat / 2 ^ 52 % 2 ^ 11 := by
  rw [exponentField, BitVec.extractLsb'_toNat, Nat.shiftRight_eq_div_pow]

theorem fractionField_eq : fractionField w = w.toNat % 2 ^ 52 := by
  rw [fractionField, BitVec.extractLsb'_toNat, Nat.shiftRight_zero]

theorem signBit_eq : w.getLsbD 63 = decide (w.toNat / 2 ^ 63 % 2 = 1) := by
  rw [BitVec.getLsbD, Nat.testBit_eq_decide_div_mod_eq]

theorem f64Unpack_eq :
    f64Unpack w =
      if exponentField w = 0x7FF then (if fractionField w = 0 then .inf (w.getLsbD 63) else .nan)
      else if exponentField w = 0 then .fin (w.getLsbD 63) (fractionField w)
      else .fin (w.getLsbD 63) ((2 ^ 52 + fractionField w) * 2 ^ (exponentField w - 1)) := by
  rw [← Nat.shiftLeft_eq]
  rfl

theorem isNaN_iff : IsNaN w ↔ exponentField w = 0x7FF ∧ fractionField w ≠ 0 :=
  and_congr BitVec.toNat_inj.symm BitVec.toNat_inj.not.symm

theorem f64Unpack_eq_nan_iff : f64Unpack w = .nan ↔ IsNaN w := by
  rw [isNaN_iff, f64Unpack_eq]
  split_ifs with he hf hz <;> simp_all

end

section
variable (neg : Bool) (rest : Nat)

theorem f64Bits_toNat (h : rest < 2 ^ 63) : (f64Bits neg rest).toNat = neg.toNat * 2 ^ 63 + rest := by
  rw [f64Bits, BitVec.toNat_append, ← Nat.shiftLeft_add_eq_or_of_lt (BitVec.isLt _), Nat.shiftLeft_eq,
    BitVec.toNat_ofBool, toNat_ofNat_of_lt h]

variable {rest}

theorem f64Bits_sign (h : rest < 2 ^ 63) : (f64Bits neg rest).getLsbD 63 = neg := by
  rw [signBit_eq, f64Bits_toNat neg rest h]
  cases neg
  · exact decide_eq_false (by rw [Bool.toNat_false]; omega)
  · exact decide_eq_true (by rw [Bool.toNat_true]; omega)

theorem f64Bits_exponent (h : rest < 2 ^ 63) : exponentField (f64Bits neg rest) = rest / 2 ^ 52 := by
  rw [exponentField_eq, f64Bits_toNat neg rest h]
  omega

theorem f64Bits_fraction (h : rest < 2 ^ 63) : fractionField (f64Bits neg rest) = rest % 2 ^ 52 := by
  rw [fractionField_eq, f64Bits_toNat neg rest h]
  omega

end

/-- A pattern is its sign, exponent and fraction. -/
theorem f64Bits_fields (w : DWord) : f64Bits (w.getLsbD 63) (exponentField w * 2 ^ 52 + fractionField w) = w := by
  have he := exponentField_lt w
  have hf := fractionField_lt w
  have hw := w.isLt
  apply BitVec.eq_of_toNat_eq
  rw [f64Bits_toNat _ _ (by omega), exponentField_eq, fractionField_eq, signBit_eq]
  by_cases hs : w.toNat / 2 ^ 63 % 2 = 1
  · rw [decide_eq_true hs, Bool.toNat_true]; omega
  · rw [decide_eq_false hs, Bool.toNat_false]; omega

/-- A significand with its top bit at 52 has all its lower bits below 2^k in excess. -/
theorem excessBits_significand {q k : Nat} (hlow : 2 ^ 52 ≤ q) (hhigh : q < 2 ^ 53) : excessBits (q * 2 ^ k) = k := by
  refine le_antisymm (excessBits_le hhigh) ?_
  have hupper := (excessBits_spec (q * 2 ^ k)).1
  have hlower : 2 ^ (52 + k) ≤ q * 2 ^ k := by
    rw [pow_add]
    exact Nat.mul_le_mul_right _ hlow
  have := (Nat.pow_lt_pow_iff_right (show 1 < 2 by decide)).1 (lt_of_le_of_lt hlower hupper)
  omega

/-- Biased exponent and fraction of a significand and its excess bits. -/
theorem f64Pack_significand (p : DWord) (neg : Bool) {q k : Nat} (hlow : 2 ^ 52 ≤ q) (hhigh : q < 2 ^ 53) :
    f64Pack p (.fin neg (q * 2 ^ k)) = f64Bits neg (k * 2 ^ 52 + q) := by
  rw [f64Pack, excessBits_significand hlow hhigh, Nat.shiftRight_eq_div_pow, Nat.mul_div_cancel _ (Nat.two_pow_pos k)]

theorem f64Pack_subnormal (p : DWord) (neg : Bool) {m : Nat} (h : m < 2 ^ 53) :
    f64Pack p (.fin neg m) = f64Bits neg m := by
  rw [f64Pack, excessBits_of_lt h, Nat.zero_mul, Nat.zero_add, Nat.shiftRight_zero]

/-- Settles O34: the fields of a pattern give its value, and packing the value gives the fields back. -/
theorem packUndoesUnpack : Obligations.PackUndoesUnpack := by
  unfold Obligations.PackUndoesUnpack
  refine ⟨fun w e f he hf => ?value, fun w p => ⟨f64Unpack_eq_nan_iff w, fun hnan => ?inverse⟩⟩
  case value =>
    have he' : exponentField w = e := he.symm
    have hf' : fractionField w = f := hf.symm
    rw [f64Unpack_eq, he', hf']
    exact ⟨fun h7 h0 => by rw [if_pos h7, if_pos h0], fun h0 => by rw [if_neg (by omega), if_pos h0],
      fun h0 h7 => by rw [if_neg h7, if_neg h0]⟩
  case inverse =>
    have hf := fractionField_lt w
    have hw := f64Bits_fields w
    rw [isNaN_iff] at hnan
    rw [f64Unpack_eq]
    split_ifs with h7 h0 hz
    · rw [f64Pack, ← h7, ← Nat.add_zero (exponentField w * 2 ^ 52), ← h0]
      exact hw
    · exact absurd ⟨h7, h0⟩ hnan
    · rw [f64Pack_subnormal p _ (by omega)]
      rwa [hz, Nat.zero_mul, Nat.zero_add] at hw
    · rw [f64Pack_significand p _ (by omega) (by omega)]
      rwa [show (exponentField w - 1) * 2 ^ 52 + (2 ^ 52 + fractionField w) =
        exponentField w * 2 ^ 52 + fractionField w by omega]

/-! NaN patterns (40_extractor.md R83). -/

/-- The fraction of a drawn NaN: the free bits, but never 0. -/
def nanFraction (bits : DWord) : Nat := if fractionField bits = 0 then 1 else fractionField bits

theorem nanFraction_bounds (bits : DWord) : 0 < nanFraction bits ∧ nanFraction bits < 2 ^ 52 := by
  have hf := fractionField_lt bits
  unfold nanFraction
  split_ifs <;> omega

theorem nanPattern_eq_f64Bits (bits : DWord) :
    nanPattern bits = f64Bits (bits.getLsbD 63) (0x7FF * 2 ^ 52 + nanFraction bits) := by
  obtain ⟨_, hlt⟩ := nanFraction_bounds bits
  have hsign : (bits.extractLsb' 63 1).toNat = (bits.getLsbD 63).toNat := by
    rw [signBit_eq, BitVec.extractLsb'_toNat, Nat.shiftRight_eq_div_pow]
    by_cases hs : bits.toNat / 2 ^ 63 % 2 = 1
    · rw [decide_eq_true hs, Bool.toNat_true]; omega
    · rw [decide_eq_false hs, Bool.toNat_false]; omega
  have hfraction : (if bits.extractLsb' 0 52 = 0 then 1 else bits.extractLsb' 0 52 : BitVec 52).toNat =
      nanFraction bits := by
    have hzero : bits.extractLsb' 0 52 = 0 ↔ fractionField bits = 0 := BitVec.toNat_inj.symm
    rw [nanFraction, apply_ite BitVec.toNat]
    exact if_congr hzero rfl rfl
  apply BitVec.eq_of_toNat_eq
  rw [f64Bits_toNat _ _ (by omega), nanPattern]
  simp only [BitVec.toNat_append, hsign, hfraction]
  rw [← Nat.shiftLeft_add_eq_or_of_lt hlt, ← Nat.shiftLeft_add_eq_or_of_lt (by decide),
    Nat.shiftLeft_eq, Nat.shiftLeft_eq]
  simp only [BitVec.toNat_ofNat]
  omega

/-- Settles O37: a drawn pattern has exponent 0x7FF and a fraction that is not 0; a NaN has both already. -/
theorem nanDrawCoversExactlyTheNans : Obligations.NanDrawCoversExactlyTheNans := by
  unfold Obligations.NanDrawCoversExactlyTheNans
  refine ⟨fun b => ?_, fun w hw => ?_⟩
  · obtain ⟨hpos, hlt⟩ := nanFraction_bounds b
    rw [isNaN_iff, nanPattern_eq_f64Bits, f64Bits_exponent _ (by omega), f64Bits_fraction _ (by omega)]
    omega
  · obtain ⟨he, hf⟩ := (isNaN_iff w).1 hw
    rw [nanPattern_eq_f64Bits, nanFraction, if_neg hf, ← he]
    exact f64Bits_fields w

/-! The physical value of `XTR` (40_extractor.md R81-R83). -/

/-- A finite value that a pattern can hold. -/
def Packable (v : F64) : Prop := ∀ neg m, v = .fin neg m → Representable m ∧ m < 2 ^ 2098

theorem packable_f64Round (neg : Bool) (n sh : Nat) : Packable (f64Round neg n sh) := fun neg' m h => by
  obtain ⟨_, rfl, hlt⟩ := f64Round_eq_fin h
  exact ⟨representable_roundedMag n sh, hlt⟩

theorem packable_f64OfInt (i : Int) : Packable (f64OfInt i) := packable_f64Round _ _ _

theorem packable_f64Add (x y : F64) : Packable (f64Add x y) := by
  cases x with
  | nan => exact fun _ _ => nofun
  | inf a =>
    cases y with
    | nan => exact fun _ _ => nofun
    | inf b =>
      intro neg m h
      simp only [f64Add] at h
      split_ifs at h
    | fin b n => exact fun _ _ => nofun
  | fin a m =>
    cases y with
    | nan | inf => exact fun _ _ => nofun
    | fin b n => exact packable_f64Round _ _ _

/-- A representable magnitude from 2^52 on has a significand with its top bit. -/
theorem exists_significand {m : Nat} (hm : Representable m) (hlow : 2 ^ 52 ≤ m) :
    ∃ q k, 2 ^ 52 ≤ q ∧ q < 2 ^ 53 ∧ m = q * 2 ^ k := by
  have hspec := excessBits_spec m
  have hdvd : ∃ q, m = q * 2 ^ excessBits m := by
    obtain ⟨q, e, hq, rfl⟩ := hm
    have hle := excessBits_le (k := e) hq
    exact ⟨q * 2 ^ (e - excessBits (q * 2 ^ e)), by rw [mul_assoc, ← pow_add, Nat.sub_add_cancel hle]⟩
  obtain ⟨q, hq⟩ := hdvd
  generalize excessBits m = k at *
  subst hq
  have hpos : 0 < 2 ^ k := Nat.two_pow_pos k
  refine ⟨q, k, ?_, ?_, rfl⟩
  · obtain rfl | hk := Nat.eq_zero_or_pos k
    · rwa [pow_zero, mul_one] at hlow
    · have hlower := hspec.2 hk.ne'
      rw [pow_add] at hlower
      exact Nat.le_of_mul_le_mul_right hlower hpos
  · have hupper := hspec.1
    rw [pow_add] at hupper
    exact Nat.lt_of_mul_lt_mul_right hupper

/-- Reading back what was packed. -/
theorem f64Unpack_f64Pack (p : DWord) {v : F64} (hv : Packable v) (hnan : v ≠ .nan) : f64Unpack (f64Pack p v) = v := by
  cases v with
  | nan => exact absurd rfl hnan
  | inf neg =>
    rw [f64Pack, f64Unpack_eq, f64Bits_exponent _ (by decide), f64Bits_fraction _ (by decide),
      f64Bits_sign _ (by decide)]
    rfl
  | fin neg m =>
    obtain ⟨hm, hlt⟩ := hv neg m rfl
    obtain hsmall | hlarge := lt_or_ge m (2 ^ 52)
    · have hrest : m < 2 ^ 63 := by omega
      rw [f64Pack_subnormal p neg (by omega), f64Unpack_eq, f64Bits_exponent neg hrest, f64Bits_fraction neg hrest,
        f64Bits_sign neg hrest, Nat.div_eq_of_lt hsmall, Nat.mod_eq_of_lt hsmall]
      rfl
    · obtain ⟨q, k, hlow, hhigh, rfl⟩ := exists_significand hm hlarge
      have hk : k < 2046 := by
        have hpow : 2 ^ (52 + k) < 2 ^ 2098 :=
          lt_of_le_of_lt ((pow_add 2 52 k).trans_le (Nat.mul_le_mul_right _ hlow)) hlt
        have := (Nat.pow_lt_pow_iff_right (show 1 < 2 by decide)).1 hpow
        omega
      clear hm hlt hv hlarge hnan
      have hrest : k * 2 ^ 52 + q < 2 ^ 63 := by omega
      rw [f64Pack_significand p neg hlow hhigh, f64Unpack_eq, f64Bits_exponent neg hrest, f64Bits_fraction neg hrest,
        f64Bits_sign neg hrest, show (k * 2 ^ 52 + q) / 2 ^ 52 = k + 1 by omega,
        show (k * 2 ^ 52 + q) % 2 ^ 52 = q - 2 ^ 52 by omega, if_neg (by omega), if_neg (by omega),
        Nat.add_sub_cancel, Nat.add_sub_cancel' hlow]

/-- Settles O28: the result is packed; a packed NaN is the draw's pattern, any other result reads back. -/
theorem xtrPhysEncodesTheScaledRawValue : Obligations.XtrPhysEncodesTheScaledRawValue := by
  unfold Obligations.XtrPhysEncodesTheScaledRawValue
  intro s hlegal
  refine ⟨_, physValue (rawWord s.frame s.field) s.field, exec_xtr_of_pass (fieldCheck_of_legal hlegal), ?_,
    fun hp => ?_, fun hp => ?_⟩
  all_goals rw [doneWith_fieldRes, writeFieldResult_fieldRes]
  · rw [physValue]
  · rw [doneWith_draws, writeFieldResult_draws, if_pos hp, hp]
    exact ⟨nanDrawCoversExactlyTheNans.1 _, rfl⟩
  · have hread := f64Unpack_f64Pack (nanPattern (Config.nanDraw s.draws))
      (packable_f64Add (f64Mul (f64OfInt (rawWord s.frame s.field).toInt) (f64Unpack s.field.scale))
        (f64Unpack s.field.offset)) hp
    rw [doneWith_draws, writeFieldResult_draws, if_neg hp, ← f64Unpack_eq_nan_iff, physValue, hread]
    exact ⟨hp, rfl, rfl⟩

/-! The reset values of scale and offset (40_extractor.md R83). -/

/-- 10_state.md R24: the reset value of `XSCALE` is 1.0. -/
theorem f64Unpack_one : f64Unpack 0x3FF0000000000000 = .fin false (2 ^ 1074) := by
  have he : exponentField 0x3FF0000000000000 = 1023 := rfl
  have hf : fractionField 0x3FF0000000000000 = 0 := rfl
  rw [f64Unpack_eq, he, hf, if_neg (by decide), if_neg (by decide), Nat.add_zero, ← pow_add]
  rfl

theorem f64Unpack_zero : f64Unpack 0 = .fin false 0 := rfl

theorem f64Unpack_negZero : f64Unpack 0x8000000000000000 = .fin true 0 := rfl

theorem signedMag_natAbs (neg : Bool) (m : Nat) : (signedMag neg m).natAbs = m := by
  cases neg <;> simp [signedMag]

/-- The sign `f64Add` gives a sum that is its first operand. -/
theorem sign_of_signedMag {neg : Bool} {m : Nat} (h : neg = true → m ≠ 0) :
    (if signedMag neg m = 0 then neg && false else decide (signedMag neg m < 0)) = neg := by
  cases neg with
  | false => simp [signedMag]
  | true =>
    have hm := h rfl
    have hneg : signedMag true m < 0 := by simp only [signedMag, if_true]; omega
    rw [if_neg hneg.ne, decide_eq_true hneg]

/-- A value is kept by multiplying it by 1.0 and adding +0.0, unless it is -0.0. -/
theorem mul_one_add_zero {v : F64} (hv : Packable v) (hzero : v ≠ .fin true 0) :
    f64Add (f64Mul v (.fin false (2 ^ 1074))) (.fin false 0) = v := by
  cases v with
  | nan => rfl
  | inf neg =>
    rw [f64Mul, if_neg (Nat.two_pow_pos 1074).ne', Bool.xor_false]
    rfl
  | fin neg m =>
    obtain ⟨hm, hlt⟩ := hv neg m rfl
    have hsum : signedMag neg m + signedMag false 0 = signedMag neg m := Int.add_zero _
    have hsign : neg = true → m ≠ 0 := by
      rintro rfl rfl
      exact hzero rfl
    rw [f64Mul, f64Round_exact hm hlt, Bool.xor_false]
    simp only [f64Add, hsum, signedMag_natAbs]
    rw [sign_of_signedMag hsign, f64Round_exact_zero hm hlt]

/-- No magnitude of whole units is rounded to 0. -/
theorem roundedMag_pos {n : Nat} (h : 0 < n) : 0 < roundedMag n 0 := by
  rw [roundedMag]
  obtain hmore | hsame := lt_or_eq_of_le (Nat.zero_le (droppedBits n 0))
  · have hq := le_quotient hmore
    exact Nat.mul_pos (by omega) (Nat.two_pow_pos _)
  · rw [← hsame, roundNearestEven_zero]
    exact Nat.mul_pos h (Nat.two_pow_pos _)

/-- 40_extractor.md R83: the conversion of an integer is never -0.0. -/
theorem f64OfInt_ne_negZero (i : Int) : f64OfInt i ≠ .fin true 0 := by
  intro h
  rw [f64OfInt, f64One_eq] at h
  obtain ⟨hsign, hmag, _⟩ := f64Round_eq_fin h
  have hneg : i < 0 := of_decide_eq_true hsign.symm
  have hpos : 0 < i.natAbs * 2 ^ 1074 := Nat.mul_pos (Int.natAbs_pos.2 hneg.ne) (Nat.two_pow_pos _)
  exact (roundedMag_pos hpos).ne hmag

theorem f64OfInt_ne_nan (i : Int) : f64OfInt i ≠ .nan := by
  rw [f64OfInt, f64Round_eq]
  split_ifs <;> exact nofun

/-- Settles O29: 1.0 and +0.0 leave the conversion as it is, and it is not -0.0. -/
theorem xtrWithDefaultScaleConvertsTheRawValue : Obligations.XtrWithDefaultScaleConvertsTheRawValue := by
  unfold Obligations.XtrWithDefaultScaleConvertsTheRawValue
  intro s hlegal hscale hoffset
  have hphys : physValue (rawWord s.frame s.field) s.field = f64OfInt (rawWord s.frame s.field).toInt := by
    rw [physValue, hscale, hoffset, f64Unpack_one, f64Unpack_zero,
      mul_one_add_zero (packable_f64OfInt _) (f64OfInt_ne_negZero _)]
  have hread := f64Unpack_f64Pack (nanPattern (Config.nanDraw s.draws))
    (packable_f64OfInt (rawWord s.frame s.field).toInt) (f64OfInt_ne_nan _)
  refine ⟨_, exec_xtr_of_pass (fieldCheck_of_legal hlegal), ?_, fun hnegZero => ?_⟩
  · rw [doneWith_fieldRes, writeFieldResult_fieldRes, hphys]
    exact hread
  · rw [doneWith_fieldRes, writeFieldResult_fieldRes, hphys] at hnegZero
    have hpattern : f64Pack (nanPattern (Config.nanDraw s.draws)) (f64OfInt (rawWord s.frame s.field).toInt) =
        0x8000000000000000 := hnegZero
    rw [hpattern, f64Unpack_negZero] at hread
    exact f64OfInt_ne_negZero _ hread.symm

end Sys2Proof.Machine
